-- ==== Sys2Proof/Word.lean ====
section
/-! DEFINITION. Word.lean: the widths of the block's words (00_scope.md rule R12, 30_encoding.md rules R47 and
R54) and the two fixed sets of names that both the syntax and the state use: a line and a direction. -/

namespace Sys2Proof

/-- A command word, `cmd_word_i[15:0]` (R47). -/
abbrev CmdWord := BitVec 16

/-- A response word, `rsp_word_o[31:0]` (R54). -/
abbrev RspWord := BitVec 32

/-- A byte on the wire, the accumulator, and each byte of the report (R12). -/
abbrev Byte := BitVec 8

/-- A PS/2 line that can be sensed and driven (R16, R18). -/
inductive Line where
  | clk
  | data
  deriving DecidableEq, Repr

/-- A line's direction as the host sees it: `IN` = sensed, `OUT` = driven (R18, R57). -/
inductive Dir where
  /-- `IN`: the host does not drive the line. -/
  | input
  /-- `OUT`: the host drives the line to its output latch. -/
  | output
  deriving DecidableEq, Repr

end Sys2Proof
end

