-- ==== Sys2Proof/Config.lean ====
section
/-! DEFINITION. Config.lean: the parameters of an implementation (00_scope.md §4) and the model's one free value.

The parameters are plain data held in a field of State that no step writes, so that a statement over every state is a
statement over every choice of them and a run can still be computed [notes/assumptions/4.md]. -/

namespace Sys2Proof

/-- The build-time parameters (00_scope.md rules R7 to R11; 93_implementation_defined.md U20 to U24). -/
structure Params where
  /-- `F_CLK_HZ`, the frequency of `clk_i` (R7, OPEN). -/
  fClkHz : Nat
  /-- `T_SETTLE_US`, every settle delay (R8). -/
  tSettleUs : Nat
  /-- `T_INTERBYTE_US` (R9): no command applies it. -/
  tInterbyteUs : Nat
  /-- `T_RESET_PULSE` in microseconds (R9, OPEN): no command applies it. -/
  tResetPulseUs : Nat
  /-- `EXTENDED_COMMANDS` (R9): no effect on the core. -/
  extendedCommands : Bool
  /-- `WAIT_TIMEOUT_US` (R10): `none` is `INFINITE`. -/
  waitTimeoutUs : Option Nat
  /-- `RESET_ASSERT_LEVEL` (R11, OPEN). -/
  resetAssertLevel : Bool
  /-- `SYNC_STAGES` (R11): latency only, no rule depends on it (R68). -/
  syncStages : Nat
  deriving DecidableEq, Repr

/-- The defaults of R8 to R11; for the OPEN parameters the values that log entry 4 names.
DESIGN CHOICE [4]: `F_CLK_HZ`, `T_RESET_PULSE`, `EXTENDED_COMMANDS` and `RESET_ASSERT_LEVEL` have no value in the spec. -/
def Params.default : Params where
  fClkHz := 1000000
  tSettleUs := 15
  tInterbyteUs := 100
  tResetPulseUs := 100000
  extendedCommands := false
  waitTimeoutUs := none
  resetAssertLevel := true
  syncStages := 2

/-- The limits the spec sets on the parameters: a clock that runs, and a reset pulse of 100 ms to 2.5 s (R7, R9). -/
def Params.wf (p : Params) : Bool :=
  decide (0 < p.fClkHz) && decide (100000 ≤ p.tResetPulseUs) && decide (p.tResetPulseUs ≤ 2500000)

/-- FREE VALUE [9]: the level the `n`-th Sense of an output line returns, "any value in {0, 1}", a fresh draw at each
Sense (40_line_driver.md rule R67; 93_implementation_defined.md U2). It has no body that a proof can see. -/
opaque Config.senseDraw : Nat → Bool

end Sys2Proof
end

