-- ==== Sys2Proof/Syntax.lean ====
section
/-! DEFINITION. Syntax.lean: the commands, one constructor per row of spec/opcode_table.json, with the operands that
30_encoding.md rule R50 lists for it. A field that R51 has the command ignore is no operand. -/

namespace Sys2Proof

/-- The four values of the line-select field `LN` (30_encoding.md rule R49). -/
inductive LineSel where
  /-- `00`: the PS/2 clock line. -/
  | clk
  /-- `01`: the PS/2 data line. -/
  | data
  /-- `10`: the device reset pad. -/
  | rst
  /-- `11`: no line. -/
  | reserved
  deriving DecidableEq, Repr

/-- A command of the PS2CORE command set (30_encoding.md rule R50). -/
inductive Instr where
  /-- NOP (R72). -/
  | nop
  /-- SET_DIR: operands `LN` and `V` (R73). -/
  | setDir (line : LineSel) (dir : Dir)
  /-- DRIVE: operands `LN` and `V`, the level (R74). -/
  | drive (line : LineSel) (level : Bool)
  /-- SENSE: operand `LN` (R75). -/
  | sense (line : LineSel)
  /-- WAIT: operands `LN` and `V`, the level awaited (R76). -/
  | wait (line : LineSel) (level : Bool)
  /-- INHIBIT (R77). -/
  | inhibit
  /-- DELAY: operand `B`, a count of microseconds (R78). -/
  | delay (us : Byte)
  /-- SEND_BYTE: operand `B`, the byte to send (R80). -/
  | sendByte (byte : Byte)
  /-- RECEIVE_BYTE (R85). -/
  | receiveByte
  /-- PUSH_BIT: operand `V`, the bit pushed (R91). -/
  | pushBit (bit : Bool)
  /-- IS_REPORT_READY (R93). -/
  | isReportReady
  /-- TAKE_REPORT (R94). -/
  | takeReport
  /-- DECODER_CLEAR (R95). -/
  | decoderClear
  /-- SAMPLE_PUSH (R92). -/
  | samplePush
  deriving DecidableEq, Repr

end Sys2Proof
end

