-- ==== Sys2Proof/Machine/State.lean ====
section
/-! DEFINITION. Machine/State.lean: every piece of state the spec gives the block (10_state.md), the agents outside it
as plain data, the ways a step can stop, and the state right after reset. -/

namespace Sys2Proof.Machine

/-- The pad registers (10_state.md rules R18 and R19). -/
structure Lines where
  /-- `CLK_DIR`. -/
  clkDir : Dir
  /-- `CLK_OUT`. -/
  clkOut : Bool
  /-- `DATA_DIR`. -/
  dataDir : Dir
  /-- `DATA_OUT`. -/
  dataOut : Bool
  /-- `RST_OUT`. -/
  rstOut : Bool
  deriving DecidableEq, Repr

/-- The frame decoder, the movement report and its flag (10_state.md rules R21 to R25). -/
structure Decoder where
  /-- `ACC`. -/
  acc : Byte
  /-- `BIT_IDX`, two's complement. -/
  bitIdx : BitVec 5
  /-- `FRAME_SLOT`. -/
  frameSlot : BitVec 2
  /-- `REP_STATE`. -/
  repState : Byte
  /-- `REP_X`. -/
  repX : Byte
  /-- `REP_Y`. -/
  repY : Byte
  /-- `AVAILABLE`. -/
  available : Bool
  deriving DecidableEq, Repr

/-- `CUR`, the running command and its position (10_state.md rules R26 and R27). Its layout is the implementation's;
DESIGN CHOICE [6]: the decoded command, and a latch for the level a Sense hands to the next primitive. -/
structure Cur where
  /-- The running command. -/
  cmd : Instr
  /-- The primitives of `raise LineTimeout` run in place of the command's own (60_exceptions.md rule R103). -/
  aborting : Bool
  /-- The position in the primitive list (R26). -/
  pos : Nat
  /-- The level `s` of R75 or `b` of R92, between the Sense and the primitive that uses it. -/
  sampled : Bool
  deriving DecidableEq, Repr

/-- The sequencing state, which no command reads (10_state.md rule R27). -/
structure Seq where
  /-- `BUSY`. -/
  busy : Bool
  /-- `CUR`. -/
  cur : Cur
  /-- `TXB`. -/
  txb : Byte
  /-- `RXB`. -/
  rxb : BitVec 10
  /-- `TIMER`: the cycles the running Delay or WaitUntil has taken so far. -/
  timer : Nat
  deriving DecidableEq, Repr

/-- The command port and the response port (10_state.md rule R17). -/
structure Port where
  /-- `cmd_valid_i` with `cmd_word_i`: the word the caller offers, if it offers one. -/
  cmd : Option CmdWord
  /-- `rsp_valid_o` with `rsp_word_o`: the response presented in the cycle that the last step ended with. -/
  rsp : Option RspWord
  deriving DecidableEq, Repr

/-- What happens next: a move of an agent outside the block, or the block's own move (00_scope.md rule R15;
70_reset_and_hazards.md rule R131) [1]. -/
inductive Turn where
  /-- The device takes these sides of the two lines, `true` = released, `false` = pulling low (R64). -/
  | device (clk data : Bool)
  /-- The block's next primitive runs, or polls, for this many cycles of `clk_i` [2]. -/
  | host (cycles : Nat)
  /-- The caller changes its offer on the command port (R17). -/
  | caller (offer : Option CmdWord)
  /-- A cycle with `rst_i = 1` (R116). -/
  | reset
  deriving DecidableEq, Repr

/-- The agents outside the block: inputs, not registers of the block (10_state.md rule R30) [1]. -/
structure Env where
  /-- `DEV_clk`, 1 released, 0 pulling low (R64). -/
  devClk : Bool
  /-- `DEV_data` (R64). -/
  devData : Bool
  /-- The turns to come, the next one first. After the last nothing outside the block happens. -/
  schedule : List Turn
  deriving DecidableEq, Repr

/-- What the model records and the block does not know. -/
structure Record where
  /-- A contention fault on the clock line has happened; never cleared (R125) [8]. -/
  contentionClk : Bool
  /-- A contention fault on the data line has happened; never cleared (R125) [8]. -/
  contentionData : Bool
  /-- How many free draws a Sense of an output line has taken (R67) [9]. -/
  draws : Nat
  deriving DecidableEq, Repr

/-- The machine: the block's registers and ports, its parameters, and the agents outside it. -/
structure State where
  params : Params
  lines : Lines
  dec : Decoder
  seq : Seq
  port : Port
  env : Env
  record : Record
  deriving DecidableEq, Repr

/-- Why a step can stop the machine. The spec has no fault that stops it (60_exceptions.md rule R101). -/
inductive Fault where
  /-- Raised by the shared operation that runs a command (runCommand), and by nothing else: `BUSY = 1` and the position
  in `CUR` names no primitive of the running command. The spec gives such a state no meaning and no run from reset
  reaches it. Safe: the model stops. -/
  | noPrimitive
  deriving DecidableEq, Repr

/-- Why an instruction has no meaning. -/
inductive Refusal where
  /-- Raised by an arm of exec whose instruction has no meaning yet; no arm raises it now. Safe: the model stops. -/
  | notModelled (mnemonic : String)
  deriving DecidableEq, Repr

/-- The line registers after reset (10_state.md rules R19 and R32). -/
def Lines.reset (p : Params) : Lines where
  clkDir := .input
  clkOut := true
  dataDir := .input
  dataOut := true
  rstOut := !p.resetAssertLevel

/-- The decoder after reset (10_state.md rule R32). -/
def Decoder.reset : Decoder where
  acc := 0x00
  bitIdx := -1
  frameSlot := 0
  repState := 0x00
  repX := 0x00
  repY := 0x00
  available := false

/-- The sequencer after reset: `BUSY = 0` (R32). DESIGN CHOICE [5]: the rest is "unspecified; never read before
written" and is zero here. -/
def Seq.reset : Seq where
  busy := false
  cur := { cmd := .nop, aborting := false, pos := 0, sampled := false }
  txb := 0
  rxb := 0
  timer := 0

/-- The machine right after reset (10_state.md rule R32), with an idle device, no offer and nothing scheduled
(DESIGN CHOICE [1], [7], [8], [9]) and the default parameters [4]. -/
def State.reset : State where
  params := Params.default
  lines := Lines.reset Params.default
  dec := Decoder.reset
  seq := Seq.reset
  port := { cmd := none, rsp := none }
  env := { devClk := true, devData := true, schedule := [] }
  record := { contentionClk := false, contentionData := false, draws := 0 }

end Sys2Proof.Machine
end

