-- ==== Sys2Proof/Machine/Flags.lean ====
section
/-! DEFINITION. Machine/Flags.lean: the decoder's one algorithm and every rule of the flag `AVAILABLE` (10_state.md rule
R25; 42_frame_decoder.md rule R90). -/

namespace Sys2Proof.Machine

/-- The pre-start-bit position, `BIT_IDX = -1` (R22). -/
def preStart : BitVec 5 := -1

/-- `ACC <- 0; BIT_IDX <- -1`: the default case of R90. -/
def Decoder.rearm (d : Decoder) : Decoder := { d with acc := 0, bitIdx := preStart }

/-- The stop bit's commit into the field that `FRAME_SLOT` selects; slot 3 writes none (R90). -/
def Decoder.commit (d : Decoder) : Decoder :=
  match d.frameSlot.toNat with
  | 0 => { d with repState := d.acc }
  | 1 => { d with repX := d.acc }
  | 2 => { d with repY := d.acc, available := true }
  | _ => d

/-- `FRAME_SLOT <- (FRAME_SLOT + 1) % 3` (R90). DEDUCED [11]: the sum is exact, so slot 3, which no run reaches, goes
to 1. -/
def nextSlot (slot : BitVec 2) : BitVec 2 := BitVec.ofNat 2 ((slot.toNat + 1) % 3)

/-- What the decoder does at the position `BIT_IDX` has just advanced to (R90). -/
def Decoder.atPosition (d : Decoder) (b : Bool) : Decoder :=
  if d.bitIdx.toInt = 0 then d
  else if 1 ≤ d.bitIdx.toInt ∧ d.bitIdx.toInt ≤ 8 then { d with acc := BitVec.ofBool b ++ d.acc.extractLsb' 1 7 }
  else if d.bitIdx.toInt = 9 then d
  else if d.bitIdx.toInt = 10 then { d.commit with frameSlot := nextSlot d.frameSlot }.rearm
  else d.rearm

/-- `PushCore(b)`: `AVAILABLE` is forced 0, `BIT_IDX` advances in 5 bits, and then the position acts (R90). -/
def Decoder.push (d : Decoder) (b : Bool) : Decoder :=
  { d with available := false, bitIdx := d.bitIdx + 1 }.atPosition b

/-- `AVAILABLE <- 0`, the clear of TAKE_REPORT and of DECODER_CLEAR (R94, R95). -/
def Decoder.clearAvailable (d : Decoder) : Decoder := { d with available := false }

end Sys2Proof.Machine
end

