-- ==== Sys2Proof/Machine/Operands.lean ====
section
/-! DEFINITION. Machine/Operands.lean: what the operands, the wire encodings and the response fields mean
(00_scope.md rules R7 and R13; 30_encoding.md rules R48, R49, R54 to R60). -/

namespace Sys2Proof.Machine

/-- The PS/2 line a line select names, if it names one (R49). -/
def lineOf : LineSel → Option Line
  | .clk => some .clk
  | .data => some .data
  | .rst => none
  | .reserved => none

/-- `P(v)`, the odd-parity bit of a byte (R59). -/
def parity (v : Byte) : Bool :=
  true ^^ v.getLsbD 0 ^^ v.getLsbD 1 ^^ v.getLsbD 2 ^^ v.getLsbD 3 ^^ v.getLsbD 4 ^^ v.getLsbD 5 ^^ v.getLsbD 6
    ^^ v.getLsbD 7

/-- `F(v) = {1, P(v), v[7:0], 0}`, the frame the host sends, frame bit `k` in bit `k` (R58). -/
def frameOf (v : Byte) : BitVec 11 :=
  1#1 ++ BitVec.ofBool (parity v) ++ v ++ 0#1

/-- `RXB` with the value `b` in bit `i` (R85). -/
def setRxBit (rxb : BitVec 10) (i : Nat) (b : Bool) : BitVec 10 :=
  (rxb &&& ~~~(1#10 <<< i)) ||| (BitVec.zeroExtend 10 (BitVec.ofBool b) <<< i)

/-- `s8(v)`, the two's-complement reading of a byte (R13). -/
def s8 (v : Byte) : Int := if v.toNat < 128 then v.toNat else v.toNat - 256

/-- A delay of `us` microseconds in cycles of `clk_i`: `ceil(us * F_CLK_HZ / 1e6)` (R7). -/
def cyclesOf (p : Params) (us : Nat) : Nat := (us * p.fClkHz + 999999) / 1000000

/-- The status of a response (R55). -/
def statusOk : BitVec 4 := 0

/-- The status of a refused word (R55). -/
def statusIllegal : BitVec 4 := 1

/-- The status of a command whose wait timed out (R55). -/
def statusLineTimeout : BitVec 4 := 2

/-- The response word `{st, 0b000, d}` (R54). -/
def rspWord (st : BitVec 4) (d : BitVec 25) : RspWord := st ++ 0#3 ++ d

/-- `zext_25` of one bit (R56). -/
def zextBit (b : Bool) : BitVec 25 := BitVec.zeroExtend 25 (BitVec.ofBool b)

/-- `zext_25(RXB)`: the byte in `[7:0]`, parity in `[8]`, stop in `[9]` (R56, R85). -/
def zextRxb (rxb : BitVec 10) : BitVec 25 := BitVec.zeroExtend 25 rxb

/-- `{AVAILABLE, REP_Y, REP_X, REP_STATE}` (R56, R94). -/
def reportData (d : Decoder) : BitVec 25 :=
  BitVec.ofBool d.available ++ d.repY ++ d.repX ++ d.repState

end Sys2Proof.Machine
end

