-- ==== Sys2Proof/Machine/Primitives.lean ====
section
/-! DEFINITION. Machine/Primitives.lean: the names of the primitives that the commands' rules are written in
(00_scope.md rule R14). A command is a list of them, executed in order (R15); Machine/Ops.lean gives each its meaning. -/

namespace Sys2Proof.Machine

/-- Where the `DATA` field of an `OK` response comes from (30_encoding.md rule R56). -/
inductive RspData where
  /-- 0. -/
  | zero
  /-- `zext_25` of the level the Sense before took (R75). -/
  | sampled
  /-- `zext_25(RXB)` (R85). -/
  | received
  /-- `zext_25(AVAILABLE)` (R93). -/
  | available
  deriving DecidableEq, Repr

/-- One atomic primitive of a command (R14, R15). -/
inductive Prim where
  /-- `l_DIR <- d`. -/
  | writeDir (l : Line) (d : Dir)
  /-- `l_OUT <- v`. -/
  | writeOut (l : Line) (v : Bool)
  /-- `RST_OUT <- v`. -/
  | writeRst (v : Bool)
  /-- `TXB <- b`. -/
  | loadTxb (b : Byte)
  /-- `DATA_OUT <- TXB[i]`. -/
  | driveTxBit (i : Nat)
  /-- `DATA_OUT <- P(TXB)`. -/
  | driveTxParity
  /-- `RXB <- 0`. -/
  | clearRxb
  /-- `RXB[i] <- Sense(data)`. -/
  | sampleRxBit (i : Nat)
  /-- `s <- Sense(l)`. -/
  | senseLine (l : Line)
  /-- `WaitUntil(l, v)`. -/
  | waitUntil (l : Line) (v : Bool)
  /-- `Delay(us)`. -/
  | delay (us : Nat)
  /-- `Delay(T_SETTLE_US)`. -/
  | settle
  /-- `PushCore(b)` of a given bit. -/
  | pushBit (b : Bool)
  /-- `PushCore(s)` of the level the Sense before took. -/
  | pushSampled
  /-- `ACC <- 0`. -/
  | clearAcc
  /-- `BIT_IDX <- -1`. -/
  | rearmBitIdx
  /-- `FRAME_SLOT <- 0`. -/
  | clearSlot
  /-- `AVAILABLE <- 0`. -/
  | clearAvailable
  /-- `Respond(OK, d)`. -/
  | respond (d : RspData)
  /-- TAKE_REPORT's one indivisible step: read, clear and respond (20_memory.md rule R42). -/
  | takeReport
  /-- `Respond(LINE_TIMEOUT, 0)` (60_exceptions.md rule R103). -/
  | respondTimeout
  /-- `raise Illegal`, that is, `Respond(ILLEGAL, 0)` (60_exceptions.md rule R102). -/
  | respondIllegal
  deriving DecidableEq, Repr

end Sys2Proof.Machine
end

