-- ==== Sys2Proof/Machine/Ops.lean ====
section
/-! DEFINITION. Machine/Ops.lean: the named operations on the state: the wire, sensing, what each primitive does, how a
command runs through its primitives while the other agents move, refusing a word, and reset. -/

namespace Sys2Proof.Machine

/-! ## The lines (40_line_driver.md §1) -/

/-- `l_DIR`. -/
def Lines.dir (r : Lines) : Line → Dir
  | .clk => r.clkDir
  | .data => r.dataDir

/-- `l_OUT`. -/
def Lines.out (r : Lines) : Line → Bool
  | .clk => r.clkOut
  | .data => r.dataOut

/-- `l_DIR <- d`. -/
def Lines.setDir (r : Lines) (l : Line) (d : Dir) : Lines :=
  match l with
  | .clk => { r with clkDir := d }
  | .data => { r with dataDir := d }

/-- `l_OUT <- v`. -/
def Lines.setOut (r : Lines) (l : Line) (v : Bool) : Lines :=
  match l with
  | .clk => { r with clkOut := v }
  | .data => { r with dataOut := v }

/-- `DEV_l`, the device's side of a line (R64). -/
def Env.dev (e : Env) : Line → Bool
  | .clk => e.devClk
  | .data => e.devData

/-- The host drives the line low (R65). -/
def Lines.hostLow (r : Lines) (l : Line) : Bool := r.dir l = .output && !r.out l

/-- The host drives the line high (R65). -/
def Lines.hostHigh (r : Lines) (l : Line) : Bool := r.dir l = .output && r.out l

/-- Contention on a line: the host drives high while the device pulls low (R65, R125). -/
def State.contended (s : State) (l : Line) : Bool := s.lines.hostHigh l && !s.env.dev l

/-- `Wire(l)`: no value in the contention case (R65). -/
def State.wire (s : State) (l : Line) : Option Bool :=
  if s.contended l then none
  else if s.lines.hostLow l || !s.env.dev l then some false
  else some true

/-- Record a contention fault, never to be cleared (R125) [8]. -/
def State.noteContention (s : State) : State :=
  { s with record :=
      { s.record with
        contentionClk := s.record.contentionClk || s.contended .clk
        contentionData := s.record.contentionData || s.contended .data } }

/-- `Sense(l)`: the wire for an input line, a fresh free draw for an output line; no register changes (R67) [9]. -/
def State.sense (s : State) (l : Line) : Bool × State :=
  match s.lines.dir l, s.wire l with
  | .input, some v => (v, s)
  | _, _ =>
    (Config.senseDraw s.record.draws, { s with record := { s.record with draws := s.record.draws + 1 } })

/-! ## Moves of the agents outside the block -/

/-- The device takes these sides of the lines (R64). -/
def State.deviceMove (s : State) (clk data : Bool) : State :=
  { s with env := { s.env with devClk := clk, devData := data } }.noteContention

/-- The caller changes its offer on the command port (R17). -/
def State.setOffer (s : State) (offer : Option CmdWord) : State :=
  { s with port := { s.port with cmd := offer } }

/-- A cycle with `rst_i = 1`: every register takes its reset value, and no response is presented (R116, R117). The
parameters, the other agents and the record of contention are no registers of the block and stay [8]. -/
def State.resetCycle (s : State) : State :=
  { s with
    lines := Lines.reset s.params
    dec := Decoder.reset
    seq := Seq.reset
    port := { s.port with rsp := none } }

/-! ## Writes of single registers -/

def State.setDir (s : State) (l : Line) (d : Dir) : State := { s with lines := s.lines.setDir l d }

def State.setOut (s : State) (l : Line) (v : Bool) : State := { s with lines := s.lines.setOut l v }

def State.setRst (s : State) (v : Bool) : State := { s with lines := { s.lines with rstOut := v } }

def State.setDec (s : State) (d : Decoder) : State := { s with dec := d }

def State.setTxb (s : State) (b : Byte) : State := { s with seq := { s.seq with txb := b } }

def State.setRxb (s : State) (b : BitVec 10) : State := { s with seq := { s.seq with rxb := b } }

def State.setSampled (s : State) (b : Bool) : State :=
  { s with seq := { s.seq with cur := { s.seq.cur with sampled := b } } }

/-- `TIMER` counts the cycles of a host turn that did not complete its primitive (R27). -/
def State.tick (s : State) (cycles : Nat) : State :=
  { s with seq := { s.seq with timer := s.seq.timer + cycles } }

/-- The turns that are left. -/
def State.setSchedule (s : State) (ts : List Turn) : State := { s with env := { s.env with schedule := ts } }

/-! ## The sequencer (10_state.md rules R26 and R27) -/

/-- The position advances by one primitive, and the next primitive's time starts at 0 (R26, R69). -/
def State.advance (s : State) : State :=
  { s with seq := { s.seq with cur := { s.seq.cur with pos := s.seq.cur.pos + 1 }, timer := 0 } }

/-- `raise LineTimeout`: the command goes on with its timeout part (60_exceptions.md rule R103). -/
def State.abort (s : State) : State :=
  { s with seq := { s.seq with cur := { s.seq.cur with aborting := true, pos := 0 }, timer := 0 } }

/-- The block accepts a command: `BUSY = 1`, the position at the first primitive (R26, R129). -/
def State.accept (s : State) (i : Instr) : State :=
  { s with
    seq :=
      { s.seq with
        busy := true
        cur := { s.seq.cur with cmd := i, aborting := false, pos := 0 }
        timer := 0 }
    port := { s.port with rsp := none } }

/-- `Respond(st, d)`: the response is presented and the block returns to idle (R26, R54, R129). -/
def State.respond (s : State) (st : BitVec 4) (d : BitVec 25) : State :=
  { s with
    seq := { s.seq with busy := false }
    port := { s.port with rsp := some (rspWord st d) } }

/-- The `DATA` of an `OK` response (R56). -/
def State.rspData (s : State) : RspData → BitVec 25
  | .zero => 0
  | .sampled => zextBit s.seq.cur.sampled
  | .received => zextRxb s.seq.rxb
  | .available => zextBit s.dec.available

/-! ## What each primitive does (00_scope.md rule R14) -/

/-- How one turn of the block ends. -/
inductive PrimResult where
  /-- The primitive completed. -/
  | done (s : State)
  /-- The primitive, a wait or a delay, goes on. -/
  | hold (s : State)
  /-- The wait timed out: `raise LineTimeout`. -/
  | timeout (s : State)
  deriving DecidableEq, Repr

/-- The time of a turn: a number of cycles, or, for `none`, as many as the primitive needs [3]. -/
def State.elapsed (s : State) (turn : Option Nat) (need : Nat) : Bool :=
  match turn with
  | none => true
  | some cycles => need ≤ s.seq.timer + cycles

/-- A turn of `Delay(us)`: it completes once at least `us` microseconds have passed (R70). -/
def State.delayTurn (s : State) (turn : Option Nat) (us : Nat) : PrimResult :=
  if s.elapsed turn (cyclesOf s.params us) then .done s.advance else .hold (s.tick (turn.getD 0))

/-- A turn of `WaitUntil(l, v)`: one Sense, and, when the level is not there, the test of the timeout (R69). -/
def State.waitTurn (s : State) (turn : Option Nat) (l : Line) (v : Bool) : PrimResult :=
  let (level, s) := s.sense l
  if level = v then .done s.advance
  else
    match s.params.waitTimeoutUs with
    | none => .hold (s.tick (turn.getD 0))
    | some us =>
      if s.elapsed turn (cyclesOf s.params us) then .timeout s.abort else .hold (s.tick (turn.getD 0))

/-- One turn of the block: the primitive `p` runs, or polls, for the time of the turn. A changed pad reaches its port
before the next primitive, so contention is recorded here (R66, R125). -/
def State.primTurn (s : State) (p : Prim) (turn : Option Nat) : PrimResult :=
  match p with
  | .writeDir l d => .done (s.setDir l d).noteContention.advance
  | .writeOut l v => .done (s.setOut l v).noteContention.advance
  | .writeRst v => .done (s.setRst v).advance
  | .loadTxb b => .done (s.setTxb b).advance
  | .driveTxBit i => .done (s.setOut .data (s.seq.txb.getLsbD i)).noteContention.advance
  | .driveTxParity => .done (s.setOut .data (parity s.seq.txb)).noteContention.advance
  | .clearRxb => .done (s.setRxb 0).advance
  | .sampleRxBit i => let (b, s) := s.sense .data; .done (s.setRxb (setRxBit s.seq.rxb i b)).advance
  | .senseLine l => let (b, s) := s.sense l; .done (s.setSampled b).advance
  | .waitUntil l v => s.waitTurn turn l v
  | .delay us => s.delayTurn turn us
  | .settle => s.delayTurn turn s.params.tSettleUs
  | .pushBit b => .done (s.setDec (s.dec.push b)).advance
  | .pushSampled => .done (s.setDec (s.dec.push s.seq.cur.sampled)).advance
  | .clearAcc => .done (s.setDec { s.dec with acc := 0 }).advance
  | .rearmBitIdx => .done (s.setDec { s.dec with bitIdx := preStart }).advance
  | .clearSlot => .done (s.setDec { s.dec with frameSlot := 0 }).advance
  | .clearAvailable => .done (s.setDec s.dec.clearAvailable).advance
  | .respond d => .done (s.respond statusOk (s.rspData d)).advance
  | .takeReport => .done ((s.setDec s.dec.clearAvailable).respond statusOk (reportData s.dec)).advance
  | .respondTimeout => .done (s.respond statusLineTimeout 0).advance
  | .respondIllegal => .done (s.respond statusIllegal 0).advance

/-! ## Running a command -/

/-- The schedule is empty: the block runs through the primitives `ps` until the command ends or a wait holds it; a wait
that times out goes on as `onTimeout` says [3]. -/
def runQuiet (onTimeout : State → State) : List Prim → State → State
  | [], s => s
  | p :: ps, s =>
    match s.primTurn p none with
    | .done s' => runQuiet onTimeout ps s'
    | .hold s' => s'
    | .timeout s' => onTimeout s'

/-- The turns of the schedule are taken in order; a host turn runs the next of the primitives `ps`, or polls it. When
the command has ended, or a reset has cut it off, the turns that are left stay in the schedule (R15, R117, R131). -/
def runTurns (abortPs : List Prim) : List Turn → List Prim → State → State
  | [], ps, s => (runQuiet (runQuiet id abortPs) ps s).setSchedule []
  | t :: ts, [], s => s.setSchedule (t :: ts)
  | .device clk data :: ts, p :: ps, s => runTurns abortPs ts (p :: ps) (s.deviceMove clk data)
  | .caller offer :: ts, p :: ps, s => runTurns abortPs ts (p :: ps) (s.setOffer offer)
  | .reset :: ts, _ :: _, s => s.resetCycle.setSchedule ts
  | .host cycles :: ts, p :: ps, s =>
    match s.primTurn p (some cycles) with
    | .done s' => runTurns abortPs ts ps s'
    | .hold s' => runTurns abortPs ts (p :: ps) s'
    | .timeout s' => runTurns abortPs ts abortPs s'

/-- The primitives the running command has left, from its list and its timeout part (R26, R103). -/
def Cur.remaining (c : Cur) (ps abortPs : List Prim) : List Prim :=
  if c.aborting then abortPs.drop c.pos else ps.drop c.pos

/-- Run the command `i`, whose primitives are `ps` and whose timeout part is `abortPs`: an idle block accepts it, a
busy one goes on from its position. -/
def runCommand (i : Instr) (ps abortPs : List Prim) (s : State) : Host.Outcome State Fault Refusal :=
  let s := if s.seq.busy then s else s.accept i
  match s.seq.cur.remaining ps abortPs with
  | [] => .fault .noPrimitive
  | p :: rest => .next (runTurns abortPs s.env.schedule (p :: rest) s)

/-- All that an illegal word does (R102). -/
def illegalPrims : List Prim := [.respondIllegal]

/-- An illegal word, in the place of the command `i`: it is accepted like any word, `BUSY` is 1 until its response (R27,
R129), and a reset before the response cuts it off (R105, R117). DESIGN CHOICE [14]: `raise Illegal` takes one turn of the
block, the turn of its `Respond`, like NOP; the spec gives "at least one cycle" and no more (R129). -/
def runIllegal (i : Instr) (s : State) : Host.Outcome State Fault Refusal := runCommand i illegalPrims [] s

/-! ## The command port (70_reset_and_hazards.md rule R129) -/

/-- A new cycle begins: the response of the last one is gone, and the block keeps no copy (R129). -/
def State.newCycle (s : State) : State := { s with port := { s.port with rsp := none } }

/-- The offered word is taken off the port as the block accepts it. -/
def State.takeOffer (s : State) : State := { s with port := { s.port with cmd := none } }

/-- A turn while no command runs: a host turn has nothing to do. -/
def State.idleTurn (s : State) : Turn → State
  | .device clk data => s.deviceMove clk data
  | .host _ => s
  | .caller offer => s.setOffer offer
  | .reset => s.resetCycle

end Sys2Proof.Machine
end

