-- ==== Sys2Proof/Machine/LineDriver.lean ====
section
/-! DEFINITION. Machine/LineDriver.lean: NOP, SET_DIR, DRIVE, SENSE, WAIT, INHIBIT and DELAY (40_line_driver.md §3), and
the shared primitive `Inhibit()` (R71). -/

namespace Sys2Proof.Machine

/-- `Inhibit()`: the level before the direction (R71). -/
def inhibitPrims : List Prim := [.writeOut .clk false, .writeDir .clk .output]

/-- `Respond(OK, 0)`. -/
def respondZero : List Prim := [.respond .zero]

/-- NOP (R72). -/
def execNop (s : State) : Host.Outcome State Fault Refusal := runCommand .nop respondZero [] s

/-- SET_DIR's primitives for a PS/2 line (R73). -/
def setDirPrims (l : Line) (d : Dir) : List Prim := .writeDir l d :: respondZero

/-- SET_DIR: `ILLEGAL` for `rst` and for no line (R73). -/
def execSetDir (line : LineSel) (dir : Dir) (s : State) : Host.Outcome State Fault Refusal :=
  match lineOf line with
  | some l => runCommand (.setDir line dir) (setDirPrims l dir) [] s
  | none => runIllegal (.setDir line dir) s

/-- DRIVE's primitives: the latch of a PS/2 line, whatever its direction, or the reset pad (R74). -/
def drivePrims (line : LineSel) (level : Bool) : Option (List Prim) :=
  match line with
  | .clk => some (.writeOut .clk level :: respondZero)
  | .data => some (.writeOut .data level :: respondZero)
  | .rst => some (.writeRst level :: respondZero)
  | .reserved => none

/-- DRIVE: `ILLEGAL` for no line (R74). -/
def execDrive (line : LineSel) (level : Bool) (s : State) : Host.Outcome State Fault Refusal :=
  match drivePrims line level with
  | some ps => runCommand (.drive line level) ps [] s
  | none => runIllegal (.drive line level) s

/-- SENSE's primitives (R75). -/
def sensePrims (l : Line) : List Prim := [.senseLine l, .respond .sampled]

/-- SENSE: `ILLEGAL` for `rst` and for no line (R75). -/
def execSense (line : LineSel) (s : State) : Host.Outcome State Fault Refusal :=
  match lineOf line with
  | some l => runCommand (.sense line) (sensePrims l) [] s
  | none => runIllegal (.sense line) s

/-- WAIT's primitives (R76). -/
def waitPrims (l : Line) (v : Bool) : List Prim := .waitUntil l v :: respondZero

/-- WAIT's part on `raise LineTimeout` (60_exceptions.md rule R103). -/
def waitAbortPrims : List Prim := [.respondTimeout]

/-- WAIT: `ILLEGAL` for `rst` and for no line (R76). -/
def execWait (line : LineSel) (level : Bool) (s : State) : Host.Outcome State Fault Refusal :=
  match lineOf line with
  | some l => runCommand (.wait line level) (waitPrims l level) waitAbortPrims s
  | none => runIllegal (.wait line level) s

/-- INHIBIT (R77). -/
def execInhibit (s : State) : Host.Outcome State Fault Refusal :=
  runCommand .inhibit (inhibitPrims ++ respondZero) [] s

/-- DELAY's primitives: `Delay(zext_32(B))` (R78). -/
def delayPrims (us : Byte) : List Prim := .delay us.toNat :: respondZero

/-- DELAY (R78). -/
def execDelay (us : Byte) (s : State) : Host.Outcome State Fault Refusal :=
  runCommand (.delay us) (delayPrims us) [] s

end Sys2Proof.Machine
end

