-- ==== Sys2Proof/Machine/ByteTransceiver.lean ====
section
/-! DEFINITION. Machine/ByteTransceiver.lean: SEND_BYTE and RECEIVE_BYTE (41_byte_transceiver.md) and their part on a
timed-out wait (60_exceptions.md rule R103). -/

namespace Sys2Proof.Machine

/-- `HandshakeBit`: wait for clock low, settle, drive the bit, wait for clock high (R79). -/
def handshakePrims (drive : Prim) : List Prim :=
  [.waitUntil .clk false, .settle, drive, .waitUntil .clk true]

/-- Steps 1 to 3 of SEND_BYTE: inhibit, settle, start bit low, release the clock (R80). -/
def sendStartPrims (b : Byte) : List Prim :=
  .loadTxb b :: inhibitPrims ++
    [.settle, .writeOut .data false, .writeDir .data .output, .writeDir .clk .input]

/-- Steps 4 to 6 of SEND_BYTE: the data bits LSB first, the parity bit, the stop bit (R80). -/
def sendBitsPrims : List Prim :=
  handshakePrims (.driveTxBit 0) ++ handshakePrims (.driveTxBit 1) ++ handshakePrims (.driveTxBit 2) ++
    handshakePrims (.driveTxBit 3) ++ handshakePrims (.driveTxBit 4) ++ handshakePrims (.driveTxBit 5) ++
    handshakePrims (.driveTxBit 6) ++ handshakePrims (.driveTxBit 7) ++ handshakePrims .driveTxParity ++
    handshakePrims (.writeOut .data true)

/-- Step 7 of SEND_BYTE: release data, then the line-control acknowledgment (R80). -/
def sendAckPrims : List Prim :=
  [.writeDir .data .input, .waitUntil .data false, .waitUntil .clk false, .waitUntil .clk true, .waitUntil .data true]

/-- SEND_BYTE's primitives, step 8 included (R80). -/
def sendBytePrims (b : Byte) : List Prim :=
  sendStartPrims b ++ sendBitsPrims ++ sendAckPrims ++ inhibitPrims ++ respondZero

/-- The part of both commands on `raise LineTimeout`: inhibit the bus, then respond (R103). -/
def transceiverAbortPrims : List Prim := inhibitPrims ++ [.respondTimeout]

/-- SEND_BYTE (R80). -/
def execSendByte (b : Byte) (s : State) : Host.Outcome State Fault Refusal :=
  runCommand (.sendByte b) (sendBytePrims b) transceiverAbortPrims s

/-- One received bit: wait for clock low, settle, sample, wait for clock high (R85). -/
def receiveBitPrims (i : Nat) : List Prim :=
  [.waitUntil .clk false, .settle, .sampleRxBit i, .waitUntil .clk true]

/-- Both lines released, data first, and the start bit, which is not sampled (R85). -/
def receiveStartPrims : List Prim :=
  [.clearRxb, .writeDir .data .input, .writeDir .clk .input, .waitUntil .clk false, .waitUntil .clk true]

/-- The eight data bits, the parity bit and the stop bit (R85). -/
def receiveBitsPrims : List Prim :=
  receiveBitPrims 0 ++ receiveBitPrims 1 ++ receiveBitPrims 2 ++ receiveBitPrims 3 ++ receiveBitPrims 4 ++
    receiveBitPrims 5 ++ receiveBitPrims 6 ++ receiveBitPrims 7 ++ receiveBitPrims 8 ++ receiveBitPrims 9

/-- RECEIVE_BYTE's primitives (R85). -/
def receiveBytePrims : List Prim :=
  receiveStartPrims ++ receiveBitsPrims ++ inhibitPrims ++ [.respond .received]

/-- RECEIVE_BYTE (R85). -/
def execReceiveByte (s : State) : Host.Outcome State Fault Refusal :=
  runCommand .receiveByte receiveBytePrims transceiverAbortPrims s

end Sys2Proof.Machine
end

