-- ==== Sys2Proof/Machine/FrameDecoder.lean ====
section
/-! DEFINITION. Machine/FrameDecoder.lean: PUSH_BIT, SAMPLE_PUSH, IS_REPORT_READY, TAKE_REPORT and DECODER_CLEAR
(42_frame_decoder.md §2 to §4). -/

namespace Sys2Proof.Machine

/-- PUSH_BIT's primitives (R91). -/
def pushBitPrims (bit : Bool) : List Prim := .pushBit bit :: respondZero

/-- PUSH_BIT (R91). -/
def execPushBit (bit : Bool) (s : State) : Host.Outcome State Fault Refusal :=
  runCommand (.pushBit bit) (pushBitPrims bit) [] s

/-- SAMPLE_PUSH's primitives (R92). -/
def samplePushPrims : List Prim := .senseLine .data :: .pushSampled :: respondZero

/-- SAMPLE_PUSH (R92). -/
def execSamplePush (s : State) : Host.Outcome State Fault Refusal :=
  runCommand .samplePush samplePushPrims [] s

/-- IS_REPORT_READY (R93). -/
def execIsReportReady (s : State) : Host.Outcome State Fault Refusal :=
  runCommand .isReportReady [.respond .available] [] s

/-- TAKE_REPORT, one indivisible step (R42, R94). -/
def execTakeReport (s : State) : Host.Outcome State Fault Refusal :=
  runCommand .takeReport [.takeReport] [] s

/-- DECODER_CLEAR's primitives; the report bytes are kept (R95). -/
def decoderClearPrims : List Prim :=
  [.clearAcc, .rearmBitIdx, .clearSlot, .clearAvailable, .respond .zero]

/-- DECODER_CLEAR (R95). -/
def execDecoderClear (s : State) : Host.Outcome State Fault Refusal :=
  runCommand .decoderClear decoderClearPrims [] s

end Sys2Proof.Machine
end

