-- ==== Sys2Proof/Machine/Dispatch.lean ====
section
/-! DEFINITION. Machine/Dispatch.lean: from a command to its meaning (30_encoding.md rule R50). -/

namespace Sys2Proof.Machine

def exec (i : Instr) (s : State) : Host.Outcome State Fault Refusal :=
  match i with
  | .nop => Sys2Proof.Machine.execNop s
  | .setDir line dir => Sys2Proof.Machine.execSetDir line dir s
  | .drive line level => Sys2Proof.Machine.execDrive line level s
  | .sense line => Sys2Proof.Machine.execSense line s
  | .wait line level => Sys2Proof.Machine.execWait line level s
  | .inhibit => Sys2Proof.Machine.execInhibit s
  | .delay us => Sys2Proof.Machine.execDelay us s
  | .sendByte byte => Sys2Proof.Machine.execSendByte byte s
  | .receiveByte => Sys2Proof.Machine.execReceiveByte s
  | .pushBit bit => Sys2Proof.Machine.execPushBit bit s
  | .isReportReady => Sys2Proof.Machine.execIsReportReady s
  | .takeReport => Sys2Proof.Machine.execTakeReport s
  | .decoderClear => Sys2Proof.Machine.execDecoderClear s
  | .samplePush => Sys2Proof.Machine.execSamplePush s

end Sys2Proof.Machine
end

