-- ==== Sys2Proof/WellFormed.lean ====
section
/-! DEFINITION. WellFormed.lean: which commands have a legal word (30_encoding.md rules R49 and R52). -/

namespace Sys2Proof

/-- SET_DIR, SENSE and WAIT take a PS/2 line only (R49, R52). -/
def LineSel.isPs2Line : LineSel → Bool
  | .clk => true
  | .data => true
  | .rst => false
  | .reserved => false

/-- DRIVE takes a PS/2 line or the reset pad (R49, R52). -/
def LineSel.isDrivable : LineSel → Bool
  | .clk => true
  | .data => true
  | .rst => true
  | .reserved => false

/-- A command is well formed when its line select is one the command takes (R52). -/
def Instr.wellFormed : Instr → Bool
  | .nop => true
  | .setDir line _ => line.isPs2Line
  | .drive line _ => line.isDrivable
  | .sense line => line.isPs2Line
  | .wait line _ => line.isPs2Line
  | .inhibit => true
  | .delay _ => true
  | .sendByte _ => true
  | .receiveByte => true
  | .pushBit _ => true
  | .isReportReady => true
  | .takeReport => true
  | .decoderClear => true
  | .samplePush => true

end Sys2Proof
end

