-- ==== Sys2Proof/Decode.lean ====
section
/-! DEFINITION. Decode.lean: from a command word to a command, total on the 65,536 words, and back (30_encoding.md
rules R47 to R53 and R62). -/

namespace Sys2Proof

/-- Why a word is illegal (30_encoding.md rule R52). -/
inductive DecodeError where
  /-- `OP` is `0xE` or `0xF`. -/
  | reservedOpcode (op : BitVec 4)
  /-- The line select is one that the command `OP` does not take. -/
  | illegalLine (op : BitVec 4) (line : LineSel)
  deriving DecidableEq, Repr

/-- `OP[15:12]` (R47). -/
def opField (w : CmdWord) : BitVec 4 := w.extractLsb' 12 4

/-- `LN[11:10]` (R47). -/
def lnField (w : CmdWord) : BitVec 2 := w.extractLsb' 10 2

/-- `V[8]` (R47). -/
def vField (w : CmdWord) : Bool := w.getLsbD 8

/-- `B[7:0]` (R47). -/
def bField (w : CmdWord) : Byte := w.extractLsb' 0 8

/-- The line that a value of `LN` selects (R49). -/
def lineSelOf (ln : BitVec 2) : LineSel :=
  match ln.toNat with
  | 0 => .clk
  | 1 => .data
  | 2 => .rst
  | _ => .reserved

/-- `V = 1` means `OUT`, `V = 0` means `IN` (R48). -/
def dirOfV (v : Bool) : Dir := if v then .output else .input

/-- The command `i` of opcode `op` if its line select `line` is legal for it, and a rejection by name if not (R52). -/
def checkLine (op : BitVec 4) (line : LineSel) (i : Instr) : Except DecodeError Instr :=
  if i.wellFormed then .ok i else .error (.illegalLine op line)

/-- The command a word stands for: `OP` alone selects it (R50), the fields it does not use are ignored (R51), and the
words of R52 are rejected. -/
def decode (w : CmdWord) : Except DecodeError Instr :=
  let op := opField w
  let line := lineSelOf (lnField w)
  match op.toNat with
  | 0x0 => .ok .nop
  | 0x1 => checkLine op line (.setDir line (dirOfV (vField w)))
  | 0x2 => checkLine op line (.drive line (vField w))
  | 0x3 => checkLine op line (.sense line)
  | 0x4 => checkLine op line (.wait line (vField w))
  | 0x5 => .ok .inhibit
  | 0x6 => .ok (.delay (bField w))
  | 0x7 => .ok (.sendByte (bField w))
  | 0x8 => .ok .receiveByte
  | 0x9 => .ok (.pushBit (vField w))
  | 0xA => .ok .isReportReady
  | 0xB => .ok .takeReport
  | 0xC => .ok .decoderClear
  | 0xD => .ok .samplePush
  | _ => .error (.reservedOpcode op)

/-- The decoder's answer for a row of the opcode table: a command is one 16-bit word (R53), so the word's bits are the
table's bits, and a bit above `nbits` is 0. -/
def decodeTableWord (nbits w : Nat) : Option Instr :=
  if nbits ≤ 16 then
    match decode (BitVec.ofNat 16 (w % 2 ^ nbits)) with
    | .ok i => some i
    | .error _ => none
  else none

/-- A command word from its fields, `R` = 0 (R47, R62). -/
def packWord (op : BitVec 4) (ln : BitVec 2) (v : Bool) (b : Byte) : CmdWord :=
  op ++ ln ++ 0#1 ++ BitVec.ofBool v ++ b

/-- The value of `LN` that selects a line (R49). -/
def lnOf : LineSel → BitVec 2
  | .clk => 0
  | .data => 1
  | .rst => 2
  | .reserved => 3

/-- `IN` = 0, `OUT` = 1 (R18, R48). -/
def vOfDir : Dir → Bool
  | .input => false
  | .output => true

/-- The word the assembler writes for a command, with 0 in every ignored field (R62). -/
def encode : Instr → CmdWord
  | .nop => packWord 0x0 0 false 0
  | .setDir line dir => packWord 0x1 (lnOf line) (vOfDir dir) 0
  | .drive line level => packWord 0x2 (lnOf line) level 0
  | .sense line => packWord 0x3 (lnOf line) false 0
  | .wait line level => packWord 0x4 (lnOf line) level 0
  | .inhibit => packWord 0x5 0 false 0
  | .delay us => packWord 0x6 0 false us
  | .sendByte byte => packWord 0x7 0 false byte
  | .receiveByte => packWord 0x8 0 false 0
  | .pushBit bit => packWord 0x9 0 bit 0
  | .isReportReady => packWord 0xA 0 false 0
  | .takeReport => packWord 0xB 0 false 0
  | .decoderClear => packWord 0xC 0 false 0
  | .samplePush => packWord 0xD 0 false 0

/-! One written-out word per constructor: the rows of 30_encoding.md rule R62 and of 95_test_vectors.md L2.1. -/

theorem decode_nop : decode 0x0FFF = .ok .nop := by decide
theorem decode_setDir : decode 0x1500 = .ok (.setDir .data .output) := by decide
theorem decode_drive : decode 0x2900 = .ok (.drive .rst true) := by decide
theorem decode_sense : decode 0x3400 = .ok (.sense .data) := by decide
theorem decode_wait : decode 0x4100 = .ok (.wait .clk true) := by decide
theorem decode_inhibit : decode 0x5FFF = .ok .inhibit := by decide
theorem decode_delay : decode 0x6BFF = .ok (.delay 0xFF) := by decide
theorem decode_sendByte : decode 0x70F4 = .ok (.sendByte 0xF4) := by decide
theorem decode_receiveByte : decode 0x8F00 = .ok .receiveByte := by decide
theorem decode_pushBit : decode 0x93FF = .ok (.pushBit true) := by decide
theorem decode_isReportReady : decode 0xA000 = .ok .isReportReady := by decide
theorem decode_takeReport : decode 0xB000 = .ok .takeReport := by decide
theorem decode_decoderClear : decode 0xC000 = .ok .decoderClear := by decide
theorem decode_samplePush : decode 0xD000 = .ok .samplePush := by decide

end Sys2Proof
end

