-- ==== Sys2Proof/Machine/Fetch.lean ====
section
/-! DEFINITION. Machine/Fetch.lean: how a command word comes from the command port (the block fetches no instructions,
20_memory.md rule R45; a word is offered and accepted, 70_reset_and_hazards.md rule R129). Step.lean calls it. -/

namespace Sys2Proof.Machine

/-- What the block does in the cycle that begins now. -/
inductive Activity where
  /-- `rst_i = 1` in this cycle; the turns after it are left (R116). -/
  | resetting (rest : List Turn)
  /-- The command in `CUR` runs on. -/
  | running (i : Instr)
  /-- An idle block accepts the offered word: a command. -/
  | accepting (i : Instr)
  /-- An idle block accepts the offered word: illegal (R52). -/
  | refusing
  /-- Nothing runs and nothing is offered: the next turn of the schedule, then the rest. -/
  | idle (t : Turn) (rest : List Turn)
  /-- Nothing runs, nothing is offered, nothing happens. -/
  | quiet
  deriving DecidableEq, Repr

/-- What `CUR` names while an illegal word waits for its response: the word stands for no command, and NOP stands in its
place [6], [14]. -/
def noCommand : Instr := .nop

/-- An idle block with nothing offered waits for the next turn. -/
def idleActivity : List Turn → Activity
  | [] => .quiet
  | t :: ts => .idle t ts

/-- What the block does when `rst_i = 0`: `BUSY` lets it accept nothing (R27, R129). -/
def State.hostActivity (s : State) : Activity :=
  if s.seq.busy then .running s.seq.cur.cmd
  else
    match s.port.cmd with
    | none => idleActivity s.env.schedule
    | some w =>
      match decode w with
      | .ok i => .accepting i
      | .error _ => .refusing

/-- What the block does in the cycle that begins now: a reset overrides everything (R105). -/
def State.activity (s : State) : Activity :=
  match s.env.schedule with
  | .reset :: ts => .resetting ts
  | _ => s.hostActivity

/-- A turn that is a reset. -/
def Turn.isReset : Turn → Bool
  | .reset => true
  | .device _ _ => false
  | .host _ => false
  | .caller _ => false

/-- The caller offers the word `w` to an idle block that is not being reset, so that the next step accepts it [13]. -/
def State.offerWord (s : State) (w : CmdWord) : State :=
  { s with
    seq := { s.seq with busy := false }
    port := { s.port with cmd := some w }
    env := { s.env with schedule := s.env.schedule.dropWhile Turn.isReset } }

end Sys2Proof.Machine
end

