-- ==== Sys2Proof/Machine/Step.lean ====
section
/-! DEFINITION. Machine/Step.lean: one step of the machine. A step is one cycle of reset, one accepted command (run until
its response, or as far as the schedule lets it), the running on of a held command, or one turn while nothing runs. -/

namespace Sys2Proof.Machine

def step (s : State) : Host.Outcome State Fault Refusal :=
  match s.activity with
  | .resetting ts => .next (s.resetCycle.setSchedule ts)
  | .running i => exec i s.newCycle
  | .accepting i => exec i s.newCycle.takeOffer
  | .refusing => runIllegal noCommand s.newCycle.takeOffer
  | .idle t ts => .next ((s.newCycle.setSchedule ts).idleTurn t)
  | .quiet => .next s.newCycle

/-- `s` with the table's word offered on the command port, so that the next step accepts it and runs it [13]. -/
def State.withFetchWord (s : State) (nbits w : Nat) : State :=
  s.offerWord (BitVec.ofNat 16 (w % 2 ^ nbits))

end Sys2Proof.Machine
end

