-- ==== Sys2Proof/Machine/Assembler.lean ====
section
/-! DEFINITION. Machine/Assembler.lean: the pseudo-instructions and their expansions (30_encoding.md rule R63) and the
assembly text of a command (R62). The block sees only the words of an expansion. -/

namespace Sys2Proof.Machine

/-- The pseudo-instructions (R63). -/
inductive Pseudo where
  /-- `RELEASE <l>`. -/
  | release (line : LineSel)
  /-- `LISTEN`: both lines released for passive reception. -/
  | listen
  /-- `ASSERT_RST`. -/
  | assertRst
  /-- `DEASSERT_RST`. -/
  | deassertRst
  /-- `RX_BIT`: one decoder bit. -/
  | rxBit
  /-- `RX_REPORT`: 33 decoder bits. -/
  | rxReport
  /-- `SEND_CMD <v>`: send, then read the acknowledgment byte. -/
  | sendCmd (byte : Byte)
  /-- `DELAY_LONG <t>`: a delay of any number of microseconds. -/
  | delayLong (us : Nat)
  deriving DecidableEq, Repr

/-- `RX_BIT` = `WAIT clk, 0`; `SAMPLE_PUSH`; `WAIT clk, 1` (R63). -/
def rxBitExpansion : List Instr := [.wait .clk false, .samplePush, .wait .clk true]

/-- `floor(t/255)` copies of `DELAY 255`, then `DELAY t%255` if that is not 0 (R63). -/
def delayLongExpansion (us : Nat) : List Instr :=
  List.replicate (us / 255) (.delay 255) ++ if us % 255 = 0 then [] else [.delay (BitVec.ofNat 8 (us % 255))]

/-- The expansion of a pseudo-instruction (R63). -/
def expand (p : Params) : Pseudo → List Instr
  | .release line => [.setDir line .input]
  | .listen => [.setDir .data .input, .setDir .clk .input]
  | .assertRst => [.drive .rst p.resetAssertLevel]
  | .deassertRst => [.drive .rst (!p.resetAssertLevel)]
  | .rxBit => rxBitExpansion
  | .rxReport => (List.replicate 33 rxBitExpansion).flatten
  | .sendCmd byte => [.sendByte byte, .receiveByte]
  | .delayLong us => delayLongExpansion us

/-- The line operand `<l>` (R62); `LN` 11 has no assembly name and no legal word. -/
def lineText : LineSel → String
  | .clk => "clk"
  | .data => "data"
  | .rst => "rst"
  | .reserved => "none"

/-- A one-bit operand (R62). -/
def bitText (b : Bool) : String := if b then "1" else "0"

/-- The direction operand (R62). -/
def dirText : Dir → String
  | .input => "in"
  | .output => "out"

/-- The assembly text of a command (R62). -/
def asmText : Instr → String
  | .nop => "NOP"
  | .setDir line dir => "SET_DIR " ++ lineText line ++ ", " ++ dirText dir
  | .drive line level => "DRIVE " ++ lineText line ++ ", " ++ bitText level
  | .sense line => "SENSE " ++ lineText line
  | .wait line level => "WAIT " ++ lineText line ++ ", " ++ bitText level
  | .inhibit => "INHIBIT"
  | .delay us => "DELAY " ++ toString us.toNat
  | .sendByte byte => "SEND_BYTE " ++ toString byte.toNat
  | .receiveByte => "RECEIVE_BYTE"
  | .pushBit bit => "PUSH_BIT " ++ bitText bit
  | .isReportReady => "IS_REPORT_READY"
  | .takeReport => "TAKE_REPORT"
  | .decoderClear => "DECODER_CLEAR"
  | .samplePush => "SAMPLE_PUSH"

end Sys2Proof.Machine
end

