-- ==== Sys2Proof/Machine/Ports.lean ====
section
/-! DEFINITION. Machine/Ports.lean: what the outside sees of the state: the output ports (10_state.md rule R17) and the
bus phase (R29). None of it is stored. -/

namespace Sys2Proof.Machine

/-- `rst_i` in the cycle that begins now [1]. -/
def State.rstI (s : State) : Bool := s.env.schedule.head? = some .reset

/-- `cmd_ready_o = !BUSY & !rst_i` (R27). -/
def State.cmdReadyO (s : State) : Bool := !s.seq.busy && !s.rstI

/-- `rsp_valid_o` in the cycle that the last step ended with (R129) [12]. -/
def State.rspValidO (s : State) : Bool := s.port.rsp.isSome

/-- `rsp_word_o`, a value only while `rsp_valid_o = 1` (R129). -/
def State.rspWordO (s : State) : Option RspWord := s.port.rsp

/-- `report_ready_o`, the value of `AVAILABLE` (R17, R109). -/
def State.reportReadyO (s : State) : Bool := s.dec.available

/-- `ps2_l_oe_o`: the host drives line `l` (R17, R66). -/
def State.ps2OeO (s : State) (l : Line) : Bool := s.lines.dir l = .output

/-- `ps2_l_o`: the level driven on line `l` while `ps2_l_oe_o = 1` (R17, R66). -/
def State.ps2O (s : State) (l : Line) : Bool := s.lines.out l

/-- `ps2_l_i`: the level sensed on line `l`; no value under contention (R17, R65). -/
def State.ps2I (s : State) (l : Line) : Option Bool := s.wire l

/-- `ps2_rst_o` (R17, R66). -/
def State.ps2RstO (s : State) : Bool := s.lines.rstOut

/-- The phases of the bus (R29). -/
inductive Phase where
  | idle
  | hostTransmitting
  | deviceReceiving
  | passiveListening
  deriving DecidableEq, Repr

/-- SEND_BYTE is running. -/
def State.sending (s : State) : Bool :=
  s.seq.busy && (match s.seq.cur.cmd with | .sendByte _ => true | _ => false)

/-- RECEIVE_BYTE is running. -/
def State.receiving (s : State) : Bool := s.seq.busy && s.seq.cur.cmd = .receiveByte

/-- The bus phase, derived from the state and not stored (R29). -/
def State.phase (s : State) : Phase :=
  if s.sending then .hostTransmitting
  else if s.receiving then .deviceReceiving
  else if s.lines.clkDir = .input ∧ s.lines.dataDir = .input then .passiveListening
  else .idle

end Sys2Proof.Machine
end

