-- ==== Sys2Proof/Safety.lean ====
section
/-! DEFINITION. Safety.lean: the terms that statements about the machine are written in: an answered command, what the
device must do for a command to end (41_byte_transceiver.md rules R83 and R86), and the machine's invariants. -/

namespace Sys2Proof.Machine

/-! ## Answers -/

/-- The command ends: the outcome is a next state that is idle, presents the response `w`, and meets `P`. -/
def Answers (o : Host.Outcome State Fault Refusal) (w : RspWord) (P : State → Prop) : Prop :=
  ∃ t, o = .next t ∧ t.seq.busy = false ∧ t.port.rsp = some w ∧ P t

/-- The command goes on waiting: the outcome is a next state that is busy, presents no response, and meets `P`. -/
def Holds (o : Host.Outcome State Fault Refusal) (P : State → Prop) : Prop :=
  ∃ t, o = .next t ∧ t.seq.busy = true ∧ t.port.rsp = none ∧ P t

/-- No reset is scheduled: the command is not cut off (R117). -/
def State.noReset (s : State) : Prop := Turn.reset ∉ s.env.schedule

/-- Nothing outside the block is scheduled: the device and the caller keep still. -/
def State.still (s : State) : Prop := s.env.schedule = []

/-- No register that a command could write differs, the hidden bytes of the transceiver included; `BUSY`, `CUR` and
`TIMER` are the sequencer's own (R27). -/
def State.sameRegisters (s t : State) : Prop :=
  t.lines = s.lines ∧ t.dec = s.dec ∧ t.seq.txb = s.seq.txb ∧ t.seq.rxb = s.seq.rxb ∧ t.params = s.params

/-- The recorded contention fault of a line (R125). -/
def State.contentionOf (s : State) : Line → Bool
  | .clk => s.record.contentionClk
  | .data => s.record.contentionData

/-- The response `OK` with data `d`. -/
def okWord (d : BitVec 25) : RspWord := rspWord statusOk d

/-- The response `ILLEGAL` (R102). -/
def illegalWord : RspWord := rspWord statusIllegal 0

/-- The response `LINE_TIMEOUT` (R103). -/
def lineTimeoutWord : RspWord := rspWord statusLineTimeout 0

/-- Commands run one after the other, each from the state the one before it left. -/
def runAll : List Instr → State → Host.Outcome State Fault Refusal
  | [], s => .next s
  | i :: is, s =>
    match exec i s with
    | .next t => runAll is t
    | .fault r => .fault r
    | .refused r => .refused r

/-- Commands run one after the other, each answered before the next is accepted (20_memory.md rules R40 and R43). -/
def RunsTo : List Instr → State → State → Prop
  | [], s, t => t = s
  | i :: is, s, t => ∃ u, exec i s = .next u ∧ u.seq.busy = false ∧ u.port.rsp.isSome = true ∧ RunsTo is u t

/-- A push of the decoder: PUSH_BIT or SAMPLE_PUSH (42_frame_decoder.md rule R97). -/
def isPush : Instr → Bool
  | .pushBit _ => true
  | .samplePush => true
  | _ => false

/-- The commands that await a level of the device: WAIT, SEND_BYTE and RECEIVE_BYTE. -/
def awaitsLevel : Instr → Bool
  | .wait _ _ => true
  | .sendByte _ => true
  | .receiveByte => true
  | _ => false

/-- How many of the commands are pushes. -/
def pushCount (is : List Instr) : Nat := (is.filter isPush).length

/-- The commands after the last push, the last one first. -/
def sinceLastPush (is : List Instr) : List Instr := is.reverse.takeWhile (fun i => !isPush i)

/-! ## What the device must do -/

/-- One thing a running command needs of its next turns. -/
inductive Need where
  /-- A turn, whatever the lines are. -/
  | turn
  /-- Turns until one at which the device has line `l` at level `v`, before a finite timeout has run. -/
  | see (l : Line) (v : Bool)
  /-- Turns until at least `us` microseconds of them have passed. -/
  | pass (us : Nat)
  /-- A turn at which the device's level on line `l` is taken. -/
  | sample (l : Line)
  deriving DecidableEq, Repr

/-- What the schedule leaves once it has met the needs. -/
structure Served where
  devClk : Bool
  devData : Bool
  /-- The turns that are left. -/
  rest : List Turn
  /-- The levels taken, the first one first. -/
  samples : List Bool
  deriving DecidableEq, Repr

/-- The device's level on a line. -/
def levelOf (clk data : Bool) : Line → Bool
  | .clk => clk
  | .data => data

/-- The device keeps still: the needs are met, with these samples, unless one is a level that is not there. -/
def serveStill (clk data : Bool) : List Need → Option (List Bool)
  | [] => some []
  | .turn :: ns => serveStill clk data ns
  | .pass _ :: ns => serveStill clk data ns
  | .see l v :: ns => if levelOf clk data l = v then serveStill clk data ns else none
  | .sample l :: ns => (serveStill clk data ns).map (levelOf clk data l :: ·)

/-- A first sample is added. -/
def Served.withSample (b : Bool) (v : Served) : Served := { v with samples := b :: v.samples }

/-- A wait that has had `spent` cycles without its level has timed out (R69). -/
def timedOut (p : Params) (spent : Nat) : Bool :=
  match p.waitTimeoutUs with
  | none => false
  | some us => decide (cyclesOf p us ≤ spent)

/-- Whether the turns meet the needs in order, with no reset before the last is met and, with a finite
`WAIT_TIMEOUT_US`, every level seen before it has run: `clk` and `data` are the device's levels now, `spent` the cycles
the first need has had. The host's registers play no part: it is a condition on the
device alone, for a host that does not drive the lines it looks at. -/
def serve (p : Params) : List Turn → List Need → (clk data : Bool) → (spent : Nat) → Option Served
  | [], ns, clk, data, _ =>
    (serveStill clk data ns).map fun samples => { devClk := clk, devData := data, rest := [], samples := samples }
  | t :: ts, [], clk, data, _ => some { devClk := clk, devData := data, rest := t :: ts, samples := [] }
  | .device clk data :: ts, n :: ns, _, _, spent => serve p ts (n :: ns) clk data spent
  | .caller _ :: ts, n :: ns, clk, data, spent => serve p ts (n :: ns) clk data spent
  | .reset :: _, _ :: _, _, _, _ => none
  | .host _ :: ts, .turn :: ns, clk, data, _ => serve p ts ns clk data 0
  | .host cycles :: ts, .see l v :: ns, clk, data, spent =>
    if levelOf clk data l = v then serve p ts ns clk data 0
    else if timedOut p (spent + cycles) then none
    else serve p ts (.see l v :: ns) clk data (spent + cycles)
  | .host cycles :: ts, .pass us :: ns, clk, data, spent =>
    if cyclesOf p us ≤ spent + cycles then serve p ts ns clk data 0
    else serve p ts (.pass us :: ns) clk data (spent + cycles)
  | .host _ :: ts, .sample l :: ns, clk, data, _ =>
    (serve p ts ns clk data 0).map (Served.withSample (levelOf clk data l))

/-- The schedule of a state meets the needs. -/
def State.serves (s : State) (ns : List Need) : Option Served :=
  serve s.params s.env.schedule ns s.env.devClk s.env.devData 0

/-- One clock pulse of a handshake: a low level seen, the settle delay and one more turn in it, a high level seen (R83). -/
def pulseNeeds (p : Params) (inLow : Need) : List Need :=
  [.see .clk false, .pass p.tSettleUs, inLow, .see .clk true]

/-- Steps 1 to 3 of SEND_BYTE need only turns and the settle delay (R80). -/
def sendStartNeeds (p : Params) : List Need :=
  [.turn, .turn, .turn, .pass p.tSettleUs, .turn, .turn, .turn]

/-- The first `k` clock pulses of SEND_BYTE (R83). -/
def sendPulsesNeeds (p : Params) (k : Nat) : List Need := (List.replicate k (pulseNeeds p .turn)).flatten

/-- The line-control acknowledgment of SEND_BYTE, with the turn that releases the data line before it and the turns of
the inhibit and the response after it (R83). -/
def sendAckNeeds : List Need :=
  [.turn, .see .data false, .see .clk false, .see .clk true, .see .data true, .turn, .turn, .turn]

/-- What SEND_BYTE needs to end: ten clock pulses and the acknowledgment (R83). -/
def sendNeeds (p : Params) : List Need := sendStartNeeds p ++ sendPulsesNeeds p 10 ++ sendAckNeeds

/-- What RECEIVE_BYTE needs to end: the start pulse and ten pulses with a sample in each (R86). -/
def receiveNeeds (p : Params) : List Need :=
  [.turn, .turn, .turn, .see .clk false, .see .clk true] ++
    (List.replicate 10 (pulseNeeds p (.sample .data))).flatten ++ [.turn, .turn, .turn]

/-- What WAIT needs to end (R76). -/
def waitNeeds (l : Line) (v : Bool) : List Need := [.see l v, .turn]

/-- What SENSE needs to end: a sample and a turn for the response (R75). -/
def senseNeeds (l : Line) : List Need := [.sample l, .turn]

/-- What SAMPLE_PUSH needs to end: a sample, and turns for the push and the response (R92). -/
def samplePushNeeds : List Need := [.sample .data, .turn, .turn]

/-- What DELAY needs to end: its microseconds and a turn for the response (R78). -/
def delayNeeds (us : Byte) : List Need := [.pass us.toNat, .turn]

/-- The number with the bit `b` of position `i` in bit `i` (R85: the samples of RECEIVE_BYTE, first sample lowest). -/
def bitsToNat : List Bool → Nat
  | [] => 0
  | b :: bs => (if b then 1 else 0) + 2 * bitsToNat bs

/-- The cycles of the host turns in a schedule. -/
def hostCycles : List Turn → Nat
  | [] => 0
  | .host cycles :: ts => cycles + hostCycles ts
  | .device _ _ :: ts => hostCycles ts
  | .caller _ :: ts => hostCycles ts
  | .reset :: ts => hostCycles ts

/-! ## Invariants -/

/-- The decoder between pushes: `BIT_IDX` in -1..9, `FRAME_SLOT` not 3, `ACC` clear until the first data bit, and
`AVAILABLE` only at the start of a report (R22, R23, R90, R93). -/
def Decoder.inv (d : Decoder) : Prop :=
  -1 ≤ d.bitIdx.toInt ∧ d.bitIdx.toInt ≤ 9 ∧ d.frameSlot ≠ 3 ∧ (d.bitIdx.toInt ≤ 0 → d.acc = 0) ∧
    (d.available = true → d.bitIdx = preStart ∧ d.frameSlot = 0)

/-- The primitive list of a command; a command that is refused has the one of `raise Illegal`. -/
def primsOf : Instr → List Prim
  | .nop => respondZero
  | .setDir line dir => (lineOf line).elim illegalPrims (setDirPrims · dir)
  | .drive line level => (drivePrims line level).getD illegalPrims
  | .sense line => (lineOf line).elim illegalPrims sensePrims
  | .wait line level => (lineOf line).elim illegalPrims (waitPrims · level)
  | .inhibit => inhibitPrims ++ respondZero
  | .delay us => delayPrims us
  | .sendByte byte => sendBytePrims byte
  | .receiveByte => receiveBytePrims
  | .pushBit bit => pushBitPrims bit
  | .isReportReady => [.respond .available]
  | .takeReport => [.takeReport]
  | .decoderClear => decoderClearPrims
  | .samplePush => samplePushPrims

/-- The timeout part of a command; only the commands that wait have one (R103). -/
def abortPrimsOf : Instr → List Prim
  | .wait line _ => (lineOf line).elim [] (fun _ => waitAbortPrims)
  | .sendByte _ => transceiverAbortPrims
  | .receiveByte => transceiverAbortPrims
  | .nop => []
  | .setDir _ _ => []
  | .drive _ _ => []
  | .sense _ => []
  | .inhibit => []
  | .delay _ => []
  | .pushBit _ => []
  | .isReportReady => []
  | .takeReport => []
  | .decoderClear => []
  | .samplePush => []

/-- The primitives that the running command has left (R26). -/
def Cur.left (c : Cur) : List Prim := c.remaining (primsOf c.cmd) (abortPrimsOf c.cmd)

/-- The primitive is a wait for a level. -/
def isWaitUntil : Prim → Bool
  | .waitUntil _ _ => true
  | _ => false

/-- A command that runs on from one step to the next is held at one of its waits, and no response is presented while it
is held (R26, R54, R69). -/
def State.seqInv (s : State) : Prop :=
  s.seq.busy = true → s.port.rsp = none ∧ ∃ p ps, s.seq.cur.left = p :: ps ∧ isWaitUntil p = true

/-- Contention that is there has been recorded (R125). -/
def State.contentionInv (s : State) : Prop :=
  (s.contended .clk = true → s.record.contentionClk = true) ∧
    (s.contended .data = true → s.record.contentionData = true)

/-- The response, if one is presented, is one the block produces: a status of 0 to 2, bits 27 to 25 zero, and no data
unless the status is `OK` (R54, R55, R56). -/
def wellFormedRsp (w : RspWord) : Prop :=
  w.extractLsb' 25 3 = 0 ∧
    (w.extractLsb' 28 4 = statusOk ∨
      ((w.extractLsb' 28 4 = statusIllegal ∨ w.extractLsb' 28 4 = statusLineTimeout) ∧ w.extractLsb' 0 25 = 0))

/-- The invariant of the machine. -/
def State.inv (s : State) : Prop := s.dec.inv ∧ s.seqInv ∧ s.contentionInv

/-- The primitives sense the line `l` before they write its direction. -/
def sensesFirst (l : Line) : List Prim → Bool
  | [] => false
  | .writeDir l' _ :: ps => if l' = l then false else sensesFirst l ps
  | .waitUntil l' _ :: ps => if l' = l then true else sensesFirst l ps
  | .senseLine l' :: ps => if l' = l then true else sensesFirst l ps
  | .sampleRxBit _ :: ps => if l = .data then true else sensesFirst l ps
  | _ :: ps => sensesFirst l ps

/-- SEND_BYTE or RECEIVE_BYTE. -/
def isTransceiver : Instr → Bool
  | .sendByte _ => true
  | .receiveByte => true
  | _ => false

/-- The half-duplex rule of the two transceiver commands: a line they are about to sense is an input (R20). -/
def State.halfDuplex (s : State) : Prop :=
  s.seq.busy = true → isTransceiver s.seq.cur.cmd = true →
    ∀ l, sensesFirst l s.seq.cur.left = true → s.lines.dir l = .input

/-- The report bytes, which a statement may leave out (93_implementation_defined.md U3). -/
def Decoder.sameReport (d e : Decoder) : Prop := d.repState = e.repState ∧ d.repX = e.repX ∧ d.repY = e.repY

/-- The block's registers are those of reset (R32), all but the report bytes, on which no claim may rest (D24). -/
def State.resetValues (t : State) : Prop :=
  t.lines = Lines.reset t.params ∧ t.dec.acc = 0 ∧ t.dec.bitIdx = preStart ∧ t.dec.frameSlot = 0 ∧
    t.dec.available = false ∧ t.seq.busy = false ∧ t.port.rsp = none

/-! ## Words -/

/-- The words that 30_encoding.md rule R52 calls illegal. -/
def illegalWordBits (w : CmdWord) : Prop :=
  opField w = 0xE ∨ opField w = 0xF ∨
    ((opField w = 1 ∨ opField w = 3 ∨ opField w = 4) ∧ (lnField w = 2 ∨ lnField w = 3)) ∨
    (opField w = 2 ∧ lnField w = 3)

/-- The bits of a command word that its command uses, from the row of its `OP` in 30_encoding.md rule R50: `OP` always,
`LN` and `V` for SET_DIR, DRIVE and WAIT, `LN` for SENSE, `B` for DELAY and SEND_BYTE, `V` for PUSH_BIT. -/
def usedBits (op : BitVec 4) : CmdWord :=
  match op.toNat with
  | 1 | 2 | 4 => 0xFD00
  | 3 => 0xFC00
  | 6 | 7 => 0xF0FF
  | 9 => 0xF100
  | _ => 0xF000

end Sys2Proof.Machine
end

