-- ==== Sys2Proof/Certificates/Slice0/Obligations.lean ====
section
/-! DEFINITION. Certificates/Slice0/Obligations.lean: the statements about the machine, each a formalisation of numbered
rules of spec/, listed in OBLIGATIONS.json. -/

open Sys2Proof Sys2Proof.Machine

/-! ## The step, the command port and reset -/

/-- R129, R26: an idle block that is not being reset accepts the offered word and runs the command it stands for; the
word is off the port and the last response is gone. One step runs the whole command: the model's choice, log entry
12. -/
def Obligations.StepRunsTheOfferedCommand : Prop :=
  ∀ (s : State) (w : CmdWord) (i : Instr),
    s.seq.busy = false → s.env.schedule.head? ≠ some .reset → s.port.cmd = some w → decode w = .ok i →
      step s = exec i { s with port := { cmd := none, rsp := none } }

/-- R26, R27: while `BUSY = 1` a step runs on the command in `CUR`; an offer stays on the port. That a held command
takes a step of its own is the model's choice, log entries 3 and 12. -/
def Obligations.StepRunsOnTheHeldCommand : Prop :=
  ∀ s : State, s.seq.busy = true → s.env.schedule.head? ≠ some .reset →
    step s = exec s.seq.cur.cmd { s with port := { s.port with rsp := none } }

/-- R52, R102: the words that are refused are exactly those of R52, and refusing one, with no reset to come, gives the
response `0x10000000` and changes no register and no line, whatever the other agents do; if they do nothing, nothing else
changes. -/
def Obligations.IllegalWordsAreRefusedAndChangeNothing : Prop :=
  (∀ w : CmdWord, (∃ e, decode w = .error e) ↔ illegalWordBits w) ∧
    (∀ (s : State) (w : CmdWord),
      s.seq.busy = false → s.noReset → s.port.cmd = some w → illegalWordBits w →
        Answers (step s) 0x10000000 (fun t =>
          s.sameRegisters t ∧ (s.still → t.port.cmd = none ∧ t.env = s.env ∧ t.record = s.record)))

/-- R105, R116, R117, R118: a cycle of `rst_i` gives every register its reset value, presents no response, keeps an
offered word from being accepted, and leaves the bus in passive listening. The report bytes are left out (D24). -/
def Obligations.ResetCycleGivesTheResetValues : Prop :=
  ∀ (s : State) (ts : List Turn), s.env.schedule = .reset :: ts →
    s.cmdReadyO = false ∧
      ∃ t, step s = .next t ∧ t.resetValues ∧ t.params = s.params ∧ t.port.cmd = s.port.cmd ∧
        t.env.schedule = ts ∧ t.phase = .passiveListening ∧ (ts.head? ≠ some .reset → t.cmdReadyO = true)

/-- R117, R105: a reset that comes while a command runs cuts it off with no response and leaves the reset values;
otherwise the command has answered before the reset. So for every command, and for every word an idle block accepts, an
illegal word too. -/
def Obligations.ResetCutsARunningCommandOff : Prop :=
  (∀ (i : Instr) (s t : State) (before after : List Turn),
    s.seq.busy = false → s.env.schedule = before ++ .reset :: after → Turn.reset ∉ before → exec i s = .next t →
      (t.resetValues ∧ t.env.schedule = after) ∨
        (t.seq.busy = false ∧ t.port.rsp.isSome = true ∧ ∃ mid, t.env.schedule = mid ++ .reset :: after)) ∧
    (∀ (w : CmdWord) (s t : State) (before after : List Turn),
      s.seq.busy = false → s.port.cmd = some w → s.env.schedule = before ++ .reset :: after → before ≠ [] →
        Turn.reset ∉ before → step s = .next t →
          (t.resetValues ∧ t.env.schedule = after) ∨
            (t.seq.busy = false ∧ t.port.rsp.isSome = true ∧ ∃ mid, t.env.schedule = mid ++ .reset :: after))

/-- R129: a response is presented for one cycle only, and the block is ready again in the next. A cycle of the
response is a step: the model's choice, log entry 12. -/
def Obligations.ResponseLastsOneCycle : Prop :=
  (∀ s t : State, s.seq.busy = false → s.port.cmd = none → step s = .next t → t.port.rsp = none) ∧
    (∀ s t : State, step s = .next t → t.port.rsp.isSome = true → t.env.schedule.head? ≠ some .reset →
      t.cmdReadyO = true)

/-- R54, R55, R56: every response has a status of 0 to 2, zeros in bits 27 to 25, and no data unless it is `OK`. -/
def Obligations.EveryResponseIsWellFormed : Prop :=
  ∀ (s t : State) (w : RspWord), step s = .next t → t.port.rsp = some w → wellFormedRsp w

/-! ## Encodings -/

/-- R51: the fields a command does not use, and the bit `R`, have no effect on decoding. -/
def Obligations.DecodingIgnoresUnusedFields : Prop :=
  ∀ w v : CmdWord, w &&& usedBits (opField w) = v &&& usedBits (opField w) → decode w = decode v

/-- R47, R50, R62: every well-formed command, with every value of its operands, comes back from its word. -/
def Obligations.DecodeOfEncodeIsTheCommand : Prop :=
  ∀ i : Instr, i.wellFormed = true → decode (encode i) = .ok i ∧ decodeTableWord 16 (encode i).toNat = some i

/-- R51, R62: a decoded command is well formed, and its word is the decoded word with zeros in the ignored fields. -/
def Obligations.EncodeOfDecodedClearsIgnoredFields : Prop :=
  ∀ (w : CmdWord) (i : Instr), decode w = .ok i →
    i.wellFormed = true ∧ encode i = w &&& usedBits (opField w)

/-- R50, R62: words written out from the encoding decode to the commands they stand for. -/
def Obligations.WrittenWordsDecode : Prop :=
  decode 0x1200 = .ok (.setDir .clk .input) ∧ decode 0x1500 = .ok (.setDir .data .output) ∧
    decode 0x2900 = .ok (.drive .rst true) ∧ decode 0x4100 = .ok (.wait .clk true) ∧
    decode 0x6064 = .ok (.delay 100) ∧ decode 0x70F4 = .ok (.sendByte 0xF4) ∧
    decode 0x8F00 = .ok .receiveByte ∧ decode 0x90FF = .ok (.pushBit false) ∧
    decode 0xB000 = .ok .takeReport ∧ decode 0xD000 = .ok .samplePush

/-- R59: the byte and its parity bit hold an odd number of ones. -/
def Obligations.ParityMakesTheOnesOdd : Prop :=
  ∀ v : Byte,
    (((List.range 8).filter (fun i => v.getLsbD i)).length + (if parity v then 1 else 0)) % 2 = 1

/-- R63: `DELAY_LONG t` is DELAY commands only, of `t` microseconds in all. -/
def Obligations.DelayLongAddsUp : Prop :=
  ∀ (p : Params) (us : Nat), ∃ bs : List Byte,
    expand p (.delayLong us) = bs.map .delay ∧ (bs.map BitVec.toNat).sum = us

/-! ## Line Driver -/

/-- R72: NOP answers `0x00000000` and changes nothing; every word with `OP = 0x0` is NOP. -/
def Obligations.NopAnswersAndChangesNothing : Prop :=
  (∀ w : CmdWord, opField w = 0 → decode w = .ok .nop) ∧
    (∀ s : State, s.seq.busy = false → s.noReset →
      Answers (exec .nop s) 0x00000000 (fun t => s.sameRegisters t))

/-- R73: SET_DIR writes the direction of its line and nothing else; an output line drives its latch at once, a released
line reads the device; driving high against the device is recorded; `rst` and no line are `ILLEGAL`. -/
def Obligations.SetDirWritesTheDirection : Prop :=
  (∀ (s : State) (line : LineSel) (l : Line) (d : Dir),
    s.seq.busy = false → s.noReset → lineOf line = some l →
      Answers (exec (.setDir line d) s) 0x00000000 (fun t =>
        t.lines.dir l = d ∧ (∀ k, k ≠ l → t.lines.dir k = s.lines.dir k) ∧ t.lines.out = s.lines.out ∧
          t.lines.rstOut = s.lines.rstOut ∧ t.dec = s.dec ∧
          (d = .output → t.ps2OeO l = true ∧ t.ps2O l = s.lines.out l) ∧
          (d = .input → t.wire l = some (t.env.dev l)) ∧
          (d = .output → s.lines.out l = true → t.env.dev l = false → t.contentionOf l = true))) ∧
    (∀ (s : State) (line : LineSel) (d : Dir), s.seq.busy = false → s.noReset → lineOf line = none →
      Answers (exec (.setDir line d) s) 0x10000000 (fun t => s.sameRegisters t))

/-- R74: DRIVE writes the latch of its line, whatever the direction, or the reset pad, and nothing else; on an input
line the pad stays undriven; no line is `ILLEGAL`. -/
def Obligations.DriveWritesTheLatch : Prop :=
  (∀ (s : State) (line : LineSel) (l : Line) (v : Bool),
    s.seq.busy = false → s.noReset → lineOf line = some l →
      Answers (exec (.drive line v) s) 0x00000000 (fun t =>
        t.lines.out l = v ∧ (∀ k, k ≠ l → t.lines.out k = s.lines.out k) ∧ t.lines.dir = s.lines.dir ∧
          t.lines.rstOut = s.lines.rstOut ∧ t.dec = s.dec ∧
          (s.lines.dir l = .input → t.wire l = some (t.env.dev l)) ∧
          (s.lines.dir l = .output → v = true → t.env.dev l = false → t.contentionOf l = true))) ∧
    (∀ (s : State) (v : Bool), s.seq.busy = false → s.noReset →
      Answers (exec (.drive .rst v) s) 0x00000000 (fun t =>
        t.lines = { s.lines with rstOut := v } ∧ t.dec = s.dec)) ∧
    (∀ (s : State) (v : Bool), s.seq.busy = false → s.noReset →
      Answers (exec (.drive .reserved v) s) 0x10000000 (fun t => s.sameRegisters t))

/-- R75, R67, R68: SENSE of an input line answers the level at its sample; it changes no register; `rst` and no line are
`ILLEGAL`. -/
def Obligations.SenseAnswersTheLevelOfAnInputLine : Prop :=
  (∀ (s : State) (line : LineSel) (l : Line) (v : Served) (b : Bool),
    s.seq.busy = false → lineOf line = some l → s.lines.dir l = .input →
      s.serves (senseNeeds l) = some v → v.samples = [b] →
        Answers (exec (.sense line) s) (okWord (zextBit b)) (fun t =>
          s.sameRegisters t ∧ t.env.schedule = v.rest)) ∧
    (∀ (s : State) (line : LineSel), s.seq.busy = false → s.noReset → lineOf line = none →
      Answers (exec (.sense line) s) 0x10000000 (fun t => s.sameRegisters t))

/-- R67: SENSE of an output line answers a fresh draw, whatever it is, and changes no register. The draw is the free
value of log entry 9. -/
def Obligations.SenseOfAnOutputLineIsADraw : Prop :=
  ∀ (s : State) (line : LineSel) (l : Line),
    s.seq.busy = false → s.noReset → lineOf line = some l → s.lines.dir l = .output →
      Answers (exec (.sense line) s) (okWord (zextBit (Config.senseDraw s.record.draws))) (fun t =>
        s.sameRegisters t ∧ t.record.draws = s.record.draws + 1)

/-- R76, R69, R10: WAIT on an input line ends `OK` once the level is seen, at once if it is there, and with a finite
timeout if it is seen before that has run; it changes no register; `rst` and no line are `ILLEGAL`. -/
def Obligations.WaitEndsWhenTheLevelIsSeen : Prop :=
  (∀ (s : State) (line : LineSel) (l : Line) (level : Bool) (v : Served),
    s.seq.busy = false → lineOf line = some l → s.lines.dir l = .input →
      s.serves (waitNeeds l level) = some v →
        Answers (exec (.wait line level) s) 0x00000000 (fun t =>
          s.sameRegisters t ∧ t.env.schedule = v.rest)) ∧
    (∀ (s : State) (line : LineSel) (l : Line) (level : Bool),
      s.seq.busy = false → s.still → lineOf line = some l → s.lines.dir l = .input → s.env.dev l = level →
        Answers (exec (.wait line level) s) 0x00000000 (fun t => s.sameRegisters t)) ∧
    (∀ (s : State) (line : LineSel) (level : Bool), s.seq.busy = false → s.noReset → lineOf line = none →
      Answers (exec (.wait line level) s) 0x10000000 (fun t => s.sameRegisters t))

/-- R69, R126: with the default timeout a WAIT whose level is never seen holds: no response, not ready, no register
changed. That it holds when the schedule is at its end is the model's choice, log entry 3. -/
def Obligations.WaitHoldsWhileTheLevelIsNotSeen : Prop :=
  ∀ (s : State) (line : LineSel) (l : Line) (level : Bool),
    s.seq.busy = false → s.noReset → lineOf line = some l → s.lines.dir l = .input →
      s.params.waitTimeoutUs = none → s.serves [.see l level] = none →
        Holds (exec (.wait line level) s) (fun t => s.sameRegisters t ∧ t.cmdReadyO = false)

/-- R103: a WAIT whose level is not seen before a finite timeout has run answers `LINE_TIMEOUT` and changes no register. When
the timeout fires is the model's choice, log entries 2 and 3. -/
def Obligations.WaitTimesOut : Prop :=
  ∀ (s : State) (line : LineSel) (l : Line) (level : Bool) (us : Nat),
    s.seq.busy = false → s.noReset → lineOf line = some l → s.lines.dir l = .input →
      s.params.waitTimeoutUs = some us → s.serves [.see l level] = none →
        Answers (exec (.wait line level) s) 0x20000000 (fun t => s.sameRegisters t)

/-- R76, R67: WAIT on an output line acts on a fresh draw: it ends if the draw is its level, and else it holds, or
times out with a finite timeout; it changes no register. The draw is the free value of log entry 9; that the block
polls once when nothing is scheduled is the model's choice, log entry 3. -/
def Obligations.WaitOnAnOutputLineActsOnADraw : Prop :=
  ∀ (s : State) (line : LineSel) (l : Line) (level : Bool),
    s.seq.busy = false → s.still → lineOf line = some l → s.lines.dir l = .output →
      (Config.senseDraw s.record.draws = level →
        Answers (exec (.wait line level) s) 0x00000000 (fun t =>
          s.sameRegisters t ∧ t.record.draws = s.record.draws + 1)) ∧
      (Config.senseDraw s.record.draws ≠ level → s.params.waitTimeoutUs = none →
        Holds (exec (.wait line level) s) (fun t =>
          s.sameRegisters t ∧ t.record.draws = s.record.draws + 1)) ∧
      (Config.senseDraw s.record.draws ≠ level → s.params.waitTimeoutUs ≠ none →
        Answers (exec (.wait line level) s) 0x20000000 (fun t =>
          s.sameRegisters t ∧ t.record.draws = s.record.draws + 1))

/-- R77, R71: INHIBIT drives the clock low and turns it to output, touches nothing else, and meets no contention on a
released clock line even if the device pulls it low. -/
def Obligations.InhibitDrivesTheClockLow : Prop :=
  ∀ s : State, s.seq.busy = false → s.noReset →
    Answers (exec .inhibit s) 0x00000000 (fun t =>
      t.lines = { s.lines with clkDir := .output, clkOut := false } ∧ t.dec = s.dec ∧ t.wire .clk = some false ∧
        (s.lines.clkDir = .input → t.record.contentionClk = s.record.contentionClk))

/-- R78, R70: DELAY answers `OK` and changes no register. -/
def Obligations.DelayAnswersAndChangesNothing : Prop :=
  ∀ (s : State) (us : Byte), s.seq.busy = false → s.noReset →
    Answers (exec (.delay us) s) 0x00000000 (fun t => s.sameRegisters t)

/-- R7, R70, R78: a DELAY that ends within the schedule has let at least its microseconds pass, in cycles of `clk_i`.
Time as the cycles of host turns is the model's choice, log entry 2. -/
def Obligations.DelayIsALowerBound : Prop :=
  ∀ (s t : State) (us : Byte) (taken rest : List Turn),
    s.seq.busy = false → s.noReset → s.env.schedule = taken ++ rest → rest ≠ [] →
      exec (.delay us) s = .next t → t.env.schedule = rest →
        us.toNat * s.params.fClkHz ≤ hostCycles taken * 1000000

/-! ## Byte Transceiver -/

/-- R80, R83, R84, R10, R69: SEND_BYTE ends `OK`, for every byte and every timeout, whenever the device gives what it
needs, with a finite timeout each level before that has run, and leaves the bus inhibited and the data line released
with its latch at 1; the decoder and the reset pad are untouched. -/
def Obligations.SendByteEndsWithTheBusInhibited : Prop :=
  ∀ (s : State) (b : Byte) (v : Served),
    s.seq.busy = false → s.serves (sendNeeds s.params) = some v →
      Answers (exec (.sendByte b) s) 0x00000000 (fun t =>
        t.lines = { clkDir := .output, clkOut := false, dataDir := .input, dataOut := true,
                    rstOut := s.lines.rstOut } ∧
          t.dec = s.dec ∧ t.env.schedule = v.rest)

/-- R82: the data line is driven to the bits of the frame, one after the other: bit `k` from the drive in clock pulse
`k` until the next handshake changes it, bit 0 from the start; after the tenth handshake the line is released. What
the line carries is read where the command holds, log entries 3 and 12. -/
def Obligations.SendByteDrivesTheFrame : Prop :=
  (∀ (s : State) (b : Byte) (k : Nat) (v : Served),
    k ≤ 9 → s.seq.busy = false → s.params.waitTimeoutUs = none →
      s.serves (sendStartNeeds s.params ++ sendPulsesNeeds s.params k) = some v → v.rest = [] → v.devClk = true →
        Holds (exec (.sendByte b) s) (fun t =>
          t.lines.dataDir = .output ∧ t.lines.dataOut = (frameOf b).getLsbD k ∧ t.lines.clkDir = .input ∧
            t.phase = .hostTransmitting)) ∧
    (∀ (s : State) (b : Byte) (k : Nat) (v : Served),
      k ≤ 9 → s.seq.busy = false → s.params.waitTimeoutUs = none →
        s.serves (sendStartNeeds s.params ++ sendPulsesNeeds s.params k ++
          [.see .clk false, .pass s.params.tSettleUs, .turn]) = some v → v.rest = [] → v.devClk = false →
          Holds (exec (.sendByte b) s) (fun t =>
            t.lines.dataDir = .output ∧ t.lines.dataOut = (frameOf b).getLsbD (k + 1) ∧ t.lines.clkDir = .input ∧
              t.phase = .hostTransmitting)) ∧
    (∀ (s : State) (b : Byte) (v : Served),
      s.seq.busy = false → s.params.waitTimeoutUs = none →
        s.serves (sendStartNeeds s.params ++ sendPulsesNeeds s.params 10) = some v → v.rest = [] → v.devData = true →
          Holds (exec (.sendByte b) s) (fun t => t.lines.dataDir = .input))

/-- R85, R86, R87: RECEIVE_BYTE answers the ten sampled levels, first sample lowest, so the byte in bits 7 to 0, parity in
8 and stop in 9, whatever they are, and leaves the bus inhibited, the data line released and its latch as it was; so with
every timeout, with a finite one when each level is seen before that has run (R10, R69). -/
def Obligations.ReceiveByteAnswersTheSampledBits : Prop :=
  ∀ (s : State) (v : Served),
    s.seq.busy = false → s.serves (receiveNeeds s.params) = some v →
      v.samples.length = 10 ∧
        Answers (exec .receiveByte s) (okWord (BitVec.ofNat 25 (bitsToNat v.samples))) (fun t =>
          t.lines = { clkDir := .output, clkOut := false, dataDir := .input, dataOut := s.lines.dataOut,
                      rstOut := s.lines.rstOut } ∧
            t.dec = s.dec ∧ t.env.schedule = v.rest)

/-- R84, R87: a SEND_BYTE or RECEIVE_BYTE that answers `OK`, on any schedule and with any timeout, leaves the bus
inhibited and the data line released; the data latch is 1 after SEND_BYTE and as it was after RECEIVE_BYTE. -/
def Obligations.OkTransceiverLeavesTheBusInhibited : Prop :=
  (∀ (s t : State) (b : Byte) (w : RspWord), s.seq.busy = false → exec (.sendByte b) s = .next t →
    t.port.rsp = some w → w.extractLsb' 28 4 = statusOk →
      t.lines = { clkDir := .output, clkOut := false, dataDir := .input, dataOut := true, rstOut := s.lines.rstOut }) ∧
    (∀ (s t : State) (w : RspWord), s.seq.busy = false → exec .receiveByte s = .next t →
      t.port.rsp = some w → w.extractLsb' 28 4 = statusOk →
        t.lines = { clkDir := .output, clkOut := false, dataDir := .input, dataOut := s.lines.dataOut,
                    rstOut := s.lines.rstOut })

/-- R88, R126: with the default timeout SEND_BYTE and RECEIVE_BYTE hold, with no response, while the device does not
give what they need; the decoder is untouched. That it holds when the schedule is at its end is the model's choice,
log entry 3. -/
def Obligations.TransceiverHoldsUntilServed : Prop :=
  (∀ (s : State) (b : Byte), s.seq.busy = false → s.noReset → s.params.waitTimeoutUs = none →
    s.serves (sendNeeds s.params) = none →
      Holds (exec (.sendByte b) s) (fun t => t.dec = s.dec ∧ t.phase = .hostTransmitting ∧ t.cmdReadyO = false)) ∧
    (∀ s : State, s.seq.busy = false → s.noReset → s.params.waitTimeoutUs = none →
      s.serves (receiveNeeds s.params) = none →
        Holds (exec .receiveByte s) (fun t => t.dec = s.dec ∧ t.phase = .deviceReceiving ∧ t.cmdReadyO = false))

/-- R103: with a finite timeout SEND_BYTE and RECEIVE_BYTE that the device does not serve inhibit the bus and answer
`LINE_TIMEOUT`; the decoder is untouched; a SEND_BYTE whose device never moves keeps its start bit on the data line.
When the timeout fires is the model's choice, log entries 2 and 3. -/
def Obligations.TransceiverTimesOut : Prop :=
  (∀ (s : State) (b : Byte) (us : Nat), s.seq.busy = false → s.noReset → s.params.waitTimeoutUs = some us →
    s.serves (sendNeeds s.params) = none →
      Answers (exec (.sendByte b) s) 0x20000000 (fun t =>
        t.lines.clkDir = .output ∧ t.lines.clkOut = false ∧ t.dec = s.dec ∧
          (s.still → s.env.devClk = true → t.lines.dataDir = .output ∧ t.lines.dataOut = false))) ∧
    (∀ (s : State) (us : Nat), s.seq.busy = false → s.noReset → s.params.waitTimeoutUs = some us →
      s.serves (receiveNeeds s.params) = none →
        Answers (exec .receiveByte s) 0x20000000 (fun t =>
          t.lines.clkDir = .output ∧ t.lines.clkOut = false ∧ t.lines.dataDir = .input ∧
            t.lines.dataOut = s.lines.dataOut ∧ t.dec = s.dec))

/-- R103, R82: a SEND_BYTE that times out keeps the data line as it was at the timeout: awaiting clock low after `k` clock
pulses, driven to bit `k` of the frame; awaiting clock high in the pulse after, driven to bit `k + 1`; in the
acknowledgment, released with its latch at 1. When the timeout fires is the model's choice, log entries 2 and 3. -/
def Obligations.TimedOutSendByteKeepsTheDataLine : Prop :=
  ∀ (s : State) (b : Byte) (us : Nat), s.seq.busy = false → s.noReset → s.params.waitTimeoutUs = some us →
    (∀ k, k ≤ 9 → s.serves (sendStartNeeds s.params ++ sendPulsesNeeds s.params k) ≠ none →
      s.serves (sendStartNeeds s.params ++ sendPulsesNeeds s.params k ++ [.see .clk false]) = none →
        Answers (exec (.sendByte b) s) 0x20000000 (fun t =>
          t.lines = { clkDir := .output, clkOut := false, dataDir := .output, dataOut := (frameOf b).getLsbD k,
                      rstOut := s.lines.rstOut } ∧ t.dec = s.dec)) ∧
      (∀ k, k ≤ 9 → s.serves (sendStartNeeds s.params ++ sendPulsesNeeds s.params k ++ [.see .clk false]) ≠ none →
        s.serves (sendStartNeeds s.params ++ sendPulsesNeeds s.params (k + 1)) = none →
          Answers (exec (.sendByte b) s) 0x20000000 (fun t =>
            t.lines = { clkDir := .output, clkOut := false, dataDir := .output,
                        dataOut := (frameOf b).getLsbD (k + 1), rstOut := s.lines.rstOut } ∧ t.dec = s.dec)) ∧
      (s.serves (sendStartNeeds s.params ++ sendPulsesNeeds s.params 10) ≠ none →
        s.serves (sendNeeds s.params) = none →
          Answers (exec (.sendByte b) s) 0x20000000 (fun t =>
            t.lines = { clkDir := .output, clkOut := false, dataDir := .input, dataOut := true,
                        rstOut := s.lines.rstOut } ∧ t.dec = s.dec))

/-! ## Frame Decoder -/

/-- R90, R91: PUSH_BIT clears `AVAILABLE`, advances `BIT_IDX` and acts at the new position: nothing at 0 and 9, a shift
into `ACC` at 1 to 8, the commit and the re-arm at 10, the re-arm alone anywhere else. -/
def Obligations.PushBitAdvancesTheDecoder : Prop :=
  ∀ (s : State) (b : Bool), s.seq.busy = false → s.noReset → (s.dec.bitIdx.toInt = 9 → s.dec.frameSlot ≠ 3) →
    Answers (exec (.pushBit b) s) 0x00000000 (fun t =>
      t.lines = s.lines ∧
        t.dec =
          if s.dec.bitIdx.toInt = -1 ∨ s.dec.bitIdx.toInt = 8 then
            { s.dec with available := false, bitIdx := s.dec.bitIdx + 1 }
          else if 0 ≤ s.dec.bitIdx.toInt ∧ s.dec.bitIdx.toInt ≤ 7 then
            { s.dec with
              available := false, bitIdx := s.dec.bitIdx + 1,
              acc := BitVec.ofBool b ++ s.dec.acc.extractLsb' 1 7 }
          else if s.dec.bitIdx.toInt = 9 then
            { acc := 0, bitIdx := -1,
              frameSlot := if s.dec.frameSlot = 0 then 1 else if s.dec.frameSlot = 1 then 2 else 0,
              repState := if s.dec.frameSlot = 0 then s.dec.acc else s.dec.repState,
              repX := if s.dec.frameSlot = 1 then s.dec.acc else s.dec.repX,
              repY := if s.dec.frameSlot = 2 then s.dec.acc else s.dec.repY,
              available := decide (s.dec.frameSlot = 2) }
          else { s.dec with available := false, acc := 0, bitIdx := -1 })

/-- R90: a stop bit in the unreachable slot 3 writes no report byte and leaves `AVAILABLE` 0; the decoder is re-armed. The
slot after it is left out (log entry 11). -/
def Obligations.StopBitInSlotThreeWritesNoReport : Prop :=
  ∀ (s : State) (b : Bool), s.seq.busy = false → s.noReset → s.dec.bitIdx = 9 → s.dec.frameSlot = 3 →
    Answers (exec (.pushBit b) s) 0x00000000 (fun t =>
      t.lines = s.lines ∧ t.dec.sameReport s.dec ∧ t.dec.available = false ∧ t.dec.acc = 0 ∧ t.dec.bitIdx = -1)

/-- R92: SAMPLE_PUSH acts as PUSH_BIT of the level of the data line at its sample; it touches no line. -/
def Obligations.SamplePushPushesTheSampledLevel : Prop :=
  ∀ (s : State) (v : Served) (b : Bool),
    s.seq.busy = false → s.lines.dataDir = .input → s.serves samplePushNeeds = some v → v.samples = [b] →
      Answers (exec .samplePush s) 0x00000000 (fun t =>
        t.lines = s.lines ∧ t.env.schedule = v.rest ∧
          ∀ u, exec (.pushBit b) (s.setSchedule []) = .next u → t.dec = u.dec)

/-- R92, R67: on a data line that is an output, SAMPLE_PUSH pushes a fresh draw, whatever it is. The draw is the free
value of log entry 9. -/
def Obligations.SamplePushOfAnOutputLinePushesADraw : Prop :=
  ∀ s : State, s.seq.busy = false → s.noReset → s.lines.dataDir = .output →
    Answers (exec .samplePush s) 0x00000000 (fun t =>
      t.lines = s.lines ∧ t.record.draws = s.record.draws + 1 ∧
        ∀ u, exec (.pushBit (Config.senseDraw s.record.draws)) (s.setSchedule []) = .next u → t.dec = u.dec)

/-- R93: IS_REPORT_READY answers `AVAILABLE` and does not clear it. -/
def Obligations.IsReportReadyAnswersTheFlag : Prop :=
  ∀ s : State, s.seq.busy = false → s.noReset →
    Answers (exec .isReportReady s) (if s.dec.available then 0x00000001 else 0x00000000) (fun t =>
      s.sameRegisters t)

/-- R94, R42: TAKE_REPORT answers the flag in bit 24 and, when a report is available, `y`, `x` and `state` below it, and
clears the flag, all in one turn; nothing else changes. The bytes of a stale report are left out (U3). -/
def Obligations.TakeReportReadsAndClears : Prop :=
  ∀ s : State, s.seq.busy = false → s.noReset →
    ∃ w : RspWord,
      Answers (exec .takeReport s) w (fun t =>
        t.dec = { s.dec with available := false } ∧ t.lines = s.lines ∧
          ∀ c ts, s.env.schedule = .host c :: ts → t.env.schedule = ts) ∧
        w.extractLsb' 25 7 = 0 ∧ w.getLsbD 24 = s.dec.available ∧
        (s.dec.available = true → w = 0x01#8 ++ s.dec.repY ++ s.dec.repX ++ s.dec.repState)

/-- R41, R94: a second TAKE_REPORT with no push between answers with bit 24 zero and changes nothing more. -/
def Obligations.SecondTakeReportIsNotAvailable : Prop :=
  ∀ s : State, s.seq.busy = false → s.noReset →
    ∃ t, exec .takeReport s = .next t ∧ t.dec.available = false ∧
      ∃ u w, exec .takeReport t = .next u ∧ u.port.rsp = some w ∧ w.getLsbD 24 = false ∧ u.dec = t.dec ∧
        u.lines = s.lines

/-- R95: DECODER_CLEAR puts the decoder at the start of a report, keeps the report bytes and touches no line. -/
def Obligations.DecoderClearStartsAReport : Prop :=
  ∀ s : State, s.seq.busy = false → s.noReset →
    Answers (exec .decoderClear s) 0x00000000 (fun t =>
      t.dec = { s.dec with acc := 0, bitIdx := -1, frameSlot := 0, available := false } ∧ t.lines = s.lines)

/-- R96: from the pre-start position any eleven pushes commit bits 2 to 9, first bit lowest, into the field of the slot,
advance the slot by one modulo 3, leave the position and `ACC` re-armed, and set `AVAILABLE` after the eleventh exactly
for slot 2; it is 0 after each of the first ten. The device and the caller may move between the pushes (R131). -/
def Obligations.ElevenPushesCommitOneByte : Prop :=
  ∀ (s : State) (bits : List Bool),
    s.seq.busy = false → s.noReset → s.dec.bitIdx = -1 → s.dec.frameSlot ≠ 3 → bits.length = 11 →
      (∃ t, runAll (bits.map .pushBit) s = .next t ∧ t.lines = s.lines ∧
        t.dec.bitIdx = -1 ∧ t.dec.acc = 0 ∧
        t.dec.frameSlot.toNat = (s.dec.frameSlot.toNat + 1) % 3 ∧
        (t.dec.available = true ↔ s.dec.frameSlot = 2) ∧
        t.dec.repState =
          (if s.dec.frameSlot = 0 then BitVec.ofNat 8 (bitsToNat ((bits.drop 1).take 8)) else s.dec.repState) ∧
        t.dec.repX =
          (if s.dec.frameSlot = 1 then BitVec.ofNat 8 (bitsToNat ((bits.drop 1).take 8)) else s.dec.repX) ∧
        t.dec.repY =
          (if s.dec.frameSlot = 2 then BitVec.ofNat 8 (bitsToNat ((bits.drop 1).take 8)) else s.dec.repY)) ∧
      (∀ k u, 0 < k → k ≤ 10 → runAll ((bits.take k).map .pushBit) s = .next u → u.dec.available = false)

/-- R97: since a reset or a DECODER_CLEAR, over any commands but another DECODER_CLEAR, each run to its response while
the other agents move, `AVAILABLE` is 1 exactly when the number of pushes, by PUSH_BIT or SAMPLE_PUSH, is a positive
multiple of 33 and no TAKE_REPORT came after the last push. Commands that await no level do run to their responses. -/
def Obligations.AvailableExactlyAtMultiplesOf33 : Prop :=
  ∀ (s : State) (cmds : List Instr),
    s.seq.busy = false → s.noReset → s.dec.bitIdx = -1 → s.dec.frameSlot = 0 → s.dec.available = false →
      Instr.decoderClear ∉ cmds →
        (∀ t, RunsTo cmds s t →
          (t.dec.available = true ↔
            0 < pushCount cmds ∧ 33 ∣ pushCount cmds ∧ Instr.takeReport ∉ sinceLastPush cmds)) ∧
          ((∀ i ∈ cmds, awaitsLevel i = false) → ∃ t, RunsTo cmds s t)

/-- R99: whatever the calls carry, and whatever the other agents do between them, eleven pushes bring the position back
to where it was. -/
def Obligations.ElevenPushesReturnThePosition : Prop :=
  ∀ (s : State) (bits : List Bool), s.seq.busy = false → s.noReset → s.dec.inv → bits.length = 11 →
    ∃ t, runAll (bits.map .pushBit) s = .next t ∧ t.dec.bitIdx = s.dec.bitIdx ∧
      t.dec.frameSlot.toNat = (s.dec.frameSlot.toNat + 1) % 3

/-- R63, R100: `RX_BIT`, on released lines, pushes the level that the data line has at a sample taken after the clock was
seen low, and ends when the clock is seen high again. -/
def Obligations.RxBitPushesTheBitOfTheClockLow : Prop :=
  ∀ (s : State) (v : Served) (b : Bool),
    s.seq.busy = false → s.lines.clkDir = .input → s.lines.dataDir = .input →
      s.serves (waitNeeds .clk false ++ samplePushNeeds ++ waitNeeds .clk true) = some v → v.samples = [b] →
        ∃ t, runAll rxBitExpansion s = .next t ∧ t.seq.busy = false ∧ t.lines = s.lines ∧
          t.env.schedule = v.rest ∧ ∀ u, exec (.pushBit b) (s.setSchedule []) = .next u → t.dec = u.dec

/-! ## Frames -/

/-- R29, R41: NOP, SENSE, WAIT, DELAY and the five decoder commands change no pad register and neither byte of the
transceiver. -/
def Obligations.QuietCommandsLeaveTheLines : Prop :=
  ∀ (i : Instr) (s t : State),
    (i = .nop ∨ (∃ l, i = .sense l) ∨ (∃ l v, i = .wait l v) ∨ (∃ us, i = .delay us) ∨ (∃ b, i = .pushBit b) ∨
      i = .samplePush ∨ i = .isReportReady ∨ i = .takeReport ∨ i = .decoderClear) →
      s.noReset → exec i s = .next t →
        t.lines = s.lines ∧ t.seq.txb = s.seq.txb ∧ t.seq.rxb = s.seq.rxb

/-- R25, R41: the Line Driver's commands, the transceiver's and IS_REPORT_READY leave the decoder, the report and
`AVAILABLE`. -/
def Obligations.LineCommandsLeaveTheDecoder : Prop :=
  ∀ (i : Instr) (s t : State),
    (i = .nop ∨ (∃ l d, i = .setDir l d) ∨ (∃ l v, i = .drive l v) ∨ (∃ l, i = .sense l) ∨ (∃ l v, i = .wait l v) ∨
      i = .inhibit ∨ (∃ us, i = .delay us) ∨ (∃ b, i = .sendByte b) ∨ i = .receiveByte ∨ i = .isReportReady) →
      s.noReset → exec i s = .next t → t.dec = s.dec

/-- R18, R19, R27: what SET_DIR, DRIVE, INHIBIT, SEND_BYTE and RECEIVE_BYTE leave of the pad registers and of `TXB` and
`RXB`. -/
def Obligations.LineCommandsLeaveTheOtherLines : Prop :=
  (∀ (line : LineSel) (d : Dir) (s t : State), s.noReset → exec (.setDir line d) s = .next t →
    t.lines.out = s.lines.out ∧ t.lines.rstOut = s.lines.rstOut ∧
      (∀ k, lineOf line ≠ some k → t.lines.dir k = s.lines.dir k) ∧
      t.seq.txb = s.seq.txb ∧ t.seq.rxb = s.seq.rxb) ∧
    (∀ (line : LineSel) (v : Bool) (s t : State), s.noReset → exec (.drive line v) s = .next t →
      t.lines.dir = s.lines.dir ∧ (line ≠ .rst → t.lines.rstOut = s.lines.rstOut) ∧
        (∀ k, lineOf line ≠ some k → t.lines.out k = s.lines.out k) ∧
        t.seq.txb = s.seq.txb ∧ t.seq.rxb = s.seq.rxb) ∧
    (∀ s t : State, s.noReset → exec .inhibit s = .next t →
      t.lines.dataDir = s.lines.dataDir ∧ t.lines.dataOut = s.lines.dataOut ∧ t.lines.rstOut = s.lines.rstOut ∧
        t.seq.txb = s.seq.txb ∧ t.seq.rxb = s.seq.rxb) ∧
    (∀ (b : Byte) (s t : State), s.noReset → exec (.sendByte b) s = .next t →
      t.lines.rstOut = s.lines.rstOut ∧ t.seq.rxb = s.seq.rxb) ∧
    (∀ s t : State, s.noReset → exec .receiveByte s = .next t →
      t.lines.rstOut = s.lines.rstOut ∧ t.lines.dataOut = s.lines.dataOut ∧ t.seq.txb = s.seq.txb)

/-- R24, R25, R90, R94, R95: TAKE_REPORT changes `AVAILABLE` only, DECODER_CLEAR keeps the report bytes, and a push
changes a report byte only at the stop bit of that byte's slot, and no slot but there. -/
def Obligations.DecoderCommandsLeaveTheRest : Prop :=
  (∀ s t : State, s.noReset → exec .takeReport s = .next t → { t.dec with available := s.dec.available } = s.dec) ∧
    (∀ s t : State, s.noReset → exec .decoderClear s = .next t → t.dec.sameReport s.dec) ∧
    (∀ (i : Instr) (s t : State), (i = .samplePush ∨ ∃ b, i = .pushBit b) → s.noReset → exec i s = .next t →
      (s.dec.bitIdx ≠ 9 → t.dec.sameReport s.dec ∧ t.dec.frameSlot = s.dec.frameSlot) ∧
        (s.dec.frameSlot ≠ 0 → t.dec.repState = s.dec.repState) ∧
        (s.dec.frameSlot ≠ 1 → t.dec.repX = s.dec.repX) ∧
        (s.dec.frameSlot ≠ 2 → t.dec.repY = s.dec.repY))

/-! ## The whole machine -/

/-- R22, R23, R26, R93, R125: every step keeps the invariant, and no step changes a parameter (R30, R120). That a
command is held only at a wait is the model's choice of steps, log entries 3 and 12. -/
def Obligations.StepKeepsTheInvariant : Prop :=
  ∀ s t : State, s.inv → step s = .next t → t.inv ∧ t.params = s.params

/-- R32: the reset state meets the invariants that every step keeps. -/
def Obligations.ResetMeetsTheInvariants : Prop :=
  State.reset.inv ∧ State.reset.halfDuplex

/-- R101: the block takes no trap and never stops: from every state that meets the invariant a step has a next state.
The stop that it rules out is the model's own, log entry 10. -/
def Obligations.StepNeverStops : Prop :=
  ∀ s : State, s.inv → ∃ t, step s = .next t

/-- R20: a line that SEND_BYTE or RECEIVE_BYTE is about to sense is an input, in every state a step leads to. -/
def Obligations.StepKeepsHalfDuplex : Prop :=
  ∀ s t : State, s.seqInv → s.halfDuplex → step s = .next t → t.halfDuplex

/-- R20, R67: SEND_BYTE and RECEIVE_BYTE never act on a draw: they never sense a line they drive, whatever the other
agents do, from their acceptance and from wherever they are held. The counter of draws is the model's own, log entry
9. -/
def Obligations.TransceiverTakesNoDraw : Prop :=
  (∀ (i : Instr) (s t : State), isTransceiver i = true → s.seq.busy = false → exec i s = .next t →
    t.record.draws = s.record.draws) ∧
    (∀ s t : State, s.seqInv → s.halfDuplex → s.seq.busy = true → isTransceiver s.seq.cur.cmd = true →
      step s = .next t → t.record.draws = s.record.draws)

/-- R125: contention is recorded in every state a step leads to, and the record is never cleared, by a reset either.
The record of the fault is the model's own, log entry 8. -/
def Obligations.ContentionIsRecordedAndNeverCleared : Prop :=
  ∀ (s t : State) (l : Line), step s = .next t →
    (s.contentionOf l = true → t.contentionOf l = true) ∧
      (s.contentionInv → t.contended l = true → t.contentionOf l = true)

/-- R27: no value of `CUR`, `TXB`, `RXB` or `TIMER` left over from an earlier command affects a later one. -/
def Obligations.LeftoversHaveNoEffect : Prop :=
  ∀ (i : Instr) (s : State) (c : Cur) (x : Byte) (r : BitVec 10) (n : Nat), s.seq.busy = false →
    ∃ t u, exec i s = .next t ∧
      exec i { s with seq := { busy := false, cur := c, txb := x, rxb := r, timer := n } } = .next u ∧
      u.lines = t.lines ∧ u.dec = t.dec ∧ u.port = t.port ∧ u.env = t.env ∧ u.record = t.record ∧
      u.params = t.params ∧ u.seq.busy = t.seq.busy

/-- R65: the level on a line: a line the host releases is the device's, a line driven low is low, a line driven high is
high unless the device pulls it low, when it has no level. -/
def Obligations.WireResolvesBothSides : Prop :=
  ∀ (s : State) (l : Line),
    (s.lines.dir l = .input → s.wire l = some (s.env.dev l)) ∧
      (s.lines.dir l = .output → s.lines.out l = false → s.wire l = some false) ∧
      (s.lines.dir l = .output → s.lines.out l = true →
        s.wire l = if s.env.dev l then some true else none)

/-- R64: a step of the device changes no register of the block. The schedule is the model's own, log entry 1. -/
def Obligations.DeviceMoveTouchesNoRegister : Prop :=
  ∀ (s t : State) (clk data : Bool) (ts : List Turn),
    s.seq.busy = false → s.port.cmd = none → s.env.schedule = .device clk data :: ts → step s = .next t →
      t.lines = s.lines ∧ t.dec = s.dec ∧ t.seq = s.seq ∧ t.env.devClk = clk ∧ t.env.devData = data ∧
        t.env.schedule = ts
end

