-- ==== Sys2Proof/Laws/State.lean ====
section
/-! SUPPORT. Laws/State.lean: what each update of the state does to each of its parts, true by unfolding, so that no later
proof unfolds a record update. -/

namespace Sys2Proof.Machine

variable (s : State)

@[simp] theorem State.setDir_params (l : Line) (d : Dir) :
    (s.setDir l d).params = s.params := rfl

@[simp] theorem State.setDir_lines (l : Line) (d : Dir) :
    (s.setDir l d).lines = s.lines.setDir l d := rfl

@[simp] theorem State.setDir_dec (l : Line) (d : Dir) :
    (s.setDir l d).dec = s.dec := rfl

@[simp] theorem State.setDir_seq (l : Line) (d : Dir) :
    (s.setDir l d).seq = s.seq := rfl

@[simp] theorem State.setDir_port (l : Line) (d : Dir) :
    (s.setDir l d).port = s.port := rfl

@[simp] theorem State.setDir_env (l : Line) (d : Dir) :
    (s.setDir l d).env = s.env := rfl

@[simp] theorem State.setDir_record (l : Line) (d : Dir) :
    (s.setDir l d).record = s.record := rfl

@[simp] theorem State.setOut_params (l : Line) (v : Bool) :
    (s.setOut l v).params = s.params := rfl

@[simp] theorem State.setOut_lines (l : Line) (v : Bool) :
    (s.setOut l v).lines = s.lines.setOut l v := rfl

@[simp] theorem State.setOut_dec (l : Line) (v : Bool) :
    (s.setOut l v).dec = s.dec := rfl

@[simp] theorem State.setOut_seq (l : Line) (v : Bool) :
    (s.setOut l v).seq = s.seq := rfl

@[simp] theorem State.setOut_port (l : Line) (v : Bool) :
    (s.setOut l v).port = s.port := rfl

@[simp] theorem State.setOut_env (l : Line) (v : Bool) :
    (s.setOut l v).env = s.env := rfl

@[simp] theorem State.setOut_record (l : Line) (v : Bool) :
    (s.setOut l v).record = s.record := rfl

@[simp] theorem State.setRst_params (v : Bool) :
    (s.setRst v).params = s.params := rfl

@[simp] theorem State.setRst_lines (v : Bool) :
    (s.setRst v).lines = { s.lines with rstOut := v } := rfl

@[simp] theorem State.setRst_dec (v : Bool) :
    (s.setRst v).dec = s.dec := rfl

@[simp] theorem State.setRst_seq (v : Bool) :
    (s.setRst v).seq = s.seq := rfl

@[simp] theorem State.setRst_port (v : Bool) :
    (s.setRst v).port = s.port := rfl

@[simp] theorem State.setRst_env (v : Bool) :
    (s.setRst v).env = s.env := rfl

@[simp] theorem State.setRst_record (v : Bool) :
    (s.setRst v).record = s.record := rfl

@[simp] theorem State.setDec_params (d : Decoder) :
    (s.setDec d).params = s.params := rfl

@[simp] theorem State.setDec_lines (d : Decoder) :
    (s.setDec d).lines = s.lines := rfl

@[simp] theorem State.setDec_dec (d : Decoder) :
    (s.setDec d).dec = d := rfl

@[simp] theorem State.setDec_seq (d : Decoder) :
    (s.setDec d).seq = s.seq := rfl

@[simp] theorem State.setDec_port (d : Decoder) :
    (s.setDec d).port = s.port := rfl

@[simp] theorem State.setDec_env (d : Decoder) :
    (s.setDec d).env = s.env := rfl

@[simp] theorem State.setDec_record (d : Decoder) :
    (s.setDec d).record = s.record := rfl

@[simp] theorem State.setTxb_params (b : Byte) :
    (s.setTxb b).params = s.params := rfl

@[simp] theorem State.setTxb_lines (b : Byte) :
    (s.setTxb b).lines = s.lines := rfl

@[simp] theorem State.setTxb_dec (b : Byte) :
    (s.setTxb b).dec = s.dec := rfl

@[simp] theorem State.setTxb_seq (b : Byte) :
    (s.setTxb b).seq = { s.seq with txb := b } := rfl

@[simp] theorem State.setTxb_port (b : Byte) :
    (s.setTxb b).port = s.port := rfl

@[simp] theorem State.setTxb_env (b : Byte) :
    (s.setTxb b).env = s.env := rfl

@[simp] theorem State.setTxb_record (b : Byte) :
    (s.setTxb b).record = s.record := rfl

@[simp] theorem State.setRxb_params (b : BitVec 10) :
    (s.setRxb b).params = s.params := rfl

@[simp] theorem State.setRxb_lines (b : BitVec 10) :
    (s.setRxb b).lines = s.lines := rfl

@[simp] theorem State.setRxb_dec (b : BitVec 10) :
    (s.setRxb b).dec = s.dec := rfl

@[simp] theorem State.setRxb_seq (b : BitVec 10) :
    (s.setRxb b).seq = { s.seq with rxb := b } := rfl

@[simp] theorem State.setRxb_port (b : BitVec 10) :
    (s.setRxb b).port = s.port := rfl

@[simp] theorem State.setRxb_env (b : BitVec 10) :
    (s.setRxb b).env = s.env := rfl

@[simp] theorem State.setRxb_record (b : BitVec 10) :
    (s.setRxb b).record = s.record := rfl

@[simp] theorem State.setSampled_params (b : Bool) :
    (s.setSampled b).params = s.params := rfl

@[simp] theorem State.setSampled_lines (b : Bool) :
    (s.setSampled b).lines = s.lines := rfl

@[simp] theorem State.setSampled_dec (b : Bool) :
    (s.setSampled b).dec = s.dec := rfl

@[simp] theorem State.setSampled_seq (b : Bool) :
    (s.setSampled b).seq = { s.seq with cur := { s.seq.cur with sampled := b } } := rfl

@[simp] theorem State.setSampled_port (b : Bool) :
    (s.setSampled b).port = s.port := rfl

@[simp] theorem State.setSampled_env (b : Bool) :
    (s.setSampled b).env = s.env := rfl

@[simp] theorem State.setSampled_record (b : Bool) :
    (s.setSampled b).record = s.record := rfl

@[simp] theorem State.tick_params (n : Nat) :
    (s.tick n).params = s.params := rfl

@[simp] theorem State.tick_lines (n : Nat) :
    (s.tick n).lines = s.lines := rfl

@[simp] theorem State.tick_dec (n : Nat) :
    (s.tick n).dec = s.dec := rfl

@[simp] theorem State.tick_seq (n : Nat) :
    (s.tick n).seq = { s.seq with timer := s.seq.timer + n } := rfl

@[simp] theorem State.tick_port (n : Nat) :
    (s.tick n).port = s.port := rfl

@[simp] theorem State.tick_env (n : Nat) :
    (s.tick n).env = s.env := rfl

@[simp] theorem State.tick_record (n : Nat) :
    (s.tick n).record = s.record := rfl

@[simp] theorem State.setSchedule_params (ts : List Turn) :
    (s.setSchedule ts).params = s.params := rfl

@[simp] theorem State.setSchedule_lines (ts : List Turn) :
    (s.setSchedule ts).lines = s.lines := rfl

@[simp] theorem State.setSchedule_dec (ts : List Turn) :
    (s.setSchedule ts).dec = s.dec := rfl

@[simp] theorem State.setSchedule_seq (ts : List Turn) :
    (s.setSchedule ts).seq = s.seq := rfl

@[simp] theorem State.setSchedule_port (ts : List Turn) :
    (s.setSchedule ts).port = s.port := rfl

@[simp] theorem State.setSchedule_env (ts : List Turn) :
    (s.setSchedule ts).env = { s.env with schedule := ts } := rfl

@[simp] theorem State.setSchedule_record (ts : List Turn) :
    (s.setSchedule ts).record = s.record := rfl

@[simp] theorem State.advance_params :
    s.advance.params = s.params := rfl

@[simp] theorem State.advance_lines :
    s.advance.lines = s.lines := rfl

@[simp] theorem State.advance_dec :
    s.advance.dec = s.dec := rfl

@[simp] theorem State.advance_seq :
    s.advance.seq = { s.seq with cur := { s.seq.cur with pos := s.seq.cur.pos + 1 }, timer := 0 } := rfl

@[simp] theorem State.advance_port :
    s.advance.port = s.port := rfl

@[simp] theorem State.advance_env :
    s.advance.env = s.env := rfl

@[simp] theorem State.advance_record :
    s.advance.record = s.record := rfl

@[simp] theorem State.abort_params :
    s.abort.params = s.params := rfl

@[simp] theorem State.abort_lines :
    s.abort.lines = s.lines := rfl

@[simp] theorem State.abort_dec :
    s.abort.dec = s.dec := rfl

@[simp] theorem State.abort_seq :
    s.abort.seq = { s.seq with cur := { s.seq.cur with aborting := true, pos := 0 }, timer := 0 } := rfl

@[simp] theorem State.abort_port :
    s.abort.port = s.port := rfl

@[simp] theorem State.abort_env :
    s.abort.env = s.env := rfl

@[simp] theorem State.abort_record :
    s.abort.record = s.record := rfl

@[simp] theorem State.accept_params (i : Instr) :
    (s.accept i).params = s.params := rfl

@[simp] theorem State.accept_lines (i : Instr) :
    (s.accept i).lines = s.lines := rfl

@[simp] theorem State.accept_dec (i : Instr) :
    (s.accept i).dec = s.dec := rfl

@[simp] theorem State.accept_seq (i : Instr) :
    (s.accept i).seq = { s.seq with busy := true, cur := { s.seq.cur with cmd := i, aborting := false, pos := 0 }, timer := 0 } := rfl

@[simp] theorem State.accept_port (i : Instr) :
    (s.accept i).port = { s.port with rsp := none } := rfl

@[simp] theorem State.accept_env (i : Instr) :
    (s.accept i).env = s.env := rfl

@[simp] theorem State.accept_record (i : Instr) :
    (s.accept i).record = s.record := rfl

@[simp] theorem State.respond_params (st : BitVec 4) (d : BitVec 25) :
    (s.respond st d).params = s.params := rfl

@[simp] theorem State.respond_lines (st : BitVec 4) (d : BitVec 25) :
    (s.respond st d).lines = s.lines := rfl

@[simp] theorem State.respond_dec (st : BitVec 4) (d : BitVec 25) :
    (s.respond st d).dec = s.dec := rfl

@[simp] theorem State.respond_seq (st : BitVec 4) (d : BitVec 25) :
    (s.respond st d).seq = { s.seq with busy := false } := rfl

@[simp] theorem State.respond_port (st : BitVec 4) (d : BitVec 25) :
    (s.respond st d).port = { s.port with rsp := some (rspWord st d) } := rfl

@[simp] theorem State.respond_env (st : BitVec 4) (d : BitVec 25) :
    (s.respond st d).env = s.env := rfl

@[simp] theorem State.respond_record (st : BitVec 4) (d : BitVec 25) :
    (s.respond st d).record = s.record := rfl

@[simp] theorem State.noteContention_params :
    s.noteContention.params = s.params := rfl

@[simp] theorem State.noteContention_lines :
    s.noteContention.lines = s.lines := rfl

@[simp] theorem State.noteContention_dec :
    s.noteContention.dec = s.dec := rfl

@[simp] theorem State.noteContention_seq :
    s.noteContention.seq = s.seq := rfl

@[simp] theorem State.noteContention_port :
    s.noteContention.port = s.port := rfl

@[simp] theorem State.noteContention_env :
    s.noteContention.env = s.env := rfl

@[simp] theorem State.noteContention_record :
    s.noteContention.record = { s.record with contentionClk := s.record.contentionClk || s.contended .clk, contentionData := s.record.contentionData || s.contended .data } := rfl

@[simp] theorem State.deviceMove_params (clk data : Bool) :
    (s.deviceMove clk data).params = s.params := rfl

@[simp] theorem State.deviceMove_lines (clk data : Bool) :
    (s.deviceMove clk data).lines = s.lines := rfl

@[simp] theorem State.deviceMove_dec (clk data : Bool) :
    (s.deviceMove clk data).dec = s.dec := rfl

@[simp] theorem State.deviceMove_seq (clk data : Bool) :
    (s.deviceMove clk data).seq = s.seq := rfl

@[simp] theorem State.deviceMove_port (clk data : Bool) :
    (s.deviceMove clk data).port = s.port := rfl

@[simp] theorem State.deviceMove_env (clk data : Bool) :
    (s.deviceMove clk data).env = { s.env with devClk := clk, devData := data } := rfl

@[simp] theorem State.setOffer_params (o : Option CmdWord) :
    (s.setOffer o).params = s.params := rfl

@[simp] theorem State.setOffer_lines (o : Option CmdWord) :
    (s.setOffer o).lines = s.lines := rfl

@[simp] theorem State.setOffer_dec (o : Option CmdWord) :
    (s.setOffer o).dec = s.dec := rfl

@[simp] theorem State.setOffer_seq (o : Option CmdWord) :
    (s.setOffer o).seq = s.seq := rfl

@[simp] theorem State.setOffer_port (o : Option CmdWord) :
    (s.setOffer o).port = { s.port with cmd := o } := rfl

@[simp] theorem State.setOffer_env (o : Option CmdWord) :
    (s.setOffer o).env = s.env := rfl

@[simp] theorem State.setOffer_record (o : Option CmdWord) :
    (s.setOffer o).record = s.record := rfl

@[simp] theorem State.resetCycle_params :
    s.resetCycle.params = s.params := rfl

@[simp] theorem State.resetCycle_lines :
    s.resetCycle.lines = Lines.reset s.params := rfl

@[simp] theorem State.resetCycle_dec :
    s.resetCycle.dec = Decoder.reset := rfl

@[simp] theorem State.resetCycle_seq :
    s.resetCycle.seq = Seq.reset := rfl

@[simp] theorem State.resetCycle_port :
    s.resetCycle.port = { s.port with rsp := none } := rfl

@[simp] theorem State.resetCycle_env :
    s.resetCycle.env = s.env := rfl

@[simp] theorem State.resetCycle_record :
    s.resetCycle.record = s.record := rfl

@[simp] theorem State.newCycle_params :
    s.newCycle.params = s.params := rfl

@[simp] theorem State.newCycle_lines :
    s.newCycle.lines = s.lines := rfl

@[simp] theorem State.newCycle_dec :
    s.newCycle.dec = s.dec := rfl

@[simp] theorem State.newCycle_seq :
    s.newCycle.seq = s.seq := rfl

@[simp] theorem State.newCycle_port :
    s.newCycle.port = { s.port with rsp := none } := rfl

@[simp] theorem State.newCycle_env :
    s.newCycle.env = s.env := rfl

@[simp] theorem State.newCycle_record :
    s.newCycle.record = s.record := rfl

@[simp] theorem State.takeOffer_params :
    s.takeOffer.params = s.params := rfl

@[simp] theorem State.takeOffer_lines :
    s.takeOffer.lines = s.lines := rfl

@[simp] theorem State.takeOffer_dec :
    s.takeOffer.dec = s.dec := rfl

@[simp] theorem State.takeOffer_seq :
    s.takeOffer.seq = s.seq := rfl

@[simp] theorem State.takeOffer_port :
    s.takeOffer.port = { s.port with cmd := none } := rfl

@[simp] theorem State.takeOffer_env :
    s.takeOffer.env = s.env := rfl

@[simp] theorem State.takeOffer_record :
    s.takeOffer.record = s.record := rfl


/-! ## The pad registers of one line -/

@[simp] theorem Lines.setDir_dir_self (r : Lines) (l : Line) (d : Dir) : (r.setDir l d).dir l = d := by
  cases l <;> rfl

@[simp] theorem Lines.setDir_dir_of_ne (r : Lines) {l k : Line} (d : Dir) (h : k ≠ l) :
    (r.setDir l d).dir k = r.dir k := by
  cases l <;> cases k <;> first | rfl | exact absurd rfl h

@[simp] theorem Lines.setDir_out (r : Lines) (l : Line) (d : Dir) : (r.setDir l d).out = r.out := by
  funext k; cases l <;> cases k <;> rfl

@[simp] theorem Lines.setDir_rstOut (r : Lines) (l : Line) (d : Dir) : (r.setDir l d).rstOut = r.rstOut := by
  cases l <;> rfl

@[simp] theorem Lines.setOut_out_self (r : Lines) (l : Line) (v : Bool) : (r.setOut l v).out l = v := by
  cases l <;> rfl

@[simp] theorem Lines.setOut_out_of_ne (r : Lines) {l k : Line} (v : Bool) (h : k ≠ l) :
    (r.setOut l v).out k = r.out k := by
  cases l <;> cases k <;> first | rfl | exact absurd rfl h

@[simp] theorem Lines.setOut_dir (r : Lines) (l : Line) (v : Bool) : (r.setOut l v).dir = r.dir := by
  funext k; cases l <;> cases k <;> rfl

@[simp] theorem Lines.setOut_rstOut (r : Lines) (l : Line) (v : Bool) : (r.setOut l v).rstOut = r.rstOut := by
  cases l <;> rfl

end Sys2Proof.Machine
end

