-- ==== Sys2Proof/Laws/Ops.lean ====
section
/-! SUPPORT. Laws/Ops.lean: what the wire, a Sense and one turn of the block can do, said once. -/

namespace Sys2Proof.Machine

/-! ## The wire and Sense -/

theorem State.wire_of_input {s : State} {l : Line} (h : s.lines.dir l = .input) : s.wire l = some (s.env.dev l) := by
  cases hd : s.env.dev l <;> simp [State.wire, State.contended, Lines.hostHigh, Lines.hostLow, h, hd]

theorem State.sense_of_input {s : State} {l : Line} (h : s.lines.dir l = .input) : s.sense l = (s.env.dev l, s) := by
  simp [State.sense, h, State.wire_of_input h]

theorem State.sense_of_output {s : State} {l : Line} (h : s.lines.dir l = .output) :
    s.sense l =
      (Config.senseDraw s.record.draws, { s with record := { s.record with draws := s.record.draws + 1 } }) := by
  simp [State.sense, h]

/-- Whatever it returns, a Sense changes at most the counter of draws (R67). -/
theorem State.sense_state (s : State) (l : Line) :
    (s.sense l).2 = s ∨ (s.sense l).2 = { s with record := { s.record with draws := s.record.draws + 1 } } := by
  unfold State.sense
  split
  · exact .inl rfl
  · exact .inr rfl

section

variable (s : State) (l : Line)

@[simp] theorem State.sense_params : (s.sense l).2.params = s.params := by
  rcases s.sense_state l with h | h <;> rw [h]

@[simp] theorem State.sense_lines : (s.sense l).2.lines = s.lines := by
  rcases s.sense_state l with h | h <;> rw [h]

@[simp] theorem State.sense_dec : (s.sense l).2.dec = s.dec := by
  rcases s.sense_state l with h | h <;> rw [h]

@[simp] theorem State.sense_seq : (s.sense l).2.seq = s.seq := by
  rcases s.sense_state l with h | h <;> rw [h]

@[simp] theorem State.sense_port : (s.sense l).2.port = s.port := by
  rcases s.sense_state l with h | h <;> rw [h]

@[simp] theorem State.sense_env : (s.sense l).2.env = s.env := by
  rcases s.sense_state l with h | h <;> rw [h]

@[simp] theorem State.sense_contentionClk : (s.sense l).2.record.contentionClk = s.record.contentionClk := by
  rcases s.sense_state l with h | h <;> rw [h]

@[simp] theorem State.sense_contentionData : (s.sense l).2.record.contentionData = s.record.contentionData := by
  rcases s.sense_state l with h | h <;> rw [h]

end

/-! ## One turn of the block -/

/-- Every state a turn can end with meets `P`. -/
def PrimResult.All (P : State → Prop) : PrimResult → Prop
  | .done s => P s
  | .hold s => P s
  | .timeout s => P s

/-- What a turn of a wait can do: the level is there and the position advances; it is not, and the wait goes on; or,
with a finite timeout, the wait is aborted (R69). -/
theorem State.waitTurn_cases (s : State) (turn : Option Nat) (l : Line) (v : Bool) :
    ((s.sense l).1 = v ∧ s.waitTurn turn l v = .done (s.sense l).2.advance) ∨
      ((s.sense l).1 ≠ v ∧ s.waitTurn turn l v = .hold ((s.sense l).2.tick (turn.getD 0))) ∨
      ((s.sense l).1 ≠ v ∧ s.params.waitTimeoutUs.isSome = true ∧
        s.waitTurn turn l v = .timeout (s.sense l).2.abort) := by
  unfold State.waitTurn
  by_cases h : (s.sense l).1 = v
  · simp [h]
  · simp only [h, if_false]
    cases ht : s.params.waitTimeoutUs with
    | none => simp [ht, h]
    | some us => by_cases he : (s.sense l).2.elapsed turn (cyclesOf s.params us) <;> simp [ht, h, he]

/-- With no timeout a turn of a wait completes or goes on (R10, R69). -/
theorem State.waitTurn_infinite {s : State} (h : s.params.waitTimeoutUs = none) (turn : Option Nat) (l : Line)
    (v : Bool) :
    s.waitTurn turn l v =
      if (s.sense l).1 = v then .done (s.sense l).2.advance else .hold ((s.sense l).2.tick (turn.getD 0)) := by
  unfold State.waitTurn
  simp [h]

/-- A turn of a delay completes once its time has passed, and goes on otherwise (R70). -/
theorem State.delayTurn_cases (s : State) (turn : Option Nat) (us : Nat) :
    (s.elapsed turn (cyclesOf s.params us) = true ∧ s.delayTurn turn us = .done s.advance) ∨
      (s.elapsed turn (cyclesOf s.params us) = false ∧ s.delayTurn turn us = .hold (s.tick (turn.getD 0))) := by
  unfold State.delayTurn
  cases h : s.elapsed turn (cyclesOf s.params us) <;> simp

end Sys2Proof.Machine
end

