-- ==== Sys2Proof/Laws/Run.lean ====
section
/-! SUPPORT. Laws/Run.lean: the one induction over a running command. A property of the remaining primitives and the
state that every turn keeps gives a property of the state the run ends with; the proofs about commands cite it and never
unfold runTurns. -/

namespace Sys2Proof.Machine

/-- A turn with all the time it needs goes on only at a wait, and only a wait times out. -/
theorem State.primTurn_none_wait {s s' : State} {p : Prim}
    (h : s.primTurn p none = .hold s' ∨ s.primTurn p none = .timeout s') : isWaitUntil p = true := by
  cases p with
  | waitUntil => rfl
  | delay us => rcases h with h | h <;> simp [State.primTurn, State.delayTurn, State.elapsed] at h
  | settle => rcases h with h | h <;> simp [State.primTurn, State.delayTurn, State.elapsed] at h
  | _ => rcases h with h | h <;> simp [State.primTurn] at h

/-- With an empty schedule: `P` holds along the run, `Q` where it ends, by running out of primitives or at a wait. -/
theorem runQuiet_rule {P : List Prim → State → Prop} {Q : State → Prop} {k : State → State}
    (hdone : ∀ p ps s s', P (p :: ps) s → s.primTurn p none = .done s' → P ps s')
    (hhold : ∀ p ps s s', P (p :: ps) s → isWaitUntil p = true → s.primTurn p none = .hold s' → Q s')
    (htimeout : ∀ p ps s s', P (p :: ps) s → isWaitUntil p = true → s.primTurn p none = .timeout s' → Q (k s'))
    (hend : ∀ s, P [] s → Q s) :
    ∀ ps s, P ps s → Q (runQuiet k ps s) := by
  intro ps
  induction ps with
  | nil => intro s h; exact hend s h
  | cons p ps ih =>
    intro s h
    unfold runQuiet
    cases hp : s.primTurn p none with
    | done s' => exact ih s' (hdone p ps s s' h hp)
    | hold s' => exact hhold p ps s s' h (State.primTurn_none_wait (.inl hp)) hp
    | timeout s' => exact htimeout p ps s s' h (State.primTurn_none_wait (.inr hp)) hp

/-- The rule for a running command whose timeout part has no wait: `P ps s` holds whenever the primitives `ps` remain in
state `s`, `Q` of the state where the run ends: by a reset (hreset), out of primitives (hend), or held at a wait with no
turn left (hheld). -/
theorem runTurns_rule {P : List Prim → State → Prop} {Q : State → Prop} {abortPs : List Prim}
    (habort : ∀ p ∈ abortPs, isWaitUntil p = false)
    (hdone : ∀ p ps s s' turn, P (p :: ps) s → s.primTurn p turn = .done s' → P ps s')
    (hhold : ∀ p ps s s' turn, P (p :: ps) s → s.primTurn p turn = .hold s' → P (p :: ps) s')
    (htimeout : ∀ p ps s s' turn, P (p :: ps) s → s.primTurn p turn = .timeout s' → P abortPs s')
    (hdevice : ∀ p ps s clk data, P (p :: ps) s → P (p :: ps) (s.deviceMove clk data))
    (hcaller : ∀ p ps s offer, P (p :: ps) s → P (p :: ps) (s.setOffer offer))
    (hend : ∀ s ts, P [] s → Q (s.setSchedule ts))
    (hheld : ∀ p ps s, P (p :: ps) s → isWaitUntil p = true → Q (s.setSchedule []))
    (ts : List Turn)
    (hreset : Turn.reset ∈ ts → ∀ p ps s ts', P (p :: ps) s → Q (s.resetCycle.setSchedule ts')) :
    ∀ ps s, P ps s → Q (runTurns abortPs ts ps s) := by
  induction ts with
  | nil =>
    intro ps s h
    unfold runTurns
    refine runQuiet_rule (Q := fun s => Q (s.setSchedule [])) (P := P)
      (fun p ps s s' h hp => hdone p ps s s' none h hp)
      (fun p ps s s' h hw hp => hheld _ _ _ (hhold p ps s s' none h hp) hw)
      (fun p ps s s' h hw hp => ?_) (fun s h => hend _ _ h) ps s h
    refine runQuiet_rule (Q := fun s => Q (s.setSchedule []))
      (P := fun ps s => P ps s ∧ ∀ p ∈ ps, isWaitUntil p = false)
      (fun p ps s s' h hp => ⟨hdone p ps s s' none h.1 hp, fun q hq => h.2 q (List.mem_cons_of_mem _ hq)⟩)
      (fun p ps s s' h hw hp => absurd (h.2 p (List.mem_cons_self ..)) (by simp [hw]))
      (fun p ps s s' h hw hp => absurd (h.2 p (List.mem_cons_self ..)) (by simp [hw]))
      (fun s h => hend _ _ h.1) abortPs s' ⟨htimeout p ps s s' none h hp, habort⟩
  | cons t ts ih =>
    have ih := ih (fun hmem => hreset (List.mem_cons_of_mem _ hmem))
    intro ps s h
    cases ps with
    | nil => unfold runTurns; exact hend _ _ h
    | cons p ps =>
      cases t with
      | device clk data => unfold runTurns; exact ih _ _ (hdevice _ _ _ _ _ h)
      | caller offer => unfold runTurns; exact ih _ _ (hcaller _ _ _ _ h)
      | reset => unfold runTurns; exact hreset (List.mem_cons_self ..) _ _ _ _ h
      | host cycles =>
        unfold runTurns
        cases hp : s.primTurn p (some cycles) with
        | done s' => exact ih _ _ (hdone _ _ _ _ _ h hp)
        | hold s' => exact ih _ _ (hhold _ _ _ _ _ h hp)
        | timeout s' => exact ih _ _ (htimeout _ _ _ _ _ h hp)

/-- Running a command faults only where its position names no primitive, and otherwise runs the primitives it has left
from the state in which it was accepted, or in which it was held. -/
theorem runCommand_eq (i : Instr) (ps abortPs : List Prim) (s : State) :
    runCommand i ps abortPs s =
      match (if s.seq.busy then s else s.accept i).seq.cur.remaining ps abortPs with
      | [] => .fault .noPrimitive
      | p :: rest =>
        .next (runTurns abortPs s.env.schedule (p :: rest) (if s.seq.busy then s else s.accept i)) := by
  unfold runCommand
  cases s.seq.busy <;> rfl

/-- An idle block runs a command from its first primitive. -/
theorem runCommand_of_idle {s : State} (h : s.seq.busy = false) (i : Instr) (p : Prim) (ps abortPs : List Prim) :
    runCommand i (p :: ps) abortPs s = .next (runTurns abortPs s.env.schedule (p :: ps) (s.accept i)) := by
  simp [runCommand_eq, h, Cur.remaining]

/-- The next state of a command is the state a run of some of its primitives ends with. -/
theorem runCommand_next {i : Instr} {ps abortPs : List Prim} {s t : State} (h : runCommand i ps abortPs s = .next t) :
    ∃ p rest s0, (s0 = s ∧ s.seq.busy = true ∨ s0 = s.accept i ∧ s.seq.busy = false) ∧
      s0.seq.cur.remaining ps abortPs = p :: rest ∧ t = runTurns abortPs s.env.schedule (p :: rest) s0 := by
  rw [runCommand_eq] at h
  split at h
  · simp at h
  · rename_i p rest hrem
    refine ⟨p, rest, _, ?_, hrem, by simpa using h.symm⟩
    cases hb : s.seq.busy <;> simp

end Sys2Proof.Machine
end

