-- ==== Sys2Proof/Laws/Serve.lean ====
section
/-! SUPPORT. Laws/Serve.lean: a command whose needs the schedule meets (Safety.lean) runs through its primitives, and
what it does to the block's registers is the plain sequence of its primitives' effects. One lemma says so for any list
of primitives; a result statement about a command then only computes that sequence. -/

namespace Sys2Proof.Machine

/-! ## The registers of the block, and what a primitive does to them -/

/-- The registers a command's effect is about: all but `CUR`'s position and `TIMER`. -/
structure Block where
  lines : Lines
  dec : Decoder
  busy : Bool
  txb : Byte
  rxb : BitVec 10
  sampled : Bool
  rsp : Option RspWord

/-- The block's registers in a state. -/
def State.block (s : State) : Block where
  lines := s.lines
  dec := s.dec
  busy := s.seq.busy
  txb := s.seq.txb
  rxb := s.seq.rxb
  sampled := s.seq.cur.sampled
  rsp := s.port.rsp

/-- The line a primitive senses. -/
def sensedBy : Prim → Option Line
  | .waitUntil l _ => some l
  | .senseLine l => some l
  | .sampleRxBit _ => some .data
  | _ => none

/-- Whether the level a primitive senses is kept. -/
def keepsSample : Prim → Bool
  | .senseLine _ => true
  | .sampleRxBit _ => true
  | _ => false

/-- What a primitive needs of the turns to come. -/
def needOf (p : Params) : Prim → Need
  | .waitUntil l v => .see l v
  | .delay us => .pass us
  | .settle => .pass p.tSettleUs
  | .senseLine l => .sample l
  | .sampleRxBit _ => .sample .data
  | _ => .turn

/-- `Respond(st, d)`. -/
def Block.respond (k : Block) (st : BitVec 4) (d : BitVec 25) : Block :=
  { k with busy := false, rsp := some (rspWord st d) }

/-- The effect of a completed primitive; `b` is the level it took, if it keeps one. -/
def Block.effect (k : Block) (b : Bool) : Prim → Block
  | .writeDir l d => { k with lines := k.lines.setDir l d }
  | .writeOut l v => { k with lines := k.lines.setOut l v }
  | .writeRst v => { k with lines := { k.lines with rstOut := v } }
  | .loadTxb x => { k with txb := x }
  | .driveTxBit i => { k with lines := k.lines.setOut .data (k.txb.getLsbD i) }
  | .driveTxParity => { k with lines := k.lines.setOut .data (parity k.txb) }
  | .clearRxb => { k with rxb := 0 }
  | .sampleRxBit i => { k with rxb := setRxBit k.rxb i b }
  | .senseLine _ => { k with sampled := b }
  | .waitUntil _ _ => k
  | .delay _ => k
  | .settle => k
  | .pushBit x => { k with dec := k.dec.push x }
  | .pushSampled => { k with dec := k.dec.push k.sampled }
  | .clearAcc => { k with dec := { k.dec with acc := 0 } }
  | .rearmBitIdx => { k with dec := { k.dec with bitIdx := preStart } }
  | .clearSlot => { k with dec := { k.dec with frameSlot := 0 } }
  | .clearAvailable => { k with dec := k.dec.clearAvailable }
  | .respond .zero => k.respond statusOk 0
  | .respond .sampled => k.respond statusOk (zextBit k.sampled)
  | .respond .received => k.respond statusOk (zextRxb k.rxb)
  | .respond .available => k.respond statusOk (zextBit k.dec.available)
  | .takeReport => { k with dec := k.dec.clearAvailable }.respond statusOk (reportData k.dec)
  | .respondTimeout => k.respond statusLineTimeout 0
  | .respondIllegal => k.respond statusIllegal 0

/-- The effects of a list of primitives, in order, with the levels that were taken. -/
def Block.run : List Prim → List Bool → Block → Block
  | [], _, k => k
  | p :: ps, bs, k =>
    if keepsSample p then Block.run ps bs.tail (k.effect (bs.headD false) p) else Block.run ps bs (k.effect false p)

/-- Every line the primitives sense is an input when they do. -/
def inputsOk : List Prim → Lines → Prop
  | [], _ => True
  | .writeDir l d :: ps, r => inputsOk ps (r.setDir l d)
  | p :: ps, r => (∀ l, sensedBy p = some l → r.dir l = .input) ∧ inputsOk ps r

/-! ## The primitive that is next -/

/-- A primitive that completes does its effect. -/
theorem State.primTurn_done {s s' : State} {p : Prim} {turn : Option Nat}
    (hin : ∀ l, sensedBy p = some l → s.lines.dir l = .input) (h : s.primTurn p turn = .done s') :
    s'.block = s.block.effect ((sensedBy p).elim false s.env.dev) p ∧ s'.env = s.env ∧ s'.params = s.params ∧
      s'.record.draws = s.record.draws ∧ s'.seq.timer = 0 ∧ s'.seq.cur.cmd = s.seq.cur.cmd ∧
      s'.seq.cur.aborting = s.seq.cur.aborting ∧ s'.seq.cur.pos = s.seq.cur.pos + 1 ∧ s'.port.cmd = s.port.cmd := by
  cases p with
  | waitUntil l v =>
    have hl := hin l rfl
    rcases s.waitTurn_cases turn l v with ⟨-, e⟩ | ⟨-, e⟩ | ⟨-, -, e⟩ <;>
      simp only [State.primTurn, e, State.sense_of_input hl] at h <;> cases h
    exact ⟨rfl, rfl, rfl, rfl, rfl, rfl, rfl, rfl, rfl⟩
  | delay us =>
    rcases s.delayTurn_cases turn us with ⟨-, e⟩ | ⟨-, e⟩ <;> simp only [State.primTurn, e] at h <;> cases h
    exact ⟨rfl, rfl, rfl, rfl, rfl, rfl, rfl, rfl, rfl⟩
  | settle =>
    rcases s.delayTurn_cases turn s.params.tSettleUs with ⟨-, e⟩ | ⟨-, e⟩ <;> simp only [State.primTurn, e] at h <;>
      cases h
    exact ⟨rfl, rfl, rfl, rfl, rfl, rfl, rfl, rfl, rfl⟩
  | sampleRxBit i =>
    have hl := hin .data rfl
    simp only [State.primTurn, State.sense_of_input hl] at h
    cases h
    exact ⟨rfl, rfl, rfl, rfl, rfl, rfl, rfl, rfl, rfl⟩
  | senseLine l =>
    have hl := hin l rfl
    simp only [State.primTurn, State.sense_of_input hl] at h
    cases h
    exact ⟨rfl, rfl, rfl, rfl, rfl, rfl, rfl, rfl, rfl⟩
  | respond d =>
    simp only [State.primTurn] at h
    cases h
    cases d <;> exact ⟨rfl, rfl, rfl, rfl, rfl, rfl, rfl, rfl, rfl⟩
  | _ =>
    simp only [State.primTurn] at h
    cases h
    exact ⟨rfl, rfl, rfl, rfl, rfl, rfl, rfl, rfl, rfl⟩

/-- A primitive that needs only a turn, or a sample, completes in it. -/
theorem State.primTurn_of_turn {s : State} {p : Prim} {turn : Option Nat} (pp : Params)
    (h : needOf pp p = .turn ∨ ∃ l, needOf pp p = .sample l) : ∃ s', s.primTurn p turn = .done s' := by
  cases p <;> simp [needOf] at h <;> exact ⟨_, rfl⟩

/-! ## The condition on directions depends on directions only -/

theorem inputsOk_congr (ps : List Prim) : ∀ {r r' : Lines}, r.dir = r'.dir → (inputsOk ps r ↔ inputsOk ps r') := by
  induction ps with
  | nil => intros; exact Iff.rfl
  | cons p ps ih =>
    intro r r' h
    cases p with
    | writeDir l d =>
      refine ih ?_
      funext k
      by_cases hk : k = l
      · simp [hk]
      · simp [Lines.setDir_dir_of_ne _ _ hk, h]
    | _ => simp only [inputsOk, h, ih h]

theorem inputsOk_cons {p : Prim} {ps : List Prim} {k : Block} (b : Bool) (h : inputsOk (p :: ps) k.lines) :
    (∀ l, sensedBy p = some l → k.lines.dir l = .input) ∧ inputsOk ps (k.effect b p).lines := by
  cases p with
  | writeDir l d => exact ⟨by simp [sensedBy], h⟩
  | writeOut l v => exact ⟨by simp [sensedBy], (inputsOk_congr ps (by simp [Block.effect])).1 h.2⟩
  | driveTxBit i => exact ⟨by simp [sensedBy], (inputsOk_congr ps (by simp [Block.effect])).1 h.2⟩
  | driveTxParity => exact ⟨by simp [sensedBy], (inputsOk_congr ps (by simp [Block.effect])).1 h.2⟩
  | writeRst v => exact ⟨by simp [sensedBy], (inputsOk_congr ps (by funext l; cases l <;> rfl)).1 h.2⟩
  | respond d => cases d <;> exact h
  | _ => exact h

/-! ## Running through served primitives -/

/-- What running through primitives leaves of the state they started in. -/
structure RanTo (s : State) (ps : List Prim) (samples : List Bool) (t : State) : Prop where
  block : t.block = s.block.run ps samples
  params : t.params = s.params
  draws : t.record.draws = s.record.draws
  cmd : t.seq.cur.cmd = s.seq.cur.cmd
  aborting : t.seq.cur.aborting = s.seq.cur.aborting
  pos : t.seq.cur.pos = s.seq.cur.pos + ps.length

section

variable {s t : State} {ps : List Prim} {bs : List Bool}

theorem RanTo.lines (h : RanTo s ps bs t) : t.lines = (s.block.run ps bs).lines := by rw [← h.block]; rfl

theorem RanTo.dec (h : RanTo s ps bs t) : t.dec = (s.block.run ps bs).dec := by rw [← h.block]; rfl

theorem RanTo.busy (h : RanTo s ps bs t) : t.seq.busy = (s.block.run ps bs).busy := by rw [← h.block]; rfl

theorem RanTo.txb (h : RanTo s ps bs t) : t.seq.txb = (s.block.run ps bs).txb := by rw [← h.block]; rfl

theorem RanTo.rxb (h : RanTo s ps bs t) : t.seq.rxb = (s.block.run ps bs).rxb := by rw [← h.block]; rfl

theorem RanTo.rsp (h : RanTo s ps bs t) : t.port.rsp = (s.block.run ps bs).rsp := by rw [← h.block]; rfl

end

theorem State.deviceMove_ranTo {s t : State} {ps : List Prim} {bs : List Bool} {clk data : Bool}
    (h : RanTo (s.deviceMove clk data) ps bs t) : RanTo s ps bs t :=
  ⟨h.block, h.params, h.draws, h.cmd, h.aborting, h.pos⟩

theorem State.setOffer_ranTo {s t : State} {ps : List Prim} {bs : List Bool} {o : Option CmdWord}
    (h : RanTo (s.setOffer o) ps bs t) : RanTo s ps bs t :=
  ⟨h.block, h.params, h.draws, h.cmd, h.aborting, h.pos⟩

theorem State.tick_ranTo {s t : State} {ps : List Prim} {bs : List Bool} {n : Nat}
    (h : RanTo (s.tick n) ps bs t) : RanTo s ps bs t :=
  ⟨h.block, h.params, h.draws, h.cmd, h.aborting, h.pos⟩

/-- One completed primitive, then the rest. -/
theorem RanTo.cons {s s' t : State} {p : Prim} {ps : List Prim} {bs : List Bool} {turn : Option Nat}
    (hin : ∀ l, sensedBy p = some l → s.lines.dir l = .input) (hp : s.primTurn p turn = .done s')
    (h : RanTo s' ps bs t) :
    RanTo s (p :: ps) (if keepsSample p then (sensedBy p).elim false s.env.dev :: bs else bs) t := by
  obtain ⟨hb, -, hpar, hdr, -, hcmd, hab, hpos, -⟩ := State.primTurn_done hin hp
  refine ⟨?_, h.params.trans hpar, h.draws.trans hdr, h.cmd.trans hcmd, h.aborting.trans hab, ?_⟩
  · rw [h.block, hb, Block.run]
    cases p <;> rfl
  · rw [h.pos, hpos, List.length_cons]; omega

/-- Needs that await no level are met by any schedule without a reset (R117). -/
theorem serve_of_no_see (p : Params) (ts : List Turn) (hreset : Turn.reset ∉ ts) :
    ∀ (ns : List Need), (∀ l v, Need.see l v ∉ ns) → ∀ (clk data : Bool) (spent : Nat),
      ∃ v, serve p ts ns clk data spent = some v := by
  have still : ∀ (ns : List Need), (∀ l v, Need.see l v ∉ ns) → ∀ clk data, ∃ bs, serveStill clk data ns = some bs := by
    intro ns
    induction ns with
    | nil => intros; exact ⟨[], rfl⟩
    | cons n ns ih =>
      intro h clk data
      obtain ⟨bs, hbs⟩ := ih (fun l v hm => h l v (List.mem_cons_of_mem _ hm)) clk data
      cases n with
      | see l v => exact absurd (List.mem_cons_self ..) (h l v)
      | sample l => exact ⟨levelOf clk data l :: bs, by simp [serveStill, hbs]⟩
      | _ => exact ⟨bs, hbs⟩
  induction ts with
  | nil =>
    intro ns h clk data spent
    obtain ⟨bs, hbs⟩ := still ns h clk data
    exact ⟨_, by rw [serve, hbs]; rfl⟩
  | cons t ts ih =>
    have ih := ih (fun h => hreset (List.mem_cons_of_mem _ h))
    intro ns h clk data spent
    cases ns with
    | nil => exact ⟨_, rfl⟩
    | cons n ns =>
      have hns : ∀ l v, Need.see l v ∉ ns := fun l v hm => h l v (List.mem_cons_of_mem _ hm)
      cases t with
      | device clk' data' => exact ih _ h _ _ _
      | caller => exact ih _ h _ _ _
      | reset => exact absurd (List.mem_cons_self ..) hreset
      | host cycles =>
        cases n with
        | see l v => exact absurd (List.mem_cons_self ..) (h l v)
        | turn => exact ih _ hns _ _ _
        | sample l =>
          obtain ⟨v, hv⟩ := ih _ hns clk data 0
          exact ⟨v.withSample (levelOf clk data l), by simp [serve, hv]⟩
        | pass us =>
          unfold serve
          split
          · exact ih _ hns _ _ _
          · exact ih _ h _ _ _

theorem State.dev_eq (s : State) (l : Line) : s.env.dev l = levelOf s.env.devClk s.env.devData l := by
  cases l <;> rfl

/-- `TIMER` after the primitives: each starts its own time at 0 (R69). -/
def timerAfter : List Prim → State → Nat
  | [], s => s.seq.timer
  | _ :: _, _ => 0

theorem timerAfter_of_zero (ps : List Prim) {s : State} (h : s.seq.timer = 0) : timerAfter ps s = 0 := by
  cases ps
  · exact h
  · rfl

/-- The device keeps still: the served primitives complete one after the other. -/
theorem runQuiet_of_serveStill (k : State → State) (ps : List Prim) :
    ∀ (s : State) (samples : List Bool), inputsOk ps s.lines →
      serveStill s.env.devClk s.env.devData (ps.map (needOf s.params)) = some samples →
        ∃ t, (∀ ps2, runQuiet k (ps ++ ps2) s = runQuiet k ps2 t) ∧ RanTo s ps samples t ∧ t.env = s.env ∧
          t.port.cmd = s.port.cmd ∧ t.seq.timer = timerAfter ps s := by
  induction ps with
  | nil =>
    intro s samples _ hs
    cases hs
    exact ⟨s, fun _ => rfl, ⟨rfl, rfl, rfl, rfl, rfl, rfl⟩, rfl, rfl, rfl⟩
  | cons p ps ih =>
    intro s samples hin hs
    obtain ⟨hsense, -⟩ := inputsOk_cons (k := s.block) false hin
    have main : ∀ s', s.primTurn p none = .done s' → ∀ bs,
        serveStill s.env.devClk s.env.devData (ps.map (needOf s.params)) = some bs →
        samples = (if keepsSample p then (sensedBy p).elim false s.env.dev :: bs else bs) →
        ∃ t, (∀ ps2, runQuiet k (p :: ps ++ ps2) s = runQuiet k ps2 t) ∧ RanTo s (p :: ps) samples t ∧ t.env = s.env ∧
          t.port.cmd = s.port.cmd ∧ t.seq.timer = 0 := by
      intro s' hp bs hbs hsamples
      obtain ⟨hb, henv, hpar, -, htimer, -, -, -, hcmdp⟩ := State.primTurn_done hsense hp
      have hlines : s'.lines = (s.block.effect ((sensedBy p).elim false s.env.dev) p).lines := by
        rw [← hb]; rfl
      obtain ⟨t, hrun, hran, ht, hc, htm⟩ := ih s' bs (hlines ▸ (inputsOk_cons (k := s.block) _ hin).2)
        (by rw [henv, hpar]; exact hbs)
      refine ⟨t, fun ps2 => ?_, hsamples ▸ RanTo.cons hsense hp hran, ht.trans henv, hc.trans hcmdp,
        htm.trans (timerAfter_of_zero ps htimer)⟩
      rw [List.cons_append, runQuiet, hp]
      exact hrun ps2
    cases p with
    | waitUntil l v =>
      simp only [List.map_cons, needOf, serveStill] at hs
      split at hs
      · rename_i hv
        refine main s.advance ?_ samples hs rfl
        simp only [State.primTurn, State.waitTurn, State.sense_of_input (hsense l rfl), s.dev_eq, hv, if_true]
      · cases hs
    | sampleRxBit i =>
      simp only [List.map_cons, needOf, serveStill, Option.map_eq_some_iff] at hs
      obtain ⟨bs, hbs, rfl⟩ := hs
      exact main _ rfl bs hbs (by simp [keepsSample, sensedBy, s.dev_eq])
    | senseLine l =>
      simp only [List.map_cons, needOf, serveStill, Option.map_eq_some_iff] at hs
      obtain ⟨bs, hbs, rfl⟩ := hs
      exact main _ rfl bs hbs (by simp [keepsSample, sensedBy, s.dev_eq])
    | _ => exact main _ rfl samples hs rfl

/-- One turn of a wait on an input line whose level is not there: it times out or goes on (R69). -/
theorem State.waitTurn_unseen {s : State} {l : Line} {v : Bool} (cycles : Nat) (hin : s.lines.dir l = .input)
    (hv : levelOf s.env.devClk s.env.devData l ≠ v) :
    s.waitTurn (some cycles) l v =
      if timedOut s.params (s.seq.timer + cycles) then .timeout s.abort else .hold (s.tick cycles) := by
  simp only [State.waitTurn, State.sense_of_input hin, s.dev_eq, hv, if_false]
  cases h : s.params.waitTimeoutUs <;> simp [timedOut, h, State.elapsed]

/-- A schedule that meets the needs of the primitives `ps` takes a run through them, and what is left of the schedule
goes to whatever primitives follow (R15, R131). -/
theorem runTurns_of_serve (abortPs : List Prim) (ts : List Turn) :
    ∀ (ps : List Prim) (s : State) (v : Served), inputsOk ps s.lines →
      serve s.params ts (ps.map (needOf s.params)) s.env.devClk s.env.devData s.seq.timer = some v →
        ∃ t, (∀ ps2, runTurns abortPs ts (ps ++ ps2) s = runTurns abortPs v.rest ps2 t) ∧ RanTo s ps v.samples t ∧
          t.env.devClk = v.devClk ∧ t.env.devData = v.devData ∧ t.seq.timer = timerAfter ps s := by
  induction ts with
  | nil =>
    intro ps s v hin hs
    simp only [serve, Option.map_eq_some_iff] at hs
    obtain ⟨samples, hs, rfl⟩ := hs
    obtain ⟨t, hrun, hran, henv, -, htm⟩ :=
      runQuiet_of_serveStill (runQuiet id abortPs) ps s samples hin hs
    exact ⟨t, fun ps2 => by simp only [runTurns, hrun ps2], hran, by rw [henv], by rw [henv], htm⟩
  | cons turn ts ih =>
    intro ps s v hin hs
    cases ps with
    | nil =>
      simp only [List.map_nil, serve, Option.some.injEq] at hs
      subst hs
      exact ⟨s, fun _ => rfl, ⟨rfl, rfl, rfl, rfl, rfl, rfl⟩, rfl, rfl, rfl⟩
    | cons p ps =>
      obtain ⟨hsense, -⟩ := inputsOk_cons (k := s.block) false hin
      cases turn with
      | device clk data =>
        simp only [List.map_cons, serve] at hs
        obtain ⟨t, hrun, hran, h1, h2, htm⟩ := ih (p :: ps) (s.deviceMove clk data) v hin hs
        exact ⟨t, hrun, State.deviceMove_ranTo hran, h1, h2, htm⟩
      | caller offer =>
        simp only [List.map_cons, serve] at hs
        obtain ⟨t, hrun, hran, h1, h2, htm⟩ := ih (p :: ps) (s.setOffer offer) v hin hs
        exact ⟨t, hrun, State.setOffer_ranTo hran, h1, h2, htm⟩
      | reset => simp only [List.map_cons, serve] at hs; cases hs
      | host cycles =>
        have main : ∀ s', s.primTurn p (some cycles) = .done s' → ∀ w,
            serve s.params ts (ps.map (needOf s.params)) s.env.devClk s.env.devData 0 = some w →
            v = (if keepsSample p then w.withSample ((sensedBy p).elim false s.env.dev) else w) →
            ∃ t, (∀ ps2, runTurns abortPs (.host cycles :: ts) (p :: ps ++ ps2) s = runTurns abortPs v.rest ps2 t) ∧
              RanTo s (p :: ps) v.samples t ∧ t.env.devClk = v.devClk ∧ t.env.devData = v.devData ∧
              t.seq.timer = 0 := by
          intro s' hp w hw hv
          obtain ⟨hb, henv, hpar, -, htimer, -, -, -, -⟩ := State.primTurn_done hsense hp
          have hlines : s'.lines = (s.block.effect ((sensedBy p).elim false s.env.dev) p).lines := by
            rw [← hb]; rfl
          obtain ⟨t, hrun, hran, h1, h2, htm⟩ := ih ps s' w
            (hlines ▸ (inputsOk_cons (k := s.block) _ hin).2) (by rw [henv, hpar, htimer]; exact hw)
          have hran := RanTo.cons hsense hp hran
          refine ⟨t, fun ps2 => ?_, ?_, ?_, ?_, htm.trans (timerAfter_of_zero ps htimer)⟩
          · have hrest : v.rest = w.rest := by rw [hv]; split <;> rfl
            rw [hrest, List.cons_append, runTurns, hp]
            exact hrun ps2
          · rw [hv]; split <;> simp_all [Served.withSample]
          · rw [hv]; split <;> exact h1
          · rw [hv]; split <;> exact h2
        have goOn : ∀ w, serve s.params ts ((p :: ps).map (needOf s.params)) s.env.devClk s.env.devData
              (s.seq.timer + cycles) = some w →
            s.primTurn p (some cycles) = .hold (s.tick cycles) →
            ∃ t, (∀ ps2, runTurns abortPs (.host cycles :: ts) (p :: ps ++ ps2) s = runTurns abortPs w.rest ps2 t) ∧
              RanTo s (p :: ps) w.samples t ∧ t.env.devClk = w.devClk ∧ t.env.devData = w.devData ∧
              t.seq.timer = 0 := by
          intro w hw hp
          obtain ⟨t, hrun, hran, h1, h2, htm⟩ := ih (p :: ps) (s.tick cycles) w hin hw
          refine ⟨t, fun ps2 => ?_, State.tick_ranTo hran, h1, h2, htm⟩
          rw [List.cons_append, runTurns, hp]
          exact hrun ps2
        cases p with
        | waitUntil l lv =>
          simp only [List.map_cons, needOf, serve] at hs
          split at hs
          · rename_i hv
            refine main s.advance ?_ v hs rfl
            simp only [State.primTurn, State.waitTurn, State.sense_of_input (hsense l rfl), s.dev_eq, hv, if_true]
          · rename_i hv
            split at hs
            · cases hs
            · rename_i ht
              refine goOn v hs ?_
              simp only [State.primTurn, State.waitTurn_unseen cycles (hsense l rfl) hv, ht]
              rfl
        | delay us =>
          simp only [List.map_cons, needOf, serve] at hs
          split at hs
          · rename_i hv
            exact main s.advance (by simp [State.primTurn, State.delayTurn, State.elapsed, hv]) v hs rfl
          · rename_i hv
            exact goOn v hs (by simp [State.primTurn, State.delayTurn, State.elapsed, hv])
        | settle =>
          simp only [List.map_cons, needOf, serve] at hs
          split at hs
          · rename_i hv
            exact main s.advance (by simp [State.primTurn, State.delayTurn, State.elapsed, hv]) v hs rfl
          · rename_i hv
            exact goOn v hs (by simp [State.primTurn, State.delayTurn, State.elapsed, hv])
        | sampleRxBit i =>
          simp only [List.map_cons, needOf, serve, Option.map_eq_some_iff] at hs
          obtain ⟨w, hw, rfl⟩ := hs
          exact main _ rfl w hw (by simp [keepsSample, sensedBy, s.dev_eq])
        | senseLine l =>
          simp only [List.map_cons, needOf, serve, Option.map_eq_some_iff] at hs
          obtain ⟨w, hw, rfl⟩ := hs
          exact main _ rfl w hw (by simp [keepsSample, sensedBy, s.dev_eq])
        | _ => exact main _ rfl v hs rfl

/-! ## Needs one after the other -/

/-- What the needs `ms` leave of what the needs before them left. -/
def Served.andThen (p : Params) (ms : List Need) (v : Served) : Option Served :=
  (serve p v.rest ms v.devClk v.devData 0).map fun w => { w with samples := v.samples ++ w.samples }

theorem serveStill_append (clk data : Bool) (ns ms : List Need) :
    serveStill clk data (ns ++ ms) =
      (serveStill clk data ns).bind fun bs => (serveStill clk data ms).map (bs ++ ·) := by
  induction ns with
  | nil => simp [serveStill]
  | cons n ns ih =>
    cases n with
    | see l v => by_cases h : levelOf clk data l = v <;> simp [serveStill, h, ih]
    | sample l =>
      simp only [List.cons_append, serveStill, ih]
      cases serveStill clk data ns <;> cases serveStill clk data ms <;> simp
    | _ => simpa only [List.cons_append, serveStill] using ih

/-- A schedule meets a list of needs by meeting its first part, and then the second with what is left. -/
theorem serve_append (p : Params) (ts : List Turn) :
    ∀ (ns ms : List Need) (clk data : Bool) (spent : Nat), ns ≠ [] ∨ spent = 0 →
      serve p ts (ns ++ ms) clk data spent = (serve p ts ns clk data spent).bind (Served.andThen p ms) := by
  have nil : ∀ ts ms clk data, serve p ts ms clk data 0 =
      (serve p ts [] clk data 0).bind (Served.andThen p ms) := by
    intro ts ms clk data
    cases ts <;> simp [serve, serveStill, Served.andThen, Function.comp_def]
  have sample : ∀ (b : Bool) (o : Option Served) (ms : List Need),
      (o.bind (Served.andThen p ms)).map (Served.withSample b) =
        (o.map (Served.withSample b)).bind (Served.andThen p ms) := by
    intro b o ms
    cases o with
    | none => rfl
    | some v => simp [Served.andThen, Served.withSample, Function.comp_def]
  induction ts with
  | nil =>
    intro ns ms clk data spent _
    simp only [serve, serveStill_append]
    cases serveStill clk data ns with
    | none => rfl
    | some bs => cases h : serveStill clk data ms <;> simp [Served.andThen, serve, h]
  | cons t ts ih =>
    intro ns ms clk data spent h
    cases ns with
    | nil =>
      rcases h with h | rfl
      · exact absurd rfl h
      · exact nil _ _ _ _
    | cons n ns =>
      cases t with
      | device clk' data' => exact ih (n :: ns) ms clk' data' spent (.inl (by simp))
      | caller o => exact ih (n :: ns) ms clk data spent (.inl (by simp))
      | reset => rfl
      | host cycles =>
        cases n with
        | turn => exact ih ns ms clk data 0 (.inr rfl)
        | see l v =>
          simp only [List.cons_append, serve]
          split
          · exact ih ns ms clk data 0 (.inr rfl)
          · split
            · rfl
            · exact ih (.see l v :: ns) ms clk data _ (.inl (by simp))
        | pass us =>
          simp only [List.cons_append, serve]
          split
          · exact ih ns ms clk data 0 (.inr rfl)
          · exact ih (.pass us :: ns) ms clk data _ (.inl (by simp))
        | sample l =>
          simp only [List.cons_append, serve, ih ns ms clk data 0 (.inr rfl)]
          exact sample _ _ _

/-- What is left of a schedule is the end of it. -/
theorem serve_rest_suffix (p : Params) (ts : List Turn) :
    ∀ (ns : List Need) (clk data : Bool) (spent : Nat) (v : Served),
      serve p ts ns clk data spent = some v → v.rest <:+ ts := by
  induction ts with
  | nil =>
    intro ns clk data spent v h
    simp only [serve, Option.map_eq_some_iff] at h
    obtain ⟨_, -, rfl⟩ := h
    exact List.suffix_refl _
  | cons t ts ih =>
    intro ns clk data spent v h
    have step : ∀ ns clk data spent, serve p ts ns clk data spent = some v → v.rest <:+ t :: ts :=
      fun ns clk data spent h => (ih ns clk data spent v h).trans (List.suffix_cons t ts)
    cases ns with
    | nil => simp only [serve, Option.some.injEq] at h; subst h; exact List.suffix_refl _
    | cons n ns =>
      cases t with
      | device => exact step _ _ _ _ h
      | caller => exact step _ _ _ _ h
      | reset => cases h
      | host cycles =>
        cases n with
        | turn => exact step _ _ _ _ h
        | see l lv =>
          simp only [serve] at h
          split at h
          · exact step _ _ _ _ h
          · split at h
            · cases h
            · exact step _ _ _ _ h
        | pass us =>
          simp only [serve] at h
          split at h
          · exact step _ _ _ _ h
          · exact step _ _ _ _ h
        | sample l =>
          simp only [serve, Option.map_eq_some_iff] at h
          obtain ⟨w, hw, rfl⟩ := h
          exact (ih _ _ _ _ w hw).trans (List.suffix_cons _ ts)

end Sys2Proof.Machine
end

