-- ==== Sys2Proof/Laws/Unserved.lean ====
section
/-! SUPPORT. Laws/Unserved.lean: a command whose needs the schedule does not meet. With the default timeout it is held at
one of its waits (R69, R126); with a finite one it takes its timeout part (R103). -/

namespace Sys2Proof.Machine

theorem RanTo.refl (s : State) : RanTo s [] [] s := ⟨rfl, rfl, rfl, rfl, rfl, rfl⟩

/-- A run of nothing more does not see the schedule. -/
theorem RanTo.setSchedule {s t : State} {ps : List Prim} {bs : List Bool} (h : RanTo s ps bs t) (ts : List Turn) :
    RanTo s ps bs (t.setSchedule ts) :=
  ⟨h.block, h.params, h.draws, h.cmd, h.aborting, h.pos⟩

/-- With no timeout, a wait that is not over changes nothing but `TIMER`. -/
theorem runQuiet_of_unserved (k : State → State) (ps ps2 : List Prim) :
    ∀ s : State, s.params.waitTimeoutUs = none → inputsOk ps s.lines →
      serveStill s.env.devClk s.env.devData (ps.map (needOf s.params)) = none →
        ∃ pre p post bs, ps = pre ++ p :: post ∧ RanTo s pre bs (runQuiet k (ps ++ ps2) s) := by
  induction ps with
  | nil => intro s _ _ hs; cases hs
  | cons p ps ih =>
    intro s hinf hin hs
    obtain ⟨hsense, -⟩ := inputsOk_cons (k := s.block) false hin
    have main : ∀ s', s.primTurn p none = .done s' →
        serveStill s.env.devClk s.env.devData (ps.map (needOf s.params)) = none →
        ∃ pre q post bs, p :: ps = pre ++ q :: post ∧ RanTo s pre bs (runQuiet k (p :: ps ++ ps2) s) := by
      intro s' hp hbs
      obtain ⟨hb, henv, hpar, -⟩ := State.primTurn_done hsense hp
      have hlines : s'.lines = (s.block.effect ((sensedBy p).elim false s.env.dev) p).lines := by
        rw [← hb]; rfl
      obtain ⟨pre, q, post, bs, rfl, hran⟩ := ih s' (hpar ▸ hinf)
        (hlines ▸ (inputsOk_cons (k := s.block) _ hin).2) (by rw [henv, hpar]; exact hbs)
      have hran := RanTo.cons hsense hp hran
      refine ⟨p :: pre, q, post, if keepsSample p then (sensedBy p).elim false s.env.dev :: bs else bs, rfl, ?_⟩
      rw [List.cons_append, runQuiet, hp]
      exact hran
    cases p with
    | waitUntil l v =>
      simp only [List.map_cons, needOf, serveStill] at hs
      split at hs
      · rename_i hv
        refine main s.advance ?_ hs
        simp only [State.primTurn, State.waitTurn_infinite hinf, State.sense_of_input (hsense l rfl), s.dev_eq, hv,
          if_true]
      · rename_i hv
        refine ⟨[], .waitUntil l v, ps, [], rfl, ?_⟩
        have hp : s.primTurn (.waitUntil l v) none = .hold (s.tick 0) := by
          simp only [State.primTurn, State.waitTurn_infinite hinf, State.sense_of_input (hsense l rfl), s.dev_eq, hv,
            if_false, Option.getD_none]
        rw [List.cons_append, runQuiet, hp]
        exact State.tick_ranTo (n := 0) (RanTo.refl _)
    | sampleRxBit i =>
      simp only [List.map_cons, needOf, serveStill, Option.map_eq_none_iff] at hs
      exact main _ rfl hs
    | senseLine l =>
      simp only [List.map_cons, needOf, serveStill, Option.map_eq_none_iff] at hs
      exact main _ rfl hs
    | _ => exact main _ rfl hs

/-- With no timeout and no reset, an unserved command is held at a primitive of its list, with the effects of the ones
before it (R69, R126). -/
theorem runTurns_of_unserved (abortPs : List Prim) (ps2 : List Prim) (ts : List Turn) (hreset : Turn.reset ∉ ts) :
    ∀ (ps : List Prim) (s : State), s.params.waitTimeoutUs = none → inputsOk ps s.lines →
      serve s.params ts (ps.map (needOf s.params)) s.env.devClk s.env.devData s.seq.timer = none →
        ∃ pre p post bs, ps = pre ++ p :: post ∧ RanTo s pre bs (runTurns abortPs ts (ps ++ ps2) s) := by
  induction ts with
  | nil =>
    intro ps s hinf hin hs
    simp only [serve, Option.map_eq_none_iff] at hs
    obtain ⟨pre, p, post, bs, h, hran⟩ := runQuiet_of_unserved (runQuiet id abortPs) ps ps2 s hinf hin hs
    exact ⟨pre, p, post, bs, h, by rw [runTurns]; exact hran.setSchedule []⟩
  | cons turn ts ih =>
    have ih := ih (fun h => hreset (List.mem_cons_of_mem _ h))
    intro ps s hinf hin hs
    cases ps with
    | nil => simp only [List.map_nil, serve] at hs; cases hs
    | cons p ps =>
      obtain ⟨hsense, -⟩ := inputsOk_cons (k := s.block) false hin
      cases turn with
      | device clk data =>
        simp only [List.map_cons, serve] at hs
        obtain ⟨pre, q, post, bs, h, hran⟩ := ih (p :: ps) (s.deviceMove clk data) hinf hin hs
        exact ⟨pre, q, post, bs, h, State.deviceMove_ranTo hran⟩
      | caller offer =>
        simp only [List.map_cons, serve] at hs
        obtain ⟨pre, q, post, bs, h, hran⟩ := ih (p :: ps) (s.setOffer offer) hinf hin hs
        exact ⟨pre, q, post, bs, h, State.setOffer_ranTo hran⟩
      | reset => exact absurd (List.mem_cons_self ..) hreset
      | host cycles =>
        have main : ∀ s', s.primTurn p (some cycles) = .done s' →
            serve s.params ts (ps.map (needOf s.params)) s.env.devClk s.env.devData 0 = none →
            ∃ pre q post bs, p :: ps = pre ++ q :: post ∧
              RanTo s pre bs (runTurns abortPs (.host cycles :: ts) (p :: ps ++ ps2) s) := by
          intro s' hp hw
          obtain ⟨hb, henv, hpar, -, htimer, -⟩ := State.primTurn_done hsense hp
          have hlines : s'.lines = (s.block.effect ((sensedBy p).elim false s.env.dev) p).lines := by
            rw [← hb]; rfl
          obtain ⟨pre, q, post, bs, rfl, hran⟩ := ih ps s' (hpar ▸ hinf)
            (hlines ▸ (inputsOk_cons (k := s.block) _ hin).2) (by rw [henv, hpar, htimer]; exact hw)
          have hran := RanTo.cons hsense hp hran
          refine ⟨p :: pre, q, post, if keepsSample p then (sensedBy p).elim false s.env.dev :: bs else bs, rfl, ?_⟩
          rw [List.cons_append, runTurns, hp]
          exact hran
        have goOn : serve s.params ts ((p :: ps).map (needOf s.params)) s.env.devClk s.env.devData
              (s.seq.timer + cycles) = none →
            s.primTurn p (some cycles) = .hold (s.tick cycles) →
            ∃ pre q post bs, p :: ps = pre ++ q :: post ∧
              RanTo s pre bs (runTurns abortPs (.host cycles :: ts) (p :: ps ++ ps2) s) := by
          intro hw hp
          obtain ⟨pre, q, post, bs, h, hran⟩ := ih (p :: ps) (s.tick cycles) hinf hin hw
          refine ⟨pre, q, post, bs, h, ?_⟩
          rw [List.cons_append, runTurns, hp]
          exact State.tick_ranTo hran
        cases p with
        | waitUntil l lv =>
          simp only [List.map_cons, needOf, serve] at hs
          split at hs
          · rename_i hv
            refine main s.advance ?_ hs
            simp only [State.primTurn, State.waitTurn, State.sense_of_input (hsense l rfl), s.dev_eq, hv, if_true]
          · rename_i hv
            have ht : timedOut s.params (s.seq.timer + cycles) = false := by simp [timedOut, hinf]
            refine goOn (by simpa [ht, needOf] using hs) ?_
            simp only [State.primTurn, State.waitTurn_unseen cycles (hsense l rfl) hv, ht]
            rfl
        | delay us =>
          simp only [List.map_cons, needOf, serve] at hs
          split at hs
          · rename_i hv
            exact main s.advance (by simp [State.primTurn, State.delayTurn, State.elapsed, hv]) hs
          · rename_i hv
            exact goOn hs (by simp [State.primTurn, State.delayTurn, State.elapsed, hv])
        | settle =>
          simp only [List.map_cons, needOf, serve] at hs
          split at hs
          · rename_i hv
            exact main s.advance (by simp [State.primTurn, State.delayTurn, State.elapsed, hv]) hs
          · rename_i hv
            exact goOn hs (by simp [State.primTurn, State.delayTurn, State.elapsed, hv])
        | sampleRxBit i =>
          simp only [List.map_cons, needOf, serve, Option.map_eq_none_iff] at hs
          exact main _ rfl hs
        | senseLine l =>
          simp only [List.map_cons, needOf, serve, Option.map_eq_none_iff] at hs
          exact main _ rfl hs
        | _ => exact main _ rfl hs

/-! ## A finite timeout -/

/-- Primitives without a wait never take the timeout part. -/
theorem runQuiet_without_wait {ps : List Prim} (h : ∀ p ∈ ps, isWaitUntil p = false) (k k' : State → State) :
    ∀ s, runQuiet k ps s = runQuiet k' ps s := by
  induction ps with
  | nil => intro s; rfl
  | cons p ps ih =>
    intro s
    have hw := h p (List.mem_cons_self ..)
    have ih := ih (fun q hq => h q (List.mem_cons_of_mem _ hq))
    rw [runQuiet, runQuiet]
    cases hp : s.primTurn p none with
    | done s' => exact ih s'
    | hold s' => rfl
    | timeout s' =>
      cases p with
      | waitUntil => simp [isWaitUntil] at hw
      | delay us => rcases s.delayTurn_cases none us with ⟨-, e⟩ | ⟨-, e⟩ <;> simp [State.primTurn, e] at hp
      | settle =>
        rcases s.delayTurn_cases none s.params.tSettleUs with ⟨-, e⟩ | ⟨-, e⟩ <;> simp [State.primTurn, e] at hp
      | _ => simp [State.primTurn] at hp

/-- With a finite timeout and no reset, an unserved command takes its timeout part from one of its waits, with the
effects of the primitives before it (R103). -/
theorem runTurns_of_timeout {us : Nat} {abortPs : List Prim} (habort : ∀ p ∈ abortPs, isWaitUntil p = false)
    (ps2 : List Prim) (ts : List Turn) (hreset : Turn.reset ∉ ts) :
    ∀ (ps : List Prim) (s : State), s.params.waitTimeoutUs = some us → inputsOk ps s.lines →
      serve s.params ts (ps.map (needOf s.params)) s.env.devClk s.env.devData s.seq.timer = none →
        ∃ pre p post bs t ts', ps = pre ++ p :: post ∧ isWaitUntil p = true ∧ Turn.reset ∉ ts' ∧ RanTo s pre bs t ∧
          runTurns abortPs ts (ps ++ ps2) s = runTurns abortPs ts' abortPs t.abort := by
  have quiet : ∀ (ps : List Prim) (s : State), s.params.waitTimeoutUs = some us → inputsOk ps s.lines →
      serveStill s.env.devClk s.env.devData (ps.map (needOf s.params)) = none →
        ∃ pre p post bs t, ps = pre ++ p :: post ∧ isWaitUntil p = true ∧ RanTo s pre bs t ∧
          ∀ k, runQuiet k (ps ++ ps2) s = k t.abort := by
    intro ps
    induction ps with
    | nil => intro s _ _ hs; cases hs
    | cons p ps ih =>
      intro s hfin hin hs
      obtain ⟨hsense, -⟩ := inputsOk_cons (k := s.block) false hin
      have main : ∀ s', s.primTurn p none = .done s' →
          serveStill s.env.devClk s.env.devData (ps.map (needOf s.params)) = none →
          ∃ pre q post bs t, p :: ps = pre ++ q :: post ∧ isWaitUntil q = true ∧ RanTo s pre bs t ∧
            ∀ k, runQuiet k (p :: ps ++ ps2) s = k t.abort := by
        intro s' hp hbs
        obtain ⟨hb, henv, hpar, -⟩ := State.primTurn_done hsense hp
        have hlines : s'.lines = (s.block.effect ((sensedBy p).elim false s.env.dev) p).lines := by
          rw [← hb]; rfl
        obtain ⟨pre, q, post, bs, t, rfl, hq, hran, hk⟩ := ih s' (hpar ▸ hfin)
          (hlines ▸ (inputsOk_cons (k := s.block) _ hin).2) (by rw [henv, hpar]; exact hbs)
        refine ⟨p :: pre, q, post, _, t, rfl, hq, RanTo.cons hsense hp hran, fun k => ?_⟩
        rw [List.cons_append, runQuiet, hp]
        exact hk k
      cases p with
      | waitUntil l v =>
        simp only [List.map_cons, needOf, serveStill] at hs
        split at hs
        · rename_i hv
          refine main s.advance ?_ hs
          simp only [State.primTurn, State.waitTurn, State.sense_of_input (hsense l rfl), s.dev_eq, hv, if_true]
        · rename_i hv
          refine ⟨[], .waitUntil l v, ps, [], s, rfl, rfl, RanTo.refl _, fun k => ?_⟩
          have hp : s.primTurn (.waitUntil l v) none = .timeout s.abort := by
            simp only [State.primTurn, State.waitTurn, State.sense_of_input (hsense l rfl), s.dev_eq, hv, if_false,
              hfin, State.elapsed, if_true]
          rw [List.cons_append, runQuiet, hp]
      | sampleRxBit i =>
        simp only [List.map_cons, needOf, serveStill, Option.map_eq_none_iff] at hs
        exact main _ rfl hs
      | senseLine l =>
        simp only [List.map_cons, needOf, serveStill, Option.map_eq_none_iff] at hs
        exact main _ rfl hs
      | _ => exact main _ rfl hs
  induction ts with
  | nil =>
    intro ps s hfin hin hs
    simp only [serve, Option.map_eq_none_iff] at hs
    obtain ⟨pre, p, post, bs, t, h, hw, hran, hk⟩ := quiet ps s hfin hin hs
    refine ⟨pre, p, post, bs, t, [], h, hw, by simp, hran, ?_⟩
    rw [runTurns, runTurns, hk, runQuiet_without_wait habort (runQuiet id abortPs) id]
  | cons turn ts ih =>
    have ih := ih (fun h => hreset (List.mem_cons_of_mem _ h))
    intro ps s hfin hin hs
    cases ps with
    | nil => simp only [List.map_nil, serve] at hs; cases hs
    | cons p ps =>
      obtain ⟨hsense, -⟩ := inputsOk_cons (k := s.block) false hin
      cases turn with
      | device clk data =>
        simp only [List.map_cons, serve] at hs
        obtain ⟨pre, q, post, bs, t, ts', h, hw, hr, hran, hrun⟩ := ih (p :: ps) (s.deviceMove clk data) hfin hin hs
        exact ⟨pre, q, post, bs, t, ts', h, hw, hr, State.deviceMove_ranTo hran, hrun⟩
      | caller offer =>
        simp only [List.map_cons, serve] at hs
        obtain ⟨pre, q, post, bs, t, ts', h, hw, hr, hran, hrun⟩ := ih (p :: ps) (s.setOffer offer) hfin hin hs
        exact ⟨pre, q, post, bs, t, ts', h, hw, hr, State.setOffer_ranTo hran, hrun⟩
      | reset => exact absurd (List.mem_cons_self ..) hreset
      | host cycles =>
        have main : ∀ s', s.primTurn p (some cycles) = .done s' →
            serve s.params ts (ps.map (needOf s.params)) s.env.devClk s.env.devData 0 = none →
            ∃ pre q post bs t ts', p :: ps = pre ++ q :: post ∧ isWaitUntil q = true ∧ Turn.reset ∉ ts' ∧ RanTo s pre bs t ∧
              runTurns abortPs (.host cycles :: ts) (p :: ps ++ ps2) s = runTurns abortPs ts' abortPs t.abort := by
          intro s' hp hw
          obtain ⟨hb, henv, hpar, -, htimer, -⟩ := State.primTurn_done hsense hp
          have hlines : s'.lines = (s.block.effect ((sensedBy p).elim false s.env.dev) p).lines := by
            rw [← hb]; rfl
          obtain ⟨pre, q, post, bs, t, ts', rfl, hq, hr, hran, hrun⟩ := ih ps s' (hpar ▸ hfin)
            (hlines ▸ (inputsOk_cons (k := s.block) _ hin).2) (by rw [henv, hpar, htimer]; exact hw)
          refine ⟨p :: pre, q, post, _, t, ts', rfl, hq, hr, RanTo.cons hsense hp hran, ?_⟩
          rw [List.cons_append, runTurns, hp]
          exact hrun
        have goOn : serve s.params ts ((p :: ps).map (needOf s.params)) s.env.devClk s.env.devData
              (s.seq.timer + cycles) = none →
            s.primTurn p (some cycles) = .hold (s.tick cycles) →
            ∃ pre q post bs t ts', p :: ps = pre ++ q :: post ∧ isWaitUntil q = true ∧ Turn.reset ∉ ts' ∧ RanTo s pre bs t ∧
              runTurns abortPs (.host cycles :: ts) (p :: ps ++ ps2) s = runTurns abortPs ts' abortPs t.abort := by
          intro hw hp
          obtain ⟨pre, q, post, bs, t, ts', h, hq, hr, hran, hrun⟩ := ih (p :: ps) (s.tick cycles) hfin hin hw
          refine ⟨pre, q, post, bs, t, ts', h, hq, hr, State.tick_ranTo hran, ?_⟩
          rw [List.cons_append, runTurns, hp]
          exact hrun
        cases p with
        | waitUntil l lv =>
          simp only [List.map_cons, needOf, serve] at hs
          split at hs
          · rename_i hv
            refine main s.advance ?_ hs
            simp only [State.primTurn, State.waitTurn, State.sense_of_input (hsense l rfl), s.dev_eq, hv, if_true]
          · rename_i hv
            have hp := State.waitTurn_unseen cycles (hsense l rfl) hv
            split at hs
            · rename_i ht
              refine ⟨[], .waitUntil l lv, ps, [], s, ts, rfl, rfl, fun h => hreset (List.mem_cons_of_mem _ h),
                RanTo.refl _, ?_⟩
              rw [List.cons_append, runTurns]
              simp only [State.primTurn, hp, ht, if_true]
            · rename_i ht
              refine goOn hs ?_
              simp only [State.primTurn, hp, ht]
              rfl
        | delay us' =>
          simp only [List.map_cons, needOf, serve] at hs
          split at hs
          · rename_i hv
            exact main s.advance (by simp [State.primTurn, State.delayTurn, State.elapsed, hv]) hs
          · rename_i hv
            exact goOn hs (by simp [State.primTurn, State.delayTurn, State.elapsed, hv])
        | settle =>
          simp only [List.map_cons, needOf, serve] at hs
          split at hs
          · rename_i hv
            exact main s.advance (by simp [State.primTurn, State.delayTurn, State.elapsed, hv]) hs
          · rename_i hv
            exact goOn hs (by simp [State.primTurn, State.delayTurn, State.elapsed, hv])
        | sampleRxBit i =>
          simp only [List.map_cons, needOf, serve, Option.map_eq_none_iff] at hs
          exact main _ rfl hs
        | senseLine l =>
          simp only [List.map_cons, needOf, serve, Option.map_eq_none_iff] at hs
          exact main _ rfl hs
        | _ => exact main _ rfl hs

end Sys2Proof.Machine
end

