-- ==== Sys2Proof/Laws/Command.lean ====
section
/-! SUPPORT. Laws/Command.lean: the three ways a command of an idle block goes, said once for every command: its needs are
met and it has done all its primitives; they are not and it is held; they are not and it times out. -/

namespace Sys2Proof.Machine

/-- A command whose needs are met does all its primitives and leaves the rest of the schedule. -/
theorem runCommand_of_serve {s : State} {i : Instr} {ps : List Prim} (abortPs : List Prim) {v : Served}
    (hne : ps ≠ []) (hidle : s.seq.busy = false) (hin : inputsOk ps s.lines)
    (hs : s.serves (ps.map (needOf s.params)) = some v) :
    ∃ t, runCommand i ps abortPs s = .next t ∧ RanTo (s.accept i) ps v.samples t ∧ t.env.schedule = v.rest ∧
      t.env.devClk = v.devClk ∧ t.env.devData = v.devData := by
  obtain ⟨p, rest, rfl⟩ := List.exists_cons_of_ne_nil hne
  obtain ⟨t, hrun, hran, h1, h2, -⟩ := runTurns_of_serve abortPs s.env.schedule (p :: rest) (s.accept i) v hin hs
  refine ⟨t.setSchedule v.rest, ?_, hran.setSchedule _, rfl, h1, h2⟩
  rw [runCommand_of_idle hidle]
  have := hrun []
  rw [List.append_nil] at this
  rw [this]
  cases v.rest <;> rfl

/-- A command that awaits no level, and is not cut off by a reset, does all its primitives, and no reset is left to
come. -/
theorem runCommand_of_noReset {s : State} {i : Instr} {ps : List Prim} (abortPs : List Prim) (hne : ps ≠ [])
    (hidle : s.seq.busy = false) (hreset : s.noReset) (hin : inputsOk ps s.lines)
    (hwait : ∀ l v, Prim.waitUntil l v ∉ ps) :
    ∃ t bs, runCommand i ps abortPs s = .next t ∧ RanTo (s.accept i) ps bs t ∧ t.noReset := by
  have hns : ∀ l v, Need.see l v ∉ ps.map (needOf s.params) := by
    intro l v hm
    obtain ⟨p, hp, he⟩ := List.mem_map.1 hm
    cases p <;> simp [needOf] at he
    rename_i l' v'
    exact hwait l' v' hp
  obtain ⟨v, hv⟩ := serve_of_no_see s.params _ hreset _ hns s.env.devClk s.env.devData 0
  obtain ⟨t, h, hran, hrest, -⟩ := runCommand_of_serve (i := i) abortPs hne hidle hin hv
  exact ⟨t, _, h, hran, fun hm => hreset ((serve_rest_suffix _ _ _ _ _ _ _ hv).subset (hrest ▸ hm))⟩

/-- With no timeout and no reset, a command whose needs are not met is held at one of its primitives. -/
theorem runCommand_of_unserved {s : State} {i : Instr} {ps ps2 : List Prim} (abortPs : List Prim) (hne : ps ≠ [])
    (hidle : s.seq.busy = false) (hreset : s.noReset) (hinf : s.params.waitTimeoutUs = none)
    (hin : inputsOk ps s.lines) (hs : s.serves (ps.map (needOf s.params)) = none) :
    ∃ t pre p post bs, runCommand i (ps ++ ps2) abortPs s = .next t ∧ ps = pre ++ p :: post ∧
      RanTo (s.accept i) pre bs t := by
  obtain ⟨q, rest, rfl⟩ := List.exists_cons_of_ne_nil hne
  obtain ⟨pre, p, post, bs, h, hran⟩ :=
    runTurns_of_unserved abortPs ps2 s.env.schedule hreset (q :: rest) (s.accept i) hinf hin hs
  exact ⟨_, pre, p, post, bs, by rw [List.cons_append, runCommand_of_idle hidle], h, hran⟩

/-- With a finite timeout and no reset, a command whose needs are not met takes its timeout part from one of its
waits, and does all of that part. -/
theorem runCommand_of_timeout {s : State} {i : Instr} {ps ps2 abortPs : List Prim} {us : Nat} (hne : ps ≠ [])
    (hidle : s.seq.busy = false) (hreset : s.noReset) (hfin : s.params.waitTimeoutUs = some us)
    (hin : inputsOk ps s.lines) (hs : s.serves (ps.map (needOf s.params)) = none)
    (habort : ∀ l v, Prim.waitUntil l v ∉ abortPs) (hain : ∀ r, inputsOk abortPs r) :
    ∃ t pre p post bs u bs', runCommand i (ps ++ ps2) abortPs s = .next u ∧ ps = pre ++ p :: post ∧
      isWaitUntil p = true ∧ RanTo (s.accept i) pre bs t ∧ RanTo t.abort abortPs bs' u := by
  obtain ⟨q, rest, rfl⟩ := List.exists_cons_of_ne_nil hne
  have hnw : ∀ p ∈ abortPs, isWaitUntil p = false := by
    intro p hp
    cases p with
    | waitUntil l v => exact absurd hp (habort l v)
    | _ => rfl
  obtain ⟨pre, p, post, bs, t, ts', h, hw, hr, hran, hrun⟩ :=
    runTurns_of_timeout hnw ps2 s.env.schedule hreset (q :: rest) (s.accept i) hfin hin hs
  have hns : ∀ l v, Need.see l v ∉ abortPs.map (needOf t.abort.params) := by
    intro l v hm
    obtain ⟨p, hp, he⟩ := List.mem_map.1 hm
    cases p <;> simp [needOf] at he
    rename_i l' v'
    exact habort l' v' hp
  obtain ⟨v, hv⟩ := serve_of_no_see t.abort.params ts' hr _ hns t.abort.env.devClk t.abort.env.devData 0
  obtain ⟨u, hu, hranu, -⟩ := runTurns_of_serve abortPs ts' abortPs t.abort v (hain _) hv
  refine ⟨t, pre, p, post, bs, u.setSchedule v.rest, v.samples, ?_, h, hw, hran, hranu.setSchedule _⟩
  rw [List.cons_append, runCommand_of_idle hidle]
  have h2 := hu []
  rw [List.append_nil] at h2
  rw [List.cons_append] at hrun
  have : runTurns abortPs v.rest [] u = u.setSchedule v.rest := by cases v.rest <;> rfl
  rw [← this, ← h2, ← hrun]

/-- With a finite timeout and no reset, a command whose wait `p` is the first need that is not met takes its timeout part
from `p`, with the effects of the primitives before it (R103). -/
theorem runCommand_of_timeout_at {s : State} {i : Instr} {pre post abortPs : List Prim} {p : Prim} {us : Nat}
    (hidle : s.seq.busy = false) (hreset : s.noReset) (hfin : s.params.waitTimeoutUs = some us)
    (hin : inputsOk (pre ++ [p]) s.lines) {v : Served} (hpre : s.serves (pre.map (needOf s.params)) = some v)
    (hp : s.serves ((pre ++ [p]).map (needOf s.params)) = none) (habort : ∀ l v, Prim.waitUntil l v ∉ abortPs)
    (hain : ∀ r, inputsOk abortPs r) :
    ∃ t u bs, runCommand i (pre ++ p :: post) abortPs s = .next u ∧ RanTo (s.accept i) pre v.samples t ∧
      RanTo t.abort abortPs bs u := by
  have hnw : ∀ q ∈ abortPs, isWaitUntil q = false := by
    intro q hq
    cases q with
    | waitUntil l v => exact absurd hq (habort l v)
    | _ => rfl
  have hinpre : ∀ (ps qs : List Prim) (r : Lines), inputsOk (ps ++ qs) r → inputsOk ps r := by
    intro ps qs
    induction ps with
    | nil => intros; trivial
    | cons q ps ih =>
      intro r h
      cases q with
      | writeDir l d => exact ih _ h
      | _ => exact ⟨h.1, ih _ h.2⟩
  obtain ⟨t, hrun, hran, h1, h2, htm⟩ :=
    runTurns_of_serve abortPs s.env.schedule pre (s.accept i) v (hinpre _ _ _ hin) hpre
  have hpar : t.params = s.params := hran.params
  have htimer : t.seq.timer = 0 := htm.trans (timerAfter_of_zero pre rfl)
  have hpne : serve t.params v.rest ([p].map (needOf t.params)) t.env.devClk t.env.devData t.seq.timer = none := by
    have h := hp
    rw [State.serves, List.map_append, serve_append _ _ _ _ _ _ _ (.inr rfl), ← State.serves, hpre] at h
    simpa [Served.andThen, hpar, h1, h2, htimer] using h
  have hinp : inputsOk [p] t.lines := by
    rw [hran.lines]
    have : ∀ (ps : List Prim) (k : Block) (bs : List Bool), inputsOk (ps ++ [p]) k.lines →
        inputsOk [p] (k.run ps bs).lines := by
      intro ps
      induction ps with
      | nil => intro k bs h; exact h
      | cons q ps ih =>
        intro k bs h
        rw [Block.run]
        split
        · exact ih _ _ (inputsOk_cons _ h).2
        · exact ih _ _ (inputsOk_cons _ h).2
    exact this pre (s.accept i).block v.samples hin
  have hr : Turn.reset ∉ v.rest := fun hm => hreset ((serve_rest_suffix _ _ _ _ _ _ _ hpre).subset hm)
  obtain ⟨pre', p', post', bs, t', ts', hsplit, -, hr', hran', hrun'⟩ :=
    runTurns_of_timeout (us := us) hnw post v.rest hr [p] t (hpar ▸ hfin) hinp hpne
  obtain ⟨rfl, rfl, rfl⟩ : pre' = [] ∧ p' = p ∧ post' = [] := by
    cases pre' with
    | nil => simp at hsplit; simp [hsplit]
    | cons q qs => simp at hsplit
  have hns : ∀ l v, Need.see l v ∉ abortPs.map (needOf t'.abort.params) := by
    intro l v hm
    obtain ⟨q, hq, he⟩ := List.mem_map.1 hm
    cases q <;> simp [needOf] at he
    rename_i l' v'
    exact habort l' v' hq
  obtain ⟨w, hw⟩ := serve_of_no_see t'.abort.params ts' hr' _ hns t'.abort.env.devClk t'.abort.env.devData 0
  obtain ⟨u, hu, hranu, -⟩ := runTurns_of_serve abortPs ts' abortPs t'.abort w (hain _) hw
  have h2 := hu []
  rw [List.append_nil] at h2
  refine ⟨t', u.setSchedule w.rest, w.samples, ?_, ?_, hranu.setSchedule _⟩
  · obtain ⟨q, qs, hq⟩ : ∃ q qs, pre ++ p' :: post = q :: qs := by cases pre <;> simp
    have h3 := hrun (p' :: post)
    rw [hq] at h3 ⊢
    rw [runCommand_of_idle hidle, h3]
    simp only [List.cons_append, List.nil_append] at hrun'
    rw [hrun', h2]
    cases w.rest <;> rfl
  · exact ⟨hran'.block.trans (by simpa [Block.run] using hran.block), hran'.params.trans hran.params,
      hran'.draws.trans hran.draws, hran'.cmd.trans hran.cmd, hran'.aborting.trans hran.aborting,
      hran'.pos.trans (by simpa using hran.pos)⟩

end Sys2Proof.Machine
end

