-- ==== Sys2Proof/Laws/PerInstr.lean ====
section
/-! SUPPORT. Laws/PerInstr.lean: what holds of every command as syntax, one lemma per constructor: its word carries zeros
in the fields it does not use (30_encoding.md rule R62), and is one of the legal words (R52) exactly when the command is
well formed. -/

namespace Sys2Proof

/-- A word put together from its fields, bit by bit. -/
theorem getLsbD_packWord (op : BitVec 4) (ln : BitVec 2) (v : Bool) (b : Byte) (i : Nat) :
    (packWord op ln v b).getLsbD i =
      if i < 8 then b.getLsbD i else if i = 8 then v else if i = 9 then false
        else if i < 12 then ln.getLsbD (i - 10) else op.getLsbD (i - 12) := by
  show (op ++ ln ++ 0#1 ++ BitVec.ofBool v ++ b : BitVec (4 + 2 + 1 + 1 + 8)).getLsbD i = _
  simp only [BitVec.getLsbD_append]
  by_cases h1 : i < 8
  · simp [h1]
  by_cases h2 : i = 8
  · subst h2; simp
  by_cases h3 : i = 9
  · subst h3; simp
  by_cases h4 : i < 12
  · have a : ¬ i - 8 < 1 := by omega
    have c : ¬ i - 8 - 1 < 1 := by omega
    have d : i - 8 - 1 - 1 < 2 := by omega
    have e : i - 8 - 1 - 1 = i - 10 := by omega
    have f : i - 10 < 2 := by omega
    simp only [h1, h2, h3, h4, a, c, e, f, if_true, if_false]
  · have a : ¬ i - 8 < 1 := by omega
    have c : ¬ i - 8 - 1 < 1 := by omega
    have d : ¬ i - 8 - 1 - 1 < 2 := by omega
    have e : i - 8 - 1 - 1 - 2 = i - 12 := by omega
    simp only [h1, h2, h3, h4, a, c, d, e, if_false]

/-- `OP` of a word put together from its fields. -/
theorem opField_packWord (op : BitVec 4) (ln : BitVec 2) (v : Bool) (b : Byte) :
    opField (packWord op ln v b) = op := by
  apply BitVec.eq_of_getLsbD_eq
  intro i hi
  have h : i = 0 ∨ i = 1 ∨ i = 2 ∨ i = 3 := by omega
  rw [opField, BitVec.getLsbD_extractLsb', getLsbD_packWord]
  rcases h with rfl | rfl | rfl | rfl <;> simp

/-- A word whose one operand is a byte has zeros outside `OP` and `B`. -/
theorem packWord_byte_used (op : BitVec 4) (b : Byte) :
    packWord op 0 false b &&& 0xF0FF = packWord op 0 false b := by
  apply BitVec.eq_of_getLsbD_eq
  intro i hi
  rw [BitVec.getLsbD_and, getLsbD_packWord]
  interval_cases i <;> simp

end Sys2Proof

namespace Sys2Proof.Laws.Wording

open Sys2Proof.Machine

/-- The word of a command has zeros outside the command's own fields, and it is legal exactly when the command is well
formed. -/
def Statement (i : Instr) : Prop :=
  encode i &&& usedBits (opField (encode i)) = encode i ∧ (i.wellFormed = true ↔ ¬ illegalWordBits (encode i))

theorem nop : Statement .nop := by unfold Statement illegalWordBits; decide

theorem setDir (line : LineSel) (dir : Dir) : Statement (.setDir line dir) := by
  unfold Statement illegalWordBits; cases line <;> cases dir <;> decide

theorem drive (line : LineSel) (level : Bool) : Statement (.drive line level) := by
  unfold Statement illegalWordBits; cases line <;> cases level <;> decide

theorem sense (line : LineSel) : Statement (.sense line) := by
  unfold Statement illegalWordBits; cases line <;> decide

theorem wait (line : LineSel) (level : Bool) : Statement (.wait line level) := by
  unfold Statement illegalWordBits; cases line <;> cases level <;> decide

theorem inhibit : Statement .inhibit := by unfold Statement illegalWordBits; decide

theorem delay (us : Byte) : Statement (.delay us) := by
  refine ⟨?_, ?_⟩
  · rw [encode, opField_packWord]; exact packWord_byte_used _ _
  · simp [illegalWordBits, encode, opField_packWord, Instr.wellFormed]

theorem sendByte (byte : Byte) : Statement (.sendByte byte) := by
  refine ⟨?_, ?_⟩
  · rw [encode, opField_packWord]; exact packWord_byte_used _ _
  · simp [illegalWordBits, encode, opField_packWord, Instr.wellFormed]

theorem receiveByte : Statement .receiveByte := by unfold Statement illegalWordBits; decide

theorem pushBit (bit : Bool) : Statement (.pushBit bit) := by
  unfold Statement illegalWordBits; cases bit <;> decide

theorem isReportReady : Statement .isReportReady := by unfold Statement illegalWordBits; decide

theorem takeReport : Statement .takeReport := by unfold Statement illegalWordBits; decide

theorem decoderClear : Statement .decoderClear := by unfold Statement illegalWordBits; decide

theorem samplePush : Statement .samplePush := by unfold Statement illegalWordBits; decide

end Sys2Proof.Laws.Wording
end

