-- ==== Sys2Proof/Tests/Slice0.lean ====
section
/-! SUPPORT. Tests/Slice0.lean: small tests whose results are those of spec/95_test_vectors.md, and for every statement
with hypotheses a witness that meets them. -/

namespace Sys2Proof.Tests

open Sys2Proof.Machine

/-! ## Helpers -/

/-- What a next state shows; nothing for a stop. -/
def shown {α : Type} (f : State → α) (o : Host.Outcome State Fault Refusal) : Option α :=
  match o with
  | .next t => some (f t)
  | .fault _ => none
  | .refused _ => none

/-- The reset state with a device, and with turns to come. -/
def start (clk data : Bool) (ts : List Turn) : State :=
  { State.reset with env := { devClk := clk, devData := data, schedule := ts } }

/-- The idle device of the test vectors, with turns to come. -/
def idleDev (ts : List Turn) : State := start true true ts

/-- The same block with a finite timeout (95_test_vectors.md V40.18). -/
def bounded (s : State) : State := { s with params := { s.params with waitTimeoutUs := some 1000 } }

/-- The step that accepts a word. -/
def stepOf (w : Nat) (s : State) : Host.Outcome State Fault Refusal := step (s.withFetchWord 16 w)

/-- `n` turns of the block that take no time. -/
def hosts (n : Nat) : List Turn := List.replicate n (.host 0)

/-- A device's clock pulse with the data line at `d`, and the block's four turns in it. -/
def pulse (d : Bool) : List Turn :=
  [.device true d, .device false d, .host 0, .host 15, .host 0, .device true d, .host 0]

/-- The first clock pulses of a device that serves SEND_BYTE. -/
def sendDevice (k : Nat) : List Turn :=
  hosts 3 ++ [.host 15] ++ hosts 3 ++ (List.replicate k (pulse true)).flatten

/-- `k` clock pulses, and the next one up to the turn that drives the next bit. -/
def inPulse (k : Nat) : List Turn :=
  let low : List Turn := [Turn.device false true, Turn.host 0, Turn.host 15, Turn.host 0]
  sendDevice k ++ low

/-- The line-control acknowledgment (R83). -/
def ackDevice : List Turn :=
  let ack : List Turn :=
    [Turn.host 0, Turn.device true false, Turn.host 0, Turn.device false false, Turn.host 0, Turn.device true false,
      Turn.host 0, Turn.device true true]
  ack ++ hosts 4

/-- A device that serves SEND_BYTE and lets it poll once, for 999 cycles, before the first pulse. -/
def slowSendDevice : List Turn := sendDevice 0 ++ Turn.host 999 :: ((List.replicate 10 (pulse true)).flatten ++ ackDevice)

/-- A device that sends these ten bits after a start bit (95_test_vectors.md V41.5). -/
def receiveDevice (startBit : Bool) (bits : List Bool) : List Turn :=
  let first : List Turn :=
    [Turn.device true startBit, Turn.device false startBit, Turn.host 0, Turn.device true startBit, Turn.host 0]
  hosts 3 ++ first ++ (bits.map pulse).flatten ++ hosts 3

/-- A device that gives one clock pulse with the data line low, and the seven turns of `RX_BIT` (R63). -/
def rxBitDevice : List Turn := Turn.device false false :: (hosts 5 ++ Turn.device true false :: hosts 2)

/-- A bounded SEND_BYTE awaits its clock pulse after `k` pulses in vain. -/
def awaitsPulse (k : Nat) : Prop :=
  (bounded (idleDev (sendDevice k))).serves
      (sendStartNeeds Params.default ++ sendPulsesNeeds Params.default k) ≠ none ∧
    (bounded (idleDev (sendDevice k))).serves
      (sendStartNeeds Params.default ++ sendPulsesNeeds Params.default k ++ [Need.see .clk false]) = none

/-- A bounded SEND_BYTE awaits the end of its clock pulse after `k` pulses in vain. -/
def stopsInPulse (k : Nat) : Prop :=
  (bounded (idleDev (inPulse k))).serves
      (sendStartNeeds Params.default ++ sendPulsesNeeds Params.default k ++ [Need.see .clk false]) ≠ none ∧
    (bounded (idleDev (inPulse k))).serves
      (sendStartNeeds Params.default ++ sendPulsesNeeds Params.default (k + 1)) = none

/-- A state that holds a WAIT (95_test_vectors.md V40.17). -/
def heldWait (ts : List Turn) : State :=
  { idleDev ts with
    seq :=
      { Seq.reset with
        busy := true, cur := { cmd := .wait .clk false, aborting := false, pos := 0, sampled := false } } }

/-- A state that holds a SEND_BYTE at its first wait (95_test_vectors.md V41.3). -/
def heldSend : State :=
  { idleDev [] with
    lines := { Lines.reset Params.default with clkOut := false, dataDir := .output, dataOut := false }
    seq :=
      { Seq.reset with
        busy := true, cur := { cmd := .sendByte 0x55, aborting := false, pos := 7, sampled := false }
        txb := 0x55 } }

/-- A state with a decoder of one's own. -/
def withDec (d : Decoder) : State := { State.reset with dec := d }

/-- The report of 95_test_vectors.md V42.5, after push 33. -/
def report : Decoder := { Decoder.reset with repState := 0x08, repX := 0x05, repY := 0xFB, available := true }

/-- The decoder at the start of a frame in a slot, with moves of the device to come. -/
def movingDec (slot : BitVec 2) : State :=
  { idleDev [Turn.device true false, Turn.host 3, Turn.device false true, Turn.host 0, Turn.caller (some 0)] with
    dec := { Decoder.reset with frameSlot := slot } }

/-! ## Ill-formed commands are refused (30_encoding.md rule R52) -/

theorem test_illformed_setDir_rst : (Instr.setDir .rst .output).wellFormed = false := by decide
theorem test_illformed_setDir_reserved : (Instr.setDir .reserved .input).wellFormed = false := by decide
theorem test_illformed_drive_reserved : (Instr.drive .reserved true).wellFormed = false := by decide
theorem test_illformed_sense_rst : (Instr.sense .rst).wellFormed = false := by decide
theorem test_illformed_sense_reserved : (Instr.sense .reserved).wellFormed = false := by decide
theorem test_illformed_wait_rst : (Instr.wait .rst false).wellFormed = false := by decide
theorem test_illformed_wait_reserved : (Instr.wait .reserved true).wellFormed = false := by decide

/-! ## Encodings (95_test_vectors.md L2.1 and L2.2, 30_encoding.md rule R62) -/

theorem test_decode_ignored_r : decode 0x1200 = .ok (.setDir .clk .input) := by decide
theorem test_decode_illegal_line : decode 0x4D00 = .error (.illegalLine 4 .reserved) := by decide
theorem test_decode_reserved_opcode : decode 0xF123 = .error (.reservedOpcode 0xF) := by decide
theorem test_encode_line_driver : encode (.drive .rst true) = 0x2900 := by decide
theorem test_encode_transceiver : encode (.sendByte 0xF4) = 0x70F4 := by decide
theorem test_encode_decoder : encode (.pushBit true) = 0x9100 := by decide
theorem test_frame_F4 : frameOf 0xF4 = 0x5E8 := by decide
theorem test_frame_01 : frameOf 0x01 = 0x402 := by decide
theorem test_s8 : s8 0x80 = -128 ∧ s8 0xFE = -2 ∧ s8 0x7F = 127 := by decide
/-- A delay is rounded up: 15 µs at 1.5 MHz are 22.5 cycles (R7). -/
theorem test_cycles_round_up : cyclesOf { Params.default with fClkHz := 1500000 } 15 = 23 := by decide
/-- 95_test_vectors.md P6 counts the words of `DELAY_LONG 100000`; here 300 = 255 + 45. -/
theorem test_delay_long : expand Params.default (.delayLong 300) = [.delay 255, .delay 45] := by decide

/-! ## One step each (95_test_vectors.md L2.3 to L2.7) -/

/-- V40.1. -/
theorem test_nop : shown (fun t => (t.port.rsp, t.lines, t.dec)) (stepOf 0x0FFF State.reset) =
    some (some 0x00000000, State.reset.lines, State.reset.dec) := by decide
/-- V40.4. -/
theorem test_setDir_data_out : shown (fun t => (t.port.rsp, t.lines.dataDir, t.lines.dataOut, t.lines.clkDir))
    (stepOf 0x1500 State.reset) = some (some 0x00000000, .output, true, .input) := by decide
/-- V40.20. -/
theorem test_setDir_contention :
    shown (fun t => (t.record.contentionData, t.record.contentionClk)) (stepOf 0x1500 (start true false [])) =
      some (true, false) := by decide
/-- V40.12, its first word. -/
theorem test_drive_input_line : shown (fun t => (t.port.rsp, t.lines.dataOut, t.lines.dataDir, t.wire .data))
    (stepOf 0x2400 State.reset) = some (some 0x00000000, false, .input, some true) := by decide
/-- V40.10. -/
theorem test_drive_rst : shown (fun t => (t.port.rsp, t.lines.rstOut)) (stepOf 0x2900 State.reset) =
    some (some 0x00000000, true) := by decide
/-- V40.2. -/
theorem test_sense_idle : shown (·.port.rsp) (stepOf 0x3000 State.reset) = some (some 0x00000001) := by decide
/-- V40.3. -/
theorem test_sense_pulled : shown (·.port.rsp) (stepOf 0x3400 (start true false [])) =
    some (some 0x00000000) := by decide
/-- V40.18. -/
theorem test_wait_timeout : shown (fun t => (t.port.rsp, t.seq.busy, t.lines)) (stepOf 0x4000 (bounded State.reset)) =
    some (some 0x20000000, false, State.reset.lines) := by decide
/-- V40.16, with the level 999 cycles at 1 MHz into a timeout of 1000 µs (R69). -/
theorem test_wait_in_time : shown (fun t => (t.port.rsp, t.seq.busy))
    (stepOf 0x4000 (bounded (idleDev [.host 999, .device false true, .host 0, .host 0]))) =
      some (some 0x00000000, false) := by decide
/-- V40.23. -/
theorem test_inhibit_pulled : shown (fun t => (t.port.rsp, t.lines.clkDir, t.lines.clkOut, t.record.contentionClk))
    (stepOf 0x5000 (start false true [])) = some (some 0x00000000, .output, false, false) := by decide
/-- V40.22: 255 cycles at 1 MHz, and one turn for the response. -/
theorem test_delay_255 : shown (fun t => (t.port.rsp, t.env.schedule))
    (stepOf 0x60FF (idleDev [.host 254, .host 1, .host 0, .host 7])) =
      some (some 0x00000000, [.host 7]) := by decide
/-- V40.21. -/
theorem test_delay_0 : shown (fun t => (t.port.rsp, t.env.schedule)) (stepOf 0x6000 (idleDev (hosts 3))) =
    some (some 0x00000000, [.host 0]) := by decide
/-- V41.1. -/
theorem test_sendByte : shown (fun t => (t.port.rsp, t.lines))
    (stepOf 0x70F4 (idleDev (sendDevice 10 ++ ackDevice))) =
      some (some 0x00000000,
        { clkDir := .output, clkOut := false, dataDir := .input, dataOut := true, rstOut := false }) := by decide
/-- V41.3, with a finite timeout. -/
theorem test_sendByte_timeout : shown (fun t => (t.port.rsp, t.lines)) (stepOf 0x7055 (bounded State.reset)) =
    some (some 0x20000000,
      { clkDir := .output, clkOut := false, dataDir := .output, dataOut := false, rstOut := false }) := by decide
/-- V41.5: the bits of `0xFA`, parity 1, stop 1. -/
theorem test_receiveByte : shown (fun t => (t.port.rsp, t.lines.clkDir, t.lines.clkOut, t.lines.dataDir))
    (stepOf 0x8000 (idleDev (receiveDevice false [false, true, false, true, true, true, true, true, true, true]))) =
      some (some 0x000003FA, .output, false, .input) := by decide
/-- V41.6: the bits of `0x3C` with start 1, parity 0 and stop 0. -/
theorem test_receiveByte_bad_frame : shown (·.port.rsp)
    (stepOf 0x8000 (idleDev (receiveDevice true [false, false, true, true, true, true, false, false, false, false]))) =
      some (some 0x0000003C) := by decide
/-- V42.5, push 33. -/
theorem test_pushBit_commits : shown (·.dec)
    (stepOf 0x9100 (withDec { report with acc := 0xFB, bitIdx := 9, frameSlot := 2, repY := 0x00, available := false })) =
      some report := by decide
/-- V42.4, the held position 15 wraps to -16. -/
theorem test_pushBit_wraps : shown (·.dec) (stepOf 0x9100 (withDec { Decoder.reset with acc := 0x5A, bitIdx := 15 })) =
    some Decoder.reset := by decide
/-- V42.5. -/
theorem test_isReportReady : shown (fun t => (t.port.rsp, t.dec)) (stepOf 0xA000 (withDec report)) =
    some (some 0x00000001, report) := by decide
/-- V42.6. -/
theorem test_takeReport : shown (fun t => (t.port.rsp, t.dec)) (stepOf 0xB000 (withDec report)) =
    some (some 0x01FB0508, { report with available := false }) := by decide
/-- V42.9, from the middle of a frame. -/
theorem test_decoderClear : shown (·.dec)
    (stepOf 0xC000 (withDec { report with acc := 0x5A, bitIdx := 4, frameSlot := 1, available := false })) =
      some { report with available := false } := by decide
/-- V42.10, at the first data bit. -/
theorem test_samplePush_low : shown (fun t => (t.dec.bitIdx, t.dec.acc))
    (stepOf 0xD000 { start true false [] with dec := { Decoder.reset with bitIdx := 0, acc := 0xFF } }) =
      some (1, 0x7F) := by decide
/-- V42.10. -/
theorem test_samplePush_high : shown (fun t => (t.dec.bitIdx, t.dec.acc))
    (stepOf 0xD000 { start true true [] with dec := { Decoder.reset with bitIdx := 0 } }) =
      some (1, 0x80) := by decide
/-- V60.1. -/
theorem test_reserved_opcode : shown (fun t => (t.port.rsp, t.lines)) (stepOf 0xFFFF State.reset) =
    some (some 0x10000000, State.reset.lines) := by decide
/-- R105: a reset in the cycle of the response cuts an accepted illegal word off. -/
theorem test_reserved_opcode_cut_off : shown (fun t => (t.port.rsp, t.seq.busy, t.env.schedule))
    (stepOf 0xE000 (idleDev [.caller none, .reset, .host 0])) = some (none, false, [.host 0]) := by decide
/-- V60.2: the device moves before the response, and no line register changes. -/
theorem test_illegal_line : shown (fun t => (t.port.rsp, t.lines, t.env.devClk))
    (stepOf 0x1800 (idleDev [.device false true, .host 0])) =
      some (some 0x10000000, State.reset.lines, false) := by decide
/-- V60.6. -/
theorem test_reset_cuts_off : shown (fun t => (t.port.rsp, t.seq.busy, t.lines))
    (step { heldSend with env := { heldSend.env with schedule := [.reset] } }) =
      some (none, false, State.reset.lines) := by decide

/-! ## Witnesses: every statement with hypotheses has a state and operands that meet them -/

theorem noReset_start (clk data : Bool) : (start clk data []).noReset := by simp [State.noReset, start]

theorem noReset_reset : State.reset.noReset := by simp [State.noReset, State.reset]

theorem still_reset : State.reset.still := rfl

theorem witness_StepRunsTheOfferedCommand :
    (State.reset.offerWord 0).seq.busy = false ∧ (State.reset.offerWord 0).env.schedule.head? ≠ some .reset ∧
      (State.reset.offerWord 0).port.cmd = some 0 ∧ decode 0 = .ok .nop := by decide

theorem witness_StepRunsOnTheHeldCommand :
    (heldWait []).seq.busy = true ∧ (heldWait []).env.schedule.head? ≠ some .reset := by decide

theorem witness_IllegalWordsAreRefusedAndChangeNothing :
    (State.reset.offerWord 0x2C00).seq.busy = false ∧ (State.reset.offerWord 0x2C00).env.schedule = [] ∧
      (State.reset.offerWord 0x2C00).port.cmd = some 0x2C00 ∧ illegalWordBits 0x2C00 ∧ illegalWordBits 0x1800 ∧
      ¬ illegalWordBits 0x2B00 ∧ ¬ illegalWordBits 0x17FF ∧ illegalWordBits 0xE000 ∧ ¬ illegalWordBits 0xDFFF := by
  unfold illegalWordBits; decide

theorem witness_ResetCycleGivesTheResetValues :
    (idleDev [.reset]).env.schedule = .reset :: [] ∧ ([] : List Turn).head? ≠ some .reset := by decide

/-- The command is cut off. -/
theorem witness_ResetCutsARunningCommandOff_cut :
    (idleDev [.host 0, .reset]).seq.busy = false ∧
      (idleDev [.host 0, .reset]).env.schedule = [Turn.host 0] ++ Turn.reset :: [] ∧ Turn.reset ∉ [Turn.host 0] ∧
      shown (·.port.rsp) (exec (.wait .clk false) (idleDev [.host 0, .reset])) = some none := by decide

/-- The command has answered before. -/
theorem witness_ResetCutsARunningCommandOff_answered :
    (idleDev [.host 0, .reset]).seq.busy = false ∧
      (idleDev [.host 0, .reset]).env.schedule = [Turn.host 0] ++ Turn.reset :: [] ∧ Turn.reset ∉ [Turn.host 0] ∧
      shown (·.port.rsp) (exec .nop (idleDev [.host 0, .reset])) = some (some 0) := by decide

/-- An illegal word, and a legal one, that the block accepts and a reset cuts off. -/
theorem witness_ResetCutsARunningCommandOff_word :
    ((idleDev [.caller none, .reset]).offerWord 0xE000).seq.busy = false ∧
      ((idleDev [.caller none, .reset]).offerWord 0xE000).port.cmd = some 0xE000 ∧
      ((idleDev [.caller none, .reset]).offerWord 0xE000).env.schedule = [Turn.caller none] ++ Turn.reset :: [] ∧
      [Turn.caller none] ≠ [] ∧ Turn.reset ∉ [Turn.caller none] ∧
      shown (·.port.rsp) (step ((idleDev [.caller none, .reset]).offerWord 0xE000)) = some none ∧
      shown (·.port.rsp) (step ((idleDev [.caller none, .reset]).offerWord 0x0000)) = some none := by decide

theorem witness_ResponseLastsOneCycle_gone :
    State.reset.seq.busy = false ∧ State.reset.port.cmd = none ∧ ∃ t, step State.reset = .next t :=
  ⟨rfl, rfl, _, rfl⟩

theorem witness_ResponseLastsOneCycle_ready :
    ∃ t, step (State.reset.offerWord 0) = .next t ∧ t.port.rsp.isSome = true ∧
      t.env.schedule.head? ≠ some .reset := ⟨_, rfl, by decide⟩

theorem witness_EveryResponseIsWellFormed :
    ∃ t, step (State.reset.offerWord 0xE000) = .next t ∧ t.port.rsp = some 0x10000000 := ⟨_, rfl, by decide⟩

theorem witness_DecodingIgnoresUnusedFields :
    (0x93FF : CmdWord) &&& usedBits (opField 0x93FF) = (0x9100 : CmdWord) &&& usedBits (opField 0x9100) ∧
      (0x1200 : CmdWord) &&& usedBits (opField 0x1200) = (0x1000 : CmdWord) &&& usedBits (opField 0x1000) := by
  decide

theorem witness_DecodeOfEncodeIsTheCommand :
    (Instr.sendByte 0xFF).wellFormed = true ∧ (Instr.drive .rst true).wellFormed = true := by decide

theorem witness_EncodeOfDecodedClearsIgnoredFields : decode 0x6BFF = .ok (.delay 0xFF) := by decide

theorem witness_NopAnswersAndChangesNothing :
    opField 0x0FFF = 0 ∧ State.reset.seq.busy = false ∧ State.reset.noReset := ⟨by decide, rfl, noReset_reset⟩

/-- Both lines, and the two selects that are no line. -/
theorem witness_SetDirWritesTheDirection :
    State.reset.seq.busy = false ∧ State.reset.noReset ∧ lineOf .clk = some .clk ∧ lineOf .data = some .data ∧
      lineOf .rst = none ∧ lineOf .reserved = none := ⟨rfl, noReset_reset, by decide⟩

/-- The contention clause (95_test_vectors.md V40.20). -/
theorem witness_SetDirWritesTheDirection_contention :
    (start true false []).seq.busy = false ∧ (start true false []).noReset ∧ lineOf .data = some .data ∧
      (start true false []).lines.out .data = true ∧
      shown (·.env.dev .data) (exec (.setDir .data .output) (start true false [])) = some false :=
  ⟨rfl, noReset_start _ _, by decide⟩

theorem witness_DriveWritesTheLatch :
    State.reset.seq.busy = false ∧ State.reset.noReset ∧ lineOf .clk = some .clk ∧
      State.reset.lines.dir .clk = .input := ⟨rfl, noReset_reset, by decide⟩

/-- The contention clause. -/
theorem witness_DriveWritesTheLatch_contention :
    ({ start true false [] with lines := { State.reset.lines with dataDir := .output } } : State).seq.busy = false ∧
      ({ start true false [] with lines := { State.reset.lines with dataDir := .output } } : State).noReset ∧
      ({ start true false [] with lines := { State.reset.lines with dataDir := .output } } : State).lines.dir .data =
        .output ∧
      shown (·.env.dev .data) (exec (.drive .data true)
        { start true false [] with lines := { State.reset.lines with dataDir := .output } }) = some false :=
  ⟨rfl, noReset_start _ _, by decide⟩

/-- The device pulls the line low between the acceptance and the sample. -/
theorem witness_SenseAnswersTheLevelOfAnInputLine :
    (idleDev [.device false true, .host 3, .host 0, .host 1]).seq.busy = false ∧ lineOf .clk = some .clk ∧
      (idleDev [.device false true, .host 3, .host 0, .host 1]).lines.dir .clk = .input ∧
      (idleDev [.device false true, .host 3, .host 0, .host 1]).serves (senseNeeds .clk) =
        some { devClk := false, devData := true, rest := [.host 1], samples := [false] } ∧
      Turn.reset ∉ (idleDev [.device false true, .host 3, .host 0, .host 1]).env.schedule ∧
      lineOf .reserved = none := by decide

theorem witness_SenseOfAnOutputLineIsADraw :
    lineOf .data = some .data ∧ ({ heldSend with seq := Seq.reset } : State).lines.dir .data = .output ∧
      ({ heldSend with seq := Seq.reset } : State).seq.busy = false ∧
      ({ heldSend with seq := Seq.reset } : State).noReset :=
  ⟨rfl, rfl, rfl, by simp [State.noReset, heldSend, idleDev, start]⟩

theorem witness_WaitEndsWhenTheLevelIsSeen :
    lineOf .clk = some .clk ∧ (idleDev [.host 9, .device false true, .host 0, .host 0]).seq.busy = false ∧
      (idleDev [.host 9, .device false true, .host 0, .host 0]).lines.dir .clk = .input ∧
      (idleDev [.host 9, .device false true, .host 0, .host 0]).params.waitTimeoutUs = none ∧
      (idleDev [.host 9, .device false true, .host 0, .host 0]).serves (waitNeeds .clk false) =
        some { devClk := false, devData := true, rest := [], samples := [] } := by decide

/-- A finite timeout, one cycle before it has run, and as it has run. -/
theorem witness_WaitEndsWhenTheLevelIsSeen_in_time :
    (bounded (idleDev [.host 999, .device false true, .host 0, .host 0])).seq.busy = false ∧
      (bounded (idleDev [.host 999, .device false true, .host 0, .host 0])).lines.dir .clk = .input ∧
      (bounded (idleDev [.host 999, .device false true, .host 0, .host 0])).serves (waitNeeds .clk false) =
        some { devClk := false, devData := true, rest := [], samples := [] } ∧
      (bounded (idleDev [.host 1000, .device false true, .host 0, .host 0])).serves [.see .clk false] = none := by
  decide

theorem witness_WaitEndsWhenTheLevelIsSeen_at_once :
    lineOf .clk = some .clk ∧ State.reset.seq.busy = false ∧ State.reset.still ∧ State.reset.lines.dir .clk = .input ∧
      State.reset.env.dev .clk = true ∧ lineOf .rst = none :=
  ⟨rfl, rfl, rfl, rfl, rfl, rfl⟩

/-- The device's pulse is over before the next poll: it is missed (70_reset_and_hazards.md rule R128). -/
theorem witness_WaitHoldsWhileTheLevelIsNotSeen :
    lineOf .clk = some .clk ∧
    (idleDev [.host 9, .device false true, .device true true, .host 0]).seq.busy = false ∧
      Turn.reset ∉ (idleDev [.host 9, .device false true, .device true true, .host 0]).env.schedule ∧
      (idleDev [.host 9, .device false true, .device true true, .host 0]).lines.dir .clk = .input ∧
      (idleDev [.host 9, .device false true, .device true true, .host 0]).params.waitTimeoutUs = none ∧
      (idleDev [.host 9, .device false true, .device true true, .host 0]).serves [.see .clk false] = none := by
  decide

theorem witness_WaitTimesOut :
    lineOf .clk = some .clk ∧ (bounded State.reset).seq.busy = false ∧ (bounded State.reset).still ∧
      (bounded State.reset).lines.dir .clk = .input ∧ (bounded State.reset).params.waitTimeoutUs = some 1000 ∧
      (bounded State.reset).serves [.see .clk false] = none := ⟨rfl, rfl, rfl, by decide⟩

/-- A level that is the draw, and one that is not, with both timeouts. -/
theorem witness_WaitOnAnOutputLineActsOnADraw :
    lineOf .data = some .data ∧ ({ heldSend with seq := Seq.reset } : State).seq.busy = false ∧
      ({ heldSend with seq := Seq.reset } : State).still ∧
      ({ heldSend with seq := Seq.reset } : State).lines.dir .data = .output ∧
      ({ heldSend with seq := Seq.reset } : State).params.waitTimeoutUs = none ∧
      (bounded { heldSend with seq := Seq.reset }).params.waitTimeoutUs ≠ none ∧
      Config.senseDraw 0 = Config.senseDraw 0 ∧ Config.senseDraw 0 ≠ !Config.senseDraw 0 :=
  ⟨rfl, rfl, rfl, rfl, rfl, by decide, rfl, by simp⟩

theorem witness_InhibitDrivesTheClockLow :
    (start false true []).seq.busy = false ∧ (start false true []).noReset ∧
      (start false true []).lines.clkDir = .input := ⟨rfl, noReset_start _ _, rfl⟩

theorem witness_DelayAnswersAndChangesNothing :
    State.reset.seq.busy = false ∧ State.reset.noReset := ⟨rfl, noReset_reset⟩

theorem witness_DelayIsALowerBound :
    (idleDev [.host 254, .host 1, .host 0, .host 7]).seq.busy = false ∧
      Turn.reset ∉ (idleDev [.host 254, .host 1, .host 0, .host 7]).env.schedule ∧
      (idleDev [.host 254, .host 1, .host 0, .host 7]).env.schedule =
        [Turn.host 254, Turn.host 1, Turn.host 0] ++ [Turn.host 7] ∧
      [Turn.host 7] ≠ [] ∧
      shown (·.env.schedule) (exec (.delay 255) (idleDev [.host 254, .host 1, .host 0, .host 7])) =
        some [.host 7] := by decide

theorem witness_SendByteEndsWithTheBusInhibited :
    (idleDev (sendDevice 10 ++ ackDevice)).seq.busy = false ∧
      (idleDev (sendDevice 10 ++ ackDevice)).params.waitTimeoutUs = none ∧
      (idleDev (sendDevice 10 ++ ackDevice)).serves (sendNeeds Params.default) =
        some { devClk := true, devData := true, rest := [], samples := [] } := by decide

/-- A finite timeout, and a first wait of 999 cycles in it. -/
theorem witness_SendByteEndsWithTheBusInhibited_in_time :
    (bounded (idleDev slowSendDevice)).seq.busy = false ∧
      (bounded (idleDev slowSendDevice)).serves (sendNeeds (bounded State.reset).params) =
        some { devClk := true, devData := true, rest := [], samples := [] } := by decide

/-- The start bit: no pulse yet. -/
theorem witness_SendByteDrivesTheFrame_first :
    0 ≤ 9 ∧ (idleDev (sendDevice 0)).seq.busy = false ∧ (idleDev (sendDevice 0)).params.waitTimeoutUs = none ∧
      (idleDev (sendDevice 0)).serves (sendStartNeeds Params.default ++ sendPulsesNeeds Params.default 0) =
      some { devClk := true, devData := true, rest := [], samples := [] } := by decide

/-- The parity bit: nine pulses. -/
theorem witness_SendByteDrivesTheFrame_last :
    9 ≤ 9 ∧ (idleDev (sendDevice 9)).seq.busy = false ∧ (idleDev (sendDevice 9)).params.waitTimeoutUs = none ∧
      (idleDev (sendDevice 9)).serves (sendStartNeeds Params.default ++ sendPulsesNeeds Params.default 9) =
      some { devClk := true, devData := true, rest := [], samples := [] } := by decide

/-- In the first pulse, and in the tenth: the bit after the one before. -/
theorem witness_SendByteDrivesTheFrame_low :
    (idleDev (inPulse 0)).seq.busy = false ∧
      (idleDev (inPulse 0)).params.waitTimeoutUs = none ∧
      (idleDev (inPulse 0)).serves
        (sendStartNeeds Params.default ++ sendPulsesNeeds Params.default 0 ++
          [.see .clk false, .pass Params.default.tSettleUs, .turn]) =
      some { devClk := false, devData := true, rest := [], samples := [] } ∧
      (idleDev (inPulse 9)).serves
        (sendStartNeeds Params.default ++ sendPulsesNeeds Params.default 9 ++
          [.see .clk false, .pass Params.default.tSettleUs, .turn]) =
      some { devClk := false, devData := true, rest := [], samples := [] } := by decide

/-- Ten pulses and no acknowledgment (95_test_vectors.md V41.4). -/
theorem witness_SendByteDrivesTheFrame_released :
    (idleDev (sendDevice 10)).seq.busy = false ∧ (idleDev (sendDevice 10)).params.waitTimeoutUs = none ∧
      (idleDev (sendDevice 10)).serves (sendStartNeeds Params.default ++ sendPulsesNeeds Params.default 10) =
        some { devClk := true, devData := true, rest := [], samples := [] } := by decide

theorem witness_ReceiveByteAnswersTheSampledBits :
    (idleDev (receiveDevice false [false, true, false, true, true, true, true, true, true, true])).seq.busy = false ∧
      (idleDev (receiveDevice false
        [false, true, false, true, true, true, true, true, true, true])).params.waitTimeoutUs = none ∧
      (idleDev (receiveDevice false [false, true, false, true, true, true, true, true, true, true])).serves
        (receiveNeeds Params.default) =
      some { devClk := true, devData := true, rest := [],
             samples := [false, true, false, true, true, true, true, true, true, true] } := by decide

theorem witness_ReceiveByteAnswersTheSampledBits_in_time :
    (bounded (idleDev (receiveDevice false (List.replicate 10 true)))).seq.busy = false ∧
      (bounded (idleDev (receiveDevice false (List.replicate 10 true)))).serves
          (receiveNeeds (bounded State.reset).params) =
        some { devClk := true, devData := true, rest := [], samples := List.replicate 10 true } := by decide

theorem witness_OkTransceiverLeavesTheBusInhibited_send :
    (idleDev (sendDevice 10 ++ ackDevice)).seq.busy = false ∧
      shown (·.port.rsp) (exec (.sendByte 0xF4) (idleDev (sendDevice 10 ++ ackDevice))) = some (some 0x00000000) ∧
      (0x00000000 : RspWord).extractLsb' 28 4 = statusOk := by decide

theorem witness_OkTransceiverLeavesTheBusInhibited_receive :
    (idleDev (receiveDevice false (List.replicate 10 true))).seq.busy = false ∧
      shown (·.port.rsp) (exec .receiveByte (idleDev (receiveDevice false (List.replicate 10 true)))) =
        some (some 0x000003FF) ∧
      (0x000003FF : RspWord).extractLsb' 28 4 = statusOk := by decide

theorem witness_TransceiverHoldsUntilServed :
    State.reset.seq.busy = false ∧ State.reset.noReset ∧ State.reset.params.waitTimeoutUs = none ∧
      State.reset.serves (sendNeeds Params.default) = none ∧
      State.reset.serves (receiveNeeds Params.default) = none := ⟨rfl, noReset_reset, by decide⟩

theorem witness_TransceiverTimesOut :
    (bounded State.reset).seq.busy = false ∧ (bounded State.reset).still ∧
      (bounded State.reset).params.waitTimeoutUs = some 1000 ∧ (bounded State.reset).env.devClk = true ∧
      (bounded State.reset).serves (sendNeeds (bounded State.reset).params) = none ∧
      (bounded State.reset).serves (receiveNeeds (bounded State.reset).params) = none := ⟨rfl, rfl, by decide⟩

/-- The first clause at `k` = 0 and 9: the device stops with the clock high. -/
theorem witness_TimedOutSendByteKeepsTheDataLine_high :
    (bounded (idleDev (sendDevice 9))).seq.busy = false ∧ Turn.reset ∉ (bounded (idleDev (sendDevice 9))).env.schedule ∧
      (bounded (idleDev (sendDevice 9))).params.waitTimeoutUs = some 1000 ∧ awaitsPulse 0 ∧ awaitsPulse 9 := by
  unfold awaitsPulse; decide

/-- The second clause at `k` = 0 and 9: the device stops with the clock low. -/
theorem witness_TimedOutSendByteKeepsTheDataLine_low :
    (bounded (idleDev (inPulse 9))).seq.busy = false ∧ Turn.reset ∉ (bounded (idleDev (inPulse 9))).env.schedule ∧
      (bounded (idleDev (inPulse 9))).params.waitTimeoutUs = some 1000 ∧ stopsInPulse 0 ∧ stopsInPulse 9 := by
  unfold stopsInPulse; decide

/-- The third clause: ten pulses and no acknowledgment (95_test_vectors.md V41.4). -/
theorem witness_TimedOutSendByteKeepsTheDataLine_released :
    (bounded (idleDev (sendDevice 10))).seq.busy = false ∧
      Turn.reset ∉ (bounded (idleDev (sendDevice 10))).env.schedule ∧
      (bounded (idleDev (sendDevice 10))).params.waitTimeoutUs = some 1000 ∧
      (bounded (idleDev (sendDevice 10))).serves
        (sendStartNeeds Params.default ++ sendPulsesNeeds Params.default 10) ≠ none ∧
      (bounded (idleDev (sendDevice 10))).serves (sendNeeds Params.default) = none := by decide

/-- The hypotheses of the decoder's statements about one command. -/
theorem witness_PushBitAdvancesTheDecoder :
    (withDec { report with bitIdx := 9 }).seq.busy = false ∧ (withDec { report with bitIdx := 9 }).noReset ∧
      (withDec { report with bitIdx := 9 }).dec.bitIdx.toInt = 9 ∧
      (withDec { report with bitIdx := 9 }).dec.frameSlot ≠ 3 := ⟨rfl, noReset_reset, by decide⟩

theorem witness_StopBitInSlotThreeWritesNoReport :
    (withDec { report with bitIdx := 9, frameSlot := 3 }).seq.busy = false ∧
      (withDec { report with bitIdx := 9, frameSlot := 3 }).noReset ∧
      (withDec { report with bitIdx := 9, frameSlot := 3 }).dec.bitIdx = 9 ∧
      (withDec { report with bitIdx := 9, frameSlot := 3 }).dec.frameSlot = 3 :=
  ⟨rfl, noReset_reset, rfl, rfl⟩

/-- The clauses of R90 at the ends of their ranges of positions before the push. -/
theorem witness_PushBitAdvancesTheDecoder_clauses :
    (-1 : BitVec 5).toInt = -1 ∧ (0 : BitVec 5).toInt = 0 ∧ (7 : BitVec 5).toInt = 7 ∧ (8 : BitVec 5).toInt = 8 ∧
      (9 : BitVec 5).toInt = 9 ∧ (10 : BitVec 5).toInt = 10 ∧ (-2 : BitVec 5).toInt = -2 := by decide

theorem witness_SamplePushPushesTheSampledLevel :
    (start true false (hosts 3)).seq.busy = false ∧ (start true false (hosts 3)).lines.dataDir = .input ∧
      (start true false (hosts 3)).serves samplePushNeeds =
        some { devClk := true, devData := false, rest := [], samples := [false] } ∧
      ∃ u, exec (.pushBit false) ((start true false (hosts 3)).setSchedule []) = .next u :=
  ⟨rfl, rfl, by decide, _, rfl⟩

theorem witness_SamplePushOfAnOutputLinePushesADraw :
    ({ heldSend with seq := Seq.reset } : State).seq.busy = false ∧
      ({ heldSend with seq := Seq.reset } : State).noReset ∧
      ({ heldSend with seq := Seq.reset } : State).lines.dataDir = .output :=
  ⟨rfl, by simp [State.noReset, heldSend, idleDev, start], rfl⟩

/-- Both values of the flag. -/
theorem witness_IsReportReadyAnswersTheFlag :
    (withDec report).seq.busy = false ∧ (withDec report).noReset ∧ (withDec report).dec.available = true ∧
      State.reset.dec.available = false := ⟨rfl, noReset_reset, rfl, rfl⟩

theorem witness_TakeReportReadsAndClears :
    (withDec report).seq.busy = false ∧ (withDec report).noReset ∧ (withDec report).dec.available = true ∧
      (idleDev [.host 0]).seq.busy = false ∧ Turn.reset ∉ (idleDev [.host 0]).env.schedule ∧
      (idleDev [.host 0]).env.schedule = .host 0 :: [] :=
  ⟨rfl, noReset_reset, rfl, rfl, by decide, rfl⟩

theorem witness_SecondTakeReportIsNotAvailable : (withDec report).seq.busy = false ∧ (withDec report).noReset :=
  ⟨rfl, noReset_reset⟩

theorem witness_DecoderClearStartsAReport : (withDec report).seq.busy = false ∧ (withDec report).noReset :=
  ⟨rfl, noReset_reset⟩

/-- Each of the three slots, with moves of the device between the pushes. -/
theorem witness_ElevenPushesCommitOneByte :
    (movingDec 0).seq.busy = false ∧ Turn.reset ∉ (movingDec 0).env.schedule ∧ (movingDec 0).dec.bitIdx = -1 ∧
      (movingDec 0).dec.frameSlot ≠ 3 ∧ (movingDec 1).dec.frameSlot ≠ 3 ∧ (movingDec 2).dec.frameSlot ≠ 3 ∧
      (movingDec 1).dec.bitIdx = -1 ∧ (movingDec 2).dec.bitIdx = -1 ∧ (List.replicate 11 true).length = 11 := by
  decide

theorem witness_ElevenPushesCommitOneByte_part :
    ∃ u, runAll ((List.replicate 10 true).map .pushBit) (movingDec 1) = .next u := ⟨_, rfl⟩

theorem witness_AvailableExactlyAtMultiplesOf33 :
    (movingDec 0).seq.busy = false ∧ Turn.reset ∉ (movingDec 0).env.schedule ∧ (movingDec 0).dec.bitIdx = -1 ∧
      (movingDec 0).dec.frameSlot = 0 ∧ (movingDec 0).dec.available = false ∧
      Instr.decoderClear ∉ [Instr.samplePush, Instr.inhibit, Instr.pushBit true, Instr.takeReport] ∧
      (∀ i ∈ [Instr.samplePush, Instr.inhibit, Instr.pushBit true, Instr.takeReport], awaitsLevel i = false) ∧
      pushCount [Instr.samplePush, Instr.inhibit, Instr.pushBit true, Instr.takeReport] = 2 ∧
      sinceLastPush [Instr.samplePush, Instr.inhibit, Instr.pushBit true, Instr.takeReport] = [Instr.takeReport] := by
  decide

theorem witness_AvailableExactlyAtMultiplesOf33_runs :
    ∃ t, RunsTo [Instr.samplePush, Instr.wait .data true, Instr.takeReport] State.reset t :=
  ⟨_, _, rfl, rfl, rfl, _, rfl, rfl, rfl, _, rfl, rfl, rfl, rfl⟩

/-- The first position and the last. -/
theorem witness_ElevenPushesReturnThePosition :
    (movingDec 0).seq.busy = false ∧ Turn.reset ∉ (movingDec 0).env.schedule ∧ (movingDec 0).dec.inv ∧
      (withDec { Decoder.reset with acc := 0xFF, bitIdx := 9 }).dec.inv := by
  unfold Decoder.inv; decide

/-- With the infinite timeout, and with a finite one. -/
theorem witness_RxBitPushesTheBitOfTheClockLow :
    (idleDev rxBitDevice).seq.busy = false ∧
      (idleDev rxBitDevice).lines.clkDir = .input ∧
      (idleDev rxBitDevice).lines.dataDir = .input ∧
      (idleDev rxBitDevice).serves
          (waitNeeds .clk false ++ samplePushNeeds ++ waitNeeds .clk true) =
        some { devClk := true, devData := false, rest := [], samples := [false] } ∧
      (bounded (idleDev rxBitDevice)).serves (waitNeeds .clk false ++ samplePushNeeds ++ waitNeeds .clk true) =
        some { devClk := true, devData := false, rest := [], samples := [false] } := by decide

theorem witness_QuietCommandsLeaveTheLines :
    State.reset.noReset ∧ (∃ t, exec .nop State.reset = .next t) ∧ (∃ t, exec (.sense .clk) State.reset = .next t) ∧
      (∃ t, exec (.wait .clk true) State.reset = .next t) ∧ (∃ t, exec (.delay 1) State.reset = .next t) ∧
      (∃ t, exec (.pushBit true) State.reset = .next t) ∧ (∃ t, exec .samplePush State.reset = .next t) ∧
      (∃ t, exec .isReportReady State.reset = .next t) ∧ (∃ t, exec .takeReport State.reset = .next t) ∧
      (∃ t, exec .decoderClear State.reset = .next t) :=
  ⟨noReset_reset, ⟨_, rfl⟩, ⟨_, rfl⟩, ⟨_, rfl⟩, ⟨_, rfl⟩, ⟨_, rfl⟩, ⟨_, rfl⟩, ⟨_, rfl⟩, ⟨_, rfl⟩, ⟨_, rfl⟩⟩

theorem witness_LineCommandsLeaveTheDecoder :
    State.reset.noReset ∧ (∃ t, exec (.setDir .clk .output) State.reset = .next t) ∧
      (∃ t, exec (.drive .rst true) State.reset = .next t) ∧ (∃ t, exec .inhibit State.reset = .next t) ∧
      (∃ t, exec (.sendByte 0xF4) State.reset = .next t) ∧ (∃ t, exec .receiveByte State.reset = .next t) :=
  ⟨noReset_reset, ⟨_, rfl⟩, ⟨_, rfl⟩, ⟨_, rfl⟩, ⟨_, rfl⟩, ⟨_, rfl⟩⟩

/-- The same commands, on a line and on no line. -/
theorem witness_LineCommandsLeaveTheOtherLines :
    State.reset.noReset ∧ (∃ t, exec (.setDir .rst .output) State.reset = .next t) ∧
      (∃ t, exec (.drive .data false) State.reset = .next t) ∧ lineOf .data ≠ some .clk ∧
      lineOf .rst ≠ some .data :=
  ⟨noReset_reset, ⟨_, rfl⟩, ⟨_, rfl⟩, by decide, by decide⟩

/-- Away from the stop bit, and at it. -/
theorem witness_DecoderCommandsLeaveTheRest :
    (withDec report).noReset ∧ (∃ t, exec .takeReport (withDec report) = .next t) ∧
      (∃ t, exec .decoderClear (withDec report) = .next t) ∧
      (∃ t, exec (.pushBit true) (withDec report) = .next t) ∧ (∃ t, exec .samplePush (withDec report) = .next t) ∧
      (withDec report).dec.bitIdx ≠ 9 ∧ (withDec report).dec.frameSlot ≠ 1 ∧
      (withDec { report with bitIdx := 9 }).dec.frameSlot ≠ 2 :=
  ⟨noReset_reset, ⟨_, rfl⟩, ⟨_, rfl⟩, ⟨_, rfl⟩, ⟨_, rfl⟩, by decide⟩

/-- A held command meets the invariant. -/
theorem witness_StepKeepsTheInvariant : (heldWait []).inv ∧ ∃ t, step (heldWait []) = .next t :=
  ⟨⟨by unfold Decoder.inv; decide, fun _ => ⟨rfl, _, _, rfl, rfl⟩, by unfold State.contentionInv; decide⟩, _, rfl⟩

theorem witness_StepNeverStops : (withDec report).inv :=
  ⟨by unfold withDec; unfold Decoder.inv; decide, nofun, by unfold State.contentionInv; decide⟩

theorem witness_StepKeepsHalfDuplex :
    heldSend.seqInv ∧ heldSend.halfDuplex ∧ heldSend.seq.busy = true ∧
      isTransceiver heldSend.seq.cur.cmd = true ∧ ∃ t, step heldSend = .next t :=
  ⟨fun _ => ⟨rfl, _, _, rfl, rfl⟩, fun _ _ l => by cases l <;> decide, rfl, rfl, _, rfl⟩

theorem witness_TransceiverTakesNoDraw :
    isTransceiver (.sendByte 0) = true ∧ isTransceiver .receiveByte = true ∧ State.reset.seq.busy = false ∧
      ∃ t, exec (.sendByte 0) State.reset = .next t := ⟨rfl, rfl, rfl, _, rfl⟩

theorem witness_TransceiverTakesNoDraw_held :
    heldSend.seqInv ∧ heldSend.halfDuplex ∧ heldSend.seq.busy = true ∧
      isTransceiver heldSend.seq.cur.cmd = true ∧ ∃ t, step heldSend = .next t :=
  ⟨fun _ => ⟨rfl, _, _, rfl, rfl⟩, fun _ _ l => by cases l <;> decide, rfl, rfl, _, rfl⟩

theorem witness_ContentionIsRecordedAndNeverCleared :
    ((start true false []).offerWord 0x1500).contentionInv ∧
      ∃ t, step ((start true false []).offerWord 0x1500) = .next t ∧ t.contended .data = true :=
  ⟨by unfold State.contentionInv; decide, _, rfl, by decide⟩

theorem witness_LeftoversHaveNoEffect : State.reset.seq.busy = false := rfl

/-- The three clauses. -/
theorem witness_WireResolvesBothSides :
    State.reset.lines.dir .clk = .input ∧ heldSend.lines.dir .data = .output ∧ heldSend.lines.out .data = false ∧
      ({ heldSend with lines := { heldSend.lines with dataOut := true } } : State).lines.out .data = true := by
  decide

theorem witness_DeviceMoveTouchesNoRegister :
    (idleDev [.device false true]).seq.busy = false ∧ (idleDev [.device false true]).port.cmd = none ∧
      (idleDev [.device false true]).env.schedule = .device false true :: [] ∧
      ∃ t, step (idleDev [.device false true]) = .next t := ⟨rfl, rfl, rfl, _, rfl⟩

end Sys2Proof.Tests
end

section
/-! Delays: the microseconds of R7 in cycles, the cycles that a delay takes of a schedule, and DELAY's needs. -/

namespace Sys2Proof.Machine

/-- `cyclesOf` rounds up, so its cycles last at least the microseconds (R7). -/
theorem mul_fClkHz_le_cyclesOf_mul (p : Params) (us : Nat) : us * p.fClkHz ≤ cyclesOf p us * 1000000 := by
  unfold cyclesOf
  omega

/-- A time to pass, once met with turns left, has taken at least its cycles from the front of the schedule (R70). -/
theorem serve_pass_takes_cycles {p : Params} {us : Nat} {ns : List Need} {v : Served} (hleft : v.rest ≠ [])
    (ts : List Turn) :
    ∀ (clk data : Bool) (spent : Nat), serve p ts (.pass us :: ns) clk data spent = some v →
      ∃ taken, taken ++ v.rest = ts ∧ cyclesOf p us ≤ spent + hostCycles taken := by
  induction ts with
  | nil =>
    intro clk data spent h
    exact absurd (List.suffix_nil.1 (serve_rest_suffix _ _ _ _ _ _ _ h)) hleft
  | cons t ts ih =>
    intro clk data spent h
    cases t with
    | device clk' data' =>
      obtain ⟨taken, rfl, hcycles⟩ := ih _ _ _ h
      exact ⟨.device clk' data' :: taken, rfl, hcycles⟩
    | caller offer =>
      obtain ⟨taken, rfl, hcycles⟩ := ih _ _ _ h
      exact ⟨.caller offer :: taken, rfl, hcycles⟩
    | reset => cases h
    | host cycles =>
      unfold serve at h
      split at h
      · next hmet =>
        obtain ⟨taken, rfl⟩ := serve_rest_suffix _ _ _ _ _ _ _ h
        exact ⟨.host cycles :: taken, rfl, by rw [hostCycles]; omega⟩
      · obtain ⟨taken, rfl, hcycles⟩ := ih _ _ _ h
        exact ⟨.host cycles :: taken, rfl, by rw [hostCycles]; omega⟩

/-- `exec` at DELAY runs the primitives of R78. -/
theorem exec_delay (us : Byte) (s : State) :
    exec (.delay us) s = runCommand (.delay us) (delayPrims us) [] s := rfl

/-- Without a reset DELAY's needs are met, and the command leaves the turns they leave (R78). -/
theorem exec_delay_serves {s : State} (us : Byte) (hidle : s.seq.busy = false) (hreset : s.noReset) :
    ∃ v t, s.serves (delayNeeds us) = some v ∧ exec (.delay us) s = .next t ∧ t.env.schedule = v.rest := by
  obtain ⟨v, hv⟩ :=
    serve_of_no_see s.params _ hreset (delayNeeds us) (by simp [delayNeeds]) s.env.devClk s.env.devData 0
  obtain ⟨t, hexec, -, hrest, -⟩ :=
    runCommand_of_serve (i := .delay us) (ps := delayPrims us) [] (by simp [delayPrims]) hidle
      (by simp [delayPrims, respondZero, inputsOk, sensedBy]) hv
  exact ⟨v, t, hv, hexec, hrest⟩

/-- Settles O25: the turns that DELAY takes are those its needs take, and they carry at least the cycles of its
microseconds. -/
theorem delayIsALowerBound : Obligations.DelayIsALowerBound := by
  unfold Obligations.DelayIsALowerBound
  intro s t us taken rest hidle hreset hschedule hleft hexec hrest
  obtain ⟨v, t', hserves, hexec', hrest'⟩ := exec_delay_serves us hidle hreset
  obtain rfl : t' = t := by simpa [hexec'] using hexec
  obtain rfl : v.rest = rest := hrest'.symm.trans hrest
  obtain ⟨taken', htaken, hcycles⟩ := serve_pass_takes_cycles hleft _ _ _ _ hserves
  obtain rfl : taken' = taken := List.append_cancel_right (htaken.trans hschedule)
  calc us.toNat * s.params.fClkHz
      ≤ cyclesOf s.params us.toNat * 1000000 := mul_fClkHz_le_cyclesOf_mul _ _
    _ ≤ hostCycles taken' * 1000000 := by omega

end Sys2Proof.Machine
end

section
/-! What a command does, said once for every command: its primitive list, its registers turn by turn, and the properties
that hold along its run and so at its end. -/

namespace Sys2Proof.Machine

/-! ## A command is its primitive list -/

/-- Every command runs the primitives of its rule, with its timeout part (R14, R103). -/
theorem exec_eq_runCommand (i : Instr) (s : State) : exec i s = runCommand i (primsOf i) (abortPrimsOf i) s := by
  cases i with
  | setDir line dir => cases line <;> rfl
  | drive line level => cases line <;> rfl
  | sense line => cases line <;> rfl
  | wait line level => cases line <;> rfl
  | _ => rfl

theorem primsOf_ne_nil (i : Instr) : primsOf i ≠ [] := by
  cases i with
  | setDir line dir => cases line <;> exact List.cons_ne_nil _ _
  | drive line level => cases line <;> exact List.cons_ne_nil _ _
  | sense line => cases line <;> exact List.cons_ne_nil _ _
  | wait line level => cases line <;> exact List.cons_ne_nil _ _
  | _ => exact List.cons_ne_nil _ _

/-- A timeout part awaits nothing (R103). -/
theorem isWaitUntil_of_mem_abortPrimsOf {i : Instr} {p : Prim} (h : p ∈ abortPrimsOf i) : isWaitUntil p = false := by
  have hall : (abortPrimsOf i).all (!isWaitUntil ·) = true := by
    cases i with
    | wait line level => cases line <;> rfl
    | _ => rfl
  simpa using List.all_eq_true.1 hall p h

/-- What the position leaves of a command is a part of its list or of its timeout part (R26). -/
theorem Cur.remaining_suffix (c : Cur) (ps abortPs : List Prim) :
    c.remaining ps abortPs <:+ ps ∨ c.remaining ps abortPs <:+ abortPs := by
  unfold Cur.remaining
  split
  · exact .inr (List.drop_suffix _ _)
  · exact .inl (List.drop_suffix _ _)

theorem Cur.mem_of_mem_remaining {c : Cur} {ps abortPs : List Prim} {p : Prim} (h : p ∈ c.remaining ps abortPs) :
    p ∈ ps ++ abortPs := by
  rcases c.remaining_suffix ps abortPs with hs | hs
  · exact List.mem_append_left _ (hs.subset h)
  · exact List.mem_append_right _ (hs.subset h)

/-- The position behind the first primitive that is left leaves the others. -/
theorem Cur.remaining_of_next {c c' : Cur} {ps abortPs rest : List Prim} {p : Prim}
    (h : c.remaining ps abortPs = p :: rest) (haborting : c'.aborting = c.aborting) (hpos : c'.pos = c.pos + 1) :
    c'.remaining ps abortPs = rest := by
  unfold Cur.remaining at h ⊢
  rw [haborting, hpos]
  split at h <;> simp_all [List.drop_add_one_eq_tail_drop]

/-! ## One turn of the block, whatever the directions of the lines -/

theorem State.primTurn_sampleRxBit (s : State) (i : Nat) (turn : Option Nat) :
    s.primTurn (.sampleRxBit i) turn =
      .done ((s.sense .data).2.setRxb (setRxBit (s.sense .data).2.seq.rxb i (s.sense .data).1)).advance := rfl

theorem State.primTurn_senseLine (s : State) (l : Line) (turn : Option Nat) :
    s.primTurn (.senseLine l) turn = .done ((s.sense l).2.setSampled (s.sense l).1).advance := rfl

/-- The primitive is completed: it has done its effect, with some level taken, and the position goes to the next one. -/
structure TurnDone (p : Prim) (s s' : State) : Prop where
  effect : ∃ b, s'.block = s.block.effect b p
  params : s'.params = s.params
  cmd : s'.seq.cur.cmd = s.seq.cur.cmd
  aborting : s'.seq.cur.aborting = s.seq.cur.aborting
  pos : s'.seq.cur.pos = s.seq.cur.pos + 1

/-- The wait or delay goes on, and no register but `TIMER` has changed (R69, R70). -/
structure TurnHeld (s s' : State) : Prop where
  block : s'.block = s.block
  params : s'.params = s.params
  cur : s'.seq.cur = s.seq.cur

/-- A wait, and nothing else, has timed out: the command is at the start of its timeout part (R69, R103). -/
structure TurnTimedOut (p : Prim) (s s' : State) : Prop where
  wait : isWaitUntil p = true
  block : s'.block = s.block
  params : s'.params = s.params
  cmd : s'.seq.cur.cmd = s.seq.cur.cmd
  aborting : s'.seq.cur.aborting = true
  pos : s'.seq.cur.pos = 0

/-- What a turn of the primitive `p` in the state `s` has done. -/
def TurnResult (p : Prim) (s : State) : PrimResult → Prop
  | .done s' => TurnDone p s s'
  | .hold s' => TurnHeld s s'
  | .timeout s' => TurnTimedOut p s s'

theorem State.primTurn_result (s : State) (p : Prim) (turn : Option Nat) : TurnResult p s (s.primTurn p turn) := by
  have delay : ∀ q us, s.block.effect false q = s.block → TurnResult q s (s.delayTurn turn us) := by
    intro q us heffect
    rcases s.delayTurn_cases turn us with ⟨-, e⟩ | ⟨-, e⟩ <;> rw [e]
    · exact ⟨⟨false, heffect.symm⟩, rfl, rfl, rfl, rfl⟩
    · exact ⟨rfl, rfl, rfl⟩
  cases p with
  | waitUntil l v =>
    rw [State.primTurn]
    rcases s.waitTurn_cases turn l v with ⟨-, e⟩ | ⟨-, e⟩ | ⟨-, -, e⟩ <;> rw [e]
    · exact ⟨⟨false, by simp [State.block, Block.effect]⟩, by simp, by simp, by simp, by simp⟩
    · exact ⟨by simp [State.block], by simp, by simp⟩
    · exact ⟨rfl, by simp [State.block], by simp, by simp, rfl, rfl⟩
  | delay us => exact delay (.delay us) us rfl
  | settle => exact delay .settle s.params.tSettleUs rfl
  | sampleRxBit i =>
    rw [State.primTurn_sampleRxBit]
    exact ⟨⟨(s.sense .data).1, by simp [State.block, Block.effect]⟩, by simp, by simp, by simp, by simp⟩
  | senseLine l =>
    rw [State.primTurn_senseLine]
    exact ⟨⟨(s.sense l).1, by simp [State.block, Block.effect]⟩, by simp, by simp, by simp, by simp⟩
  | respond d => cases d <;> exact ⟨⟨false, rfl⟩, rfl, rfl, rfl, rfl⟩
  | _ => exact ⟨⟨false, rfl⟩, rfl, rfl, rfl, rfl⟩

section

variable {s s' : State} {p : Prim} {turn : Option Nat}

theorem TurnDone.of_eq (e : s.primTurn p turn = .done s') : TurnDone p s s' := by
  have h := s.primTurn_result p turn
  rwa [e] at h

theorem TurnHeld.of_eq (e : s.primTurn p turn = .hold s') : TurnHeld s s' := by
  have h := s.primTurn_result p turn
  rwa [e] at h

theorem TurnTimedOut.of_eq (e : s.primTurn p turn = .timeout s') : TurnTimedOut p s s' := by
  have h := s.primTurn_result p turn
  rwa [e] at h

end

theorem PrimResult.All.of_eq {P : State → Prop} {r r' : PrimResult} (h : r.All P) (e : r = r') : r'.All P := e ▸ h

/-- A turn that senses only input lines takes no draw (R67). -/
theorem State.primTurn_draws {s : State} {p : Prim} (turn : Option Nat)
    (hin : ∀ l, sensedBy p = some l → s.lines.dir l = .input) :
    (s.primTurn p turn).All (·.record.draws = s.record.draws) := by
  cases p with
  | waitUntil l v =>
    rcases s.waitTurn_cases turn l v with ⟨-, e⟩ | ⟨-, e⟩ | ⟨-, -, e⟩ <;>
      simp [State.primTurn, e, PrimResult.All, State.sense_of_input (hin l rfl)]
  | delay us => rcases s.delayTurn_cases turn us with ⟨-, e⟩ | ⟨-, e⟩ <;> simp [State.primTurn, e, PrimResult.All]
  | settle =>
    rcases s.delayTurn_cases turn s.params.tSettleUs with ⟨-, e⟩ | ⟨-, e⟩ <;> simp [State.primTurn, e, PrimResult.All]
  | sampleRxBit i => simp [State.primTurn, PrimResult.All, State.sense_of_input (hin .data rfl)]
  | senseLine l => simp [State.primTurn, PrimResult.All, State.sense_of_input (hin l rfl)]
  | _ => rfl

/-! ## Properties that hold along a run -/

/-- `P qs s` of the primitives `qs` that are left in the state `s` is kept by every turn but a reset. -/
structure TurnInvariant (abortPs : List Prim) (P : List Prim → State → Prop) : Prop where
  done : ∀ {p ps s s' turn}, P (p :: ps) s → s.primTurn p turn = .done s' → P ps s'
  hold : ∀ {p ps s s' turn}, P (p :: ps) s → s.primTurn p turn = .hold s' → P (p :: ps) s'
  timeout : ∀ {p ps s s' turn}, P (p :: ps) s → s.primTurn p turn = .timeout s' → P abortPs s'
  device : ∀ {ps s} (clk data : Bool), P ps s → P ps (s.deviceMove clk data)
  caller : ∀ {ps s} (offer : Option CmdWord), P ps s → P ps (s.setOffer offer)
  schedule : ∀ {ps s} (ts : List Turn), P ps s → P ps (s.setSchedule ts)

theorem TurnInvariant.and {abortPs : List Prim} {P Q : List Prim → State → Prop} (hP : TurnInvariant abortPs P)
    (hQ : TurnInvariant abortPs Q) : TurnInvariant abortPs (fun ps s => P ps s ∧ Q ps s) where
  done h e := ⟨hP.done h.1 e, hQ.done h.2 e⟩
  hold h e := ⟨hP.hold h.1 e, hQ.hold h.2 e⟩
  timeout h e := ⟨hP.timeout h.1 e, hQ.timeout h.2 e⟩
  device clk data h := ⟨hP.device clk data h.1, hQ.device clk data h.2⟩
  caller offer h := ⟨hP.caller offer h.1, hQ.caller offer h.2⟩
  schedule ts h := ⟨hP.schedule ts h.1, hQ.schedule ts h.2⟩

theorem TurnInvariant.imp {abortPs : List Prim} {P : List Prim → State → Prop} (c : Prop)
    (hP : TurnInvariant abortPs P) : TurnInvariant abortPs (fun ps s => c → P ps s) where
  done h e hc := hP.done (h hc) e
  hold h e hc := hP.hold (h hc) e
  timeout h e hc := hP.timeout (h hc) e
  device clk data h hc := hP.device clk data (h hc)
  caller offer h hc := hP.caller offer (h hc)
  schedule ts h hc := hP.schedule ts (h hc)

/-- Where a command's step ends: with nothing left or held at a wait, where `P` holds; or cut off by a scheduled reset
from a state where `P` holds (R69, R117). -/
def EndsIn (P : List Prim → State → Prop) (ts : List Turn) (t : State) : Prop :=
  (∃ qs, P qs t ∧ ∀ q ∈ qs.head?, isWaitUntil q = true) ∨
    (Turn.reset ∈ ts ∧ ∃ qs u ts', P qs u ∧ t = u.resetCycle.setSchedule ts')

theorem TurnInvariant.runTurns_endsIn {abortPs : List Prim} {P : List Prim → State → Prop}
    (hP : TurnInvariant abortPs P) (habort : ∀ p ∈ abortPs, isWaitUntil p = false) (ts : List Turn) {ps : List Prim}
    {s : State} (h : P ps s) : EndsIn P ts (runTurns abortPs ts ps s) :=
  runTurns_rule (P := P) habort (fun _ _ _ _ _ h e => hP.done h e) (fun _ _ _ _ _ h e => hP.hold h e)
    (fun _ _ _ _ _ h e => hP.timeout h e) (fun _ _ _ clk data h => hP.device clk data h)
    (fun _ _ _ offer h => hP.caller offer h)
    (fun _ ts' h => .inl ⟨[], hP.schedule ts' h, by simp⟩)
    (fun p ps _ h hw => .inl ⟨p :: ps, hP.schedule [] h, by simpa using hw⟩)
    ts (fun hmem p ps s ts' h => .inr ⟨hmem, p :: ps, s, ts', h, rfl⟩) ps s h

/-- A command's step, from its first primitive in an idle block and from its position in a busy one. -/
theorem TurnInvariant.runCommand_endsIn {i : Instr} {ps abortPs : List Prim} {P : List Prim → State → Prop}
    {s t : State} (hP : TurnInvariant abortPs P) (habort : ∀ p ∈ abortPs, isWaitUntil p = false)
    (hrun : runCommand i ps abortPs s = .next t) (hidle : s.seq.busy = false → P ps (s.accept i))
    (hbusy : s.seq.busy = true → s.seq.cur.remaining ps abortPs ≠ [] → P (s.seq.cur.remaining ps abortPs) s) :
    EndsIn P s.env.schedule t := by
  obtain ⟨p, rest, s0, hs0, hrem, rfl⟩ := runCommand_next hrun
  refine hP.runTurns_endsIn habort _ ?_
  rcases hs0 with ⟨rfl, hb⟩ | ⟨rfl, hb⟩
  · exact hrem ▸ hbusy hb (by simp [hrem])
  · have hps : ps = p :: rest := by simpa [Cur.remaining] using hrem
    exact hps ▸ hidle hb

theorem TurnInvariant.exec_endsIn {i : Instr} {P : List Prim → State → Prop} {s t : State}
    (hP : TurnInvariant (abortPrimsOf i) P) (hexec : exec i s = .next t)
    (hidle : s.seq.busy = false → P (primsOf i) (s.accept i))
    (hbusy : s.seq.busy = true → s.seq.cur.remaining (primsOf i) (abortPrimsOf i) ≠ [] →
      P (s.seq.cur.remaining (primsOf i) (abortPrimsOf i)) s) :
    EndsIn P s.env.schedule t :=
  hP.runCommand_endsIn (fun _ => isWaitUntil_of_mem_abortPrimsOf) (exec_eq_runCommand i s ▸ hexec) hidle hbusy

/-- With no reset to come, what holds along a command's run holds where its step ends. -/
theorem EndsIn.of_noReset {P : List Prim → State → Prop} {s t : State} (h : EndsIn P s.env.schedule t)
    (hreset : s.noReset) : ∃ qs, P qs t := by
  rcases h with ⟨qs, h, -⟩ | ⟨hmem, -⟩
  · exact ⟨qs, h⟩
  · exact absurd hmem hreset

end Sys2Proof.Machine
end

section
/-! What one step of the machine is in each of its cases, and that these are all. -/

namespace Sys2Proof.Machine

/-! ## The cases of a step (R105, R129) -/

section

variable {s : State}

theorem State.activity_of_not_reset (h : s.env.schedule.head? ≠ some .reset) : s.activity = s.hostActivity := by
  unfold State.activity
  split
  · next hts => simp [hts] at h
  · rfl

theorem step_of_reset {ts : List Turn} (h : s.env.schedule = .reset :: ts) :
    step s = .next (s.resetCycle.setSchedule ts) := by
  simp [step, State.activity, h]

theorem step_of_busy (hreset : s.env.schedule.head? ≠ some .reset) (hbusy : s.seq.busy = true) :
    step s = exec s.seq.cur.cmd s.newCycle := by
  simp [step, State.activity_of_not_reset hreset, State.hostActivity, hbusy]

theorem step_of_command {w : CmdWord} {i : Instr} (hreset : s.env.schedule.head? ≠ some .reset)
    (hidle : s.seq.busy = false) (hoffer : s.port.cmd = some w) (hdecode : decode w = .ok i) :
    step s = exec i s.newCycle.takeOffer := by
  simp [step, State.activity_of_not_reset hreset, State.hostActivity, hidle, hoffer, hdecode]

theorem step_of_illegal {w : CmdWord} {e : DecodeError} (hreset : s.env.schedule.head? ≠ some .reset)
    (hidle : s.seq.busy = false) (hoffer : s.port.cmd = some w) (hdecode : decode w = .error e) :
    step s = runIllegal noCommand s.newCycle.takeOffer := by
  simp [step, State.activity_of_not_reset hreset, State.hostActivity, hidle, hoffer, hdecode]

theorem step_of_idle {turn : Turn} {ts : List Turn} (hidle : s.seq.busy = false) (hoffer : s.port.cmd = none)
    (hsched : s.env.schedule = turn :: ts) (hreset : turn ≠ .reset) :
    step s = .next ((s.newCycle.setSchedule ts).idleTurn turn) := by
  have hhead : s.env.schedule.head? ≠ some .reset := by simpa [hsched] using hreset
  simp [step, State.activity_of_not_reset hhead, State.hostActivity, hidle, hoffer, hsched, idleActivity]

theorem step_of_quiet (hidle : s.seq.busy = false) (hoffer : s.port.cmd = none) (hsched : s.env.schedule = []) :
    step s = .next s.newCycle := by
  simp [step, State.activity, State.hostActivity, hidle, hoffer, hsched, idleActivity]

end

/-- The block runs the list `ps`, with the timeout part `abortPs`, for the command `i`: the command's own, or, for a
refused word, the one of `raise Illegal` (R102). -/
def RunsList (i : Instr) (ps abortPs : List Prim) : Prop :=
  ps = primsOf i ∧ abortPs = abortPrimsOf i ∨ ps = illegalPrims ∧ abortPs = []

/-- A step to a next state is a cycle of reset, the running on of a held command, an accepted word, a turn of an idle
block, or nothing at all. -/
theorem step_cases {s t : State} (h : step s = .next t) :
    (∃ ts, t = s.resetCycle.setSchedule ts) ∨
      (s.seq.busy = true ∧ exec s.seq.cur.cmd s.newCycle = .next t) ∨
      (s.seq.busy = false ∧
        ∃ i ps abortPs, RunsList i ps abortPs ∧ runCommand i ps abortPs s.newCycle.takeOffer = .next t) ∨
      (s.seq.busy = false ∧ ∃ turn ts, t = (s.newCycle.setSchedule ts).idleTurn turn) ∨
      (s.seq.busy = false ∧ t = s.newCycle) := by
  by_cases hreset : s.env.schedule.head? = some .reset
  · obtain ⟨ts, hts⟩ := List.head?_eq_some_iff.1 hreset
    rw [step_of_reset hts] at h
    exact .inl ⟨ts, (Host.Outcome.next.inj h).symm⟩
  refine .inr ?_
  cases hb : s.seq.busy with
  | true => exact .inl ⟨rfl, step_of_busy hreset hb ▸ h⟩
  | false =>
    refine .inr ?_
    cases ho : s.port.cmd with
    | some w =>
      refine .inl ⟨rfl, ?_⟩
      cases hd : decode w with
      | ok i =>
        rw [step_of_command hreset hb ho hd, exec_eq_runCommand] at h
        exact ⟨i, _, _, .inl ⟨rfl, rfl⟩, h⟩
      | error e =>
        rw [step_of_illegal hreset hb ho hd] at h
        exact ⟨noCommand, _, _, .inr ⟨rfl, rfl⟩, h⟩
    | none =>
      refine .inr ?_
      cases hs : s.env.schedule with
      | cons turn ts =>
        rw [step_of_idle hb ho hs (by simpa [hs] using hreset)] at h
        exact .inl ⟨rfl, turn, ts, (Host.Outcome.next.inj h).symm⟩
      | nil =>
        rw [step_of_quiet hb ho hs] at h
        exact .inr ⟨rfl, (Host.Outcome.next.inj h).symm⟩

/-! ## Accepting a word, and a cycle of reset -/

/-- Settles O1, as the case of a step that accepts a command. -/
theorem stepRunsTheOfferedCommand : Obligations.StepRunsTheOfferedCommand := by
  unfold Obligations.StepRunsTheOfferedCommand
  intro s w i hidle hreset hoffer hdecode
  exact step_of_command hreset hidle hoffer hdecode

/-- Settles O2, as the case of a step that runs a held command on. -/
theorem stepRunsOnTheHeldCommand : Obligations.StepRunsOnTheHeldCommand := by
  unfold Obligations.StepRunsOnTheHeldCommand
  intro s hbusy hreset
  exact step_of_busy hreset hbusy

theorem State.resetCycle_resetValues (s : State) (ts : List Turn) : (s.resetCycle.setSchedule ts).resetValues :=
  ⟨rfl, rfl, rfl, rfl, rfl, rfl, rfl⟩

/-- An idle block whose lines are both released listens passively (R29). -/
theorem State.phase_of_released {s : State} (hidle : s.seq.busy = false) (hclk : s.lines.clkDir = .input)
    (hdata : s.lines.dataDir = .input) : s.phase = .passiveListening := by
  simp [State.phase, State.sending, State.receiving, hidle, hclk, hdata]

/-- Settles O4: the step is the cycle of reset, and its registers are read off. -/
theorem resetCycleGivesTheResetValues : Obligations.ResetCycleGivesTheResetValues := by
  unfold Obligations.ResetCycleGivesTheResetValues
  intro s ts hts
  refine ⟨by simp [State.cmdReadyO, State.rstI, hts], _, step_of_reset hts, s.resetCycle_resetValues ts, rfl, rfl, rfl,
    State.phase_of_released rfl rfl rfl, fun hnext => ?_⟩
  simp [State.cmdReadyO, State.rstI, Seq.reset, hnext]

end Sys2Proof.Machine
end

section
/-! Where the sequencer can be in the course of a command. -/

namespace Sys2Proof.Machine

/-! ## The one response of a command is its last primitive -/

/-- The primitive presents a response. -/
def responds : Prim → Bool
  | .respond _ => true
  | .takeReport => true
  | .respondTimeout => true
  | .respondIllegal => true
  | _ => false

/-- The last primitive of the list responds, and no other one does. -/
def respondsLast : List Prim → Bool
  | [] => false
  | [p] => responds p
  | p :: q :: qs => !responds p && respondsLast (q :: qs)

theorem responds_of_respondsLast_cons {p : Prim} {ps : List Prim} (h : respondsLast (p :: ps) = true) :
    responds p = ps.isEmpty ∧ (ps ≠ [] → respondsLast ps = true) := by
  cases ps with
  | nil => exact ⟨h, fun hne => absurd rfl hne⟩
  | cons q qs => simpa [respondsLast] using h

theorem respondsLast_of_suffix {ps qs : List Prim} (h : respondsLast ps = true) (hsuffix : qs <:+ ps) (hne : qs ≠ []) :
    respondsLast qs = true := by
  obtain ⟨pre, rfl⟩ := hsuffix
  induction pre with
  | nil => exact h
  | cons p pre ih => exact ih ((responds_of_respondsLast_cons h).2 (by simp [hne]))

theorem Block.effect_of_not_responds {k : Block} {p : Prim} (b : Bool) (h : responds p = false) :
    (k.effect b p).busy = k.busy ∧ (k.effect b p).rsp = k.rsp := by
  cases p with
  | respond _ | takeReport | respondTimeout | respondIllegal => cases h
  | _ => exact ⟨rfl, rfl⟩

theorem Block.effect_of_responds {k : Block} {p : Prim} (b : Bool) (h : responds p = true) :
    (k.effect b p).busy = false := by
  cases p with
  | respond d => cases d <;> rfl
  | takeReport | respondTimeout | respondIllegal => rfl
  | _ => cases h

theorem respondsLast_primsOf (i : Instr) : respondsLast (primsOf i) = true := by
  cases i with
  | setDir line dir => cases line <;> rfl
  | drive line level => cases line <;> rfl
  | sense line => cases line <;> rfl
  | wait line level => cases line <;> rfl
  | _ => rfl

/-- The commands that await a level have a timeout part, which responds; the others have none (R103). -/
theorem abortPrimsOf_spec (i : Instr) :
    (abortPrimsOf i).isEmpty = !(primsOf i).any isWaitUntil ∧
      respondsLast (abortPrimsOf i) = (primsOf i).any isWaitUntil := by
  cases i with
  | wait line level => cases line <;> exact ⟨rfl, rfl⟩
  | setDir line dir => cases line <;> exact ⟨rfl, rfl⟩
  | drive line level => cases line <;> exact ⟨rfl, rfl⟩
  | sense line => cases line <;> exact ⟨rfl, rfl⟩
  | _ => exact ⟨rfl, rfl⟩

/-- What the lists of every command have in common. -/
structure CommandLists (ps abortPs : List Prim) : Prop where
  last : respondsLast ps = true
  abortLast : abortPs ≠ [] → respondsLast abortPs = true
  abort_ne_nil : ∀ p ∈ ps, isWaitUntil p = true → abortPs ≠ []
  noAbortWait : ∀ p ∈ abortPs, isWaitUntil p = false

theorem RunsList.commandLists {i : Instr} {ps abortPs : List Prim} (h : RunsList i ps abortPs) :
    CommandLists ps abortPs := by
  rcases h with ⟨rfl, rfl⟩ | ⟨rfl, rfl⟩
  · obtain ⟨hempty, hlast⟩ := abortPrimsOf_spec i
    refine ⟨respondsLast_primsOf i, fun hne => ?_, fun p hp hw hnil => ?_, fun _ => isWaitUntil_of_mem_abortPrimsOf⟩
    · rw [hlast]
      cases hany : (primsOf i).any isWaitUntil with
      | true => rfl
      | false => exact absurd (by simpa [hany] using hempty) hne
    · have hwaits : (primsOf i).any isWaitUntil = true := List.any_eq_true.2 ⟨p, hp, hw⟩
      simp [hwaits, hnil] at hempty
  · exact ⟨rfl, by simp, by simp [illegalPrims, isWaitUntil], by simp⟩

theorem CommandLists.respondsLast_remaining {ps abortPs : List Prim} (hl : CommandLists ps abortPs) {c : Cur}
    (hne : c.remaining ps abortPs ≠ []) : respondsLast (c.remaining ps abortPs) = true := by
  rcases c.remaining_suffix ps abortPs with hs | hs
  · exact respondsLast_of_suffix hl.last hs hne
  · exact respondsLast_of_suffix (hl.abortLast fun hnil => hne (List.suffix_nil.1 (hnil ▸ hs))) hs hne

/-! ## The course of a command -/

/-- In the course of the command `i` with the primitives `qs` left: with none left the block is idle again, and before
that it is busy, presents no response, and `CUR` stands at `qs` (R26, R27, R54). -/
structure InCourse (i : Instr) (ps abortPs qs : List Prim) (s : State) : Prop where
  ended : qs = [] → s.seq.busy = false
  running : qs ≠ [] →
    s.seq.busy = true ∧ s.port.rsp = none ∧ s.seq.cur.cmd = i ∧ s.seq.cur.remaining ps abortPs = qs

theorem InCourse.of_running {i : Instr} {ps abortPs qs : List Prim} {s : State} (hne : qs ≠ [])
    (hbusy : s.seq.busy = true) (hrsp : s.port.rsp = none) (hcmd : s.seq.cur.cmd = i)
    (hrem : s.seq.cur.remaining ps abortPs = qs) : InCourse i ps abortPs qs s :=
  ⟨fun h => absurd h hne, fun _ => ⟨hbusy, hrsp, hcmd, hrem⟩⟩

/-- A busy block in the course of a command stands at the primitives that are left. -/
theorem InCourse.of_busy {i : Instr} {ps abortPs qs : List Prim} {s : State} (h : InCourse i ps abortPs qs s)
    (hbusy : s.seq.busy = true) :
    qs ≠ [] ∧ s.port.rsp = none ∧ s.seq.cur.cmd = i ∧ s.seq.cur.remaining ps abortPs = qs := by
  have hne : qs ≠ [] := fun hnil => by simp [h.ended hnil] at hbusy
  exact ⟨hne, (h.running hne).2⟩

theorem CommandLists.inCourse {ps abortPs : List Prim} (hl : CommandLists ps abortPs) (i : Instr) :
    TurnInvariant abortPs (InCourse i ps abortPs) where
  done {p qs s s' turn} h e := by
    obtain ⟨⟨b, hblock⟩, -, hcmd', haborting, hpos⟩ := TurnDone.of_eq e
    obtain ⟨hbusy, hrsp, hcmd, hrem⟩ := h.running (List.cons_ne_nil _ _)
    obtain ⟨hlast, -⟩ := responds_of_respondsLast_cons (hrem ▸ hl.respondsLast_remaining (by simp [hrem]))
    have hbusy' : s'.seq.busy = (s.block.effect b p).busy := congrArg Block.busy hblock
    have hrsp' : s'.port.rsp = (s.block.effect b p).rsp := congrArg Block.rsp hblock
    cases qs with
    | nil => exact ⟨fun _ => hbusy'.trans (Block.effect_of_responds b hlast), fun hne => absurd rfl hne⟩
    | cons q qs =>
      obtain ⟨hb, hr⟩ := Block.effect_of_not_responds (k := s.block) b hlast
      exact .of_running (List.cons_ne_nil _ _) (hbusy'.trans (hb.trans hbusy)) (hrsp'.trans (hr.trans hrsp))
        (hcmd'.trans hcmd) (Cur.remaining_of_next hrem haborting hpos)
  hold {p qs s s' turn} h e := by
    obtain ⟨hblock, -, hcur⟩ := TurnHeld.of_eq e
    obtain ⟨hbusy, hrsp, hcmd, hrem⟩ := h.running (List.cons_ne_nil _ _)
    exact .of_running (List.cons_ne_nil _ _) ((congrArg Block.busy hblock).trans hbusy)
      ((congrArg Block.rsp hblock).trans hrsp) (hcur ▸ hcmd) (hcur ▸ hrem)
  timeout {p qs s s' turn} h e := by
    obtain ⟨hwait, hblock, -, hcmd', haborting, hpos⟩ := TurnTimedOut.of_eq e
    obtain ⟨hbusy, hrsp, hcmd, hrem⟩ := h.running (List.cons_ne_nil _ _)
    have hmem : p ∈ ps := by
      refine (List.mem_append.1 (Cur.mem_of_mem_remaining (hrem ▸ List.mem_cons_self))).resolve_right fun hab => ?_
      simp [hl.noAbortWait p hab] at hwait
    exact .of_running (hl.abort_ne_nil p hmem hwait) ((congrArg Block.busy hblock).trans hbusy)
      ((congrArg Block.rsp hblock).trans hrsp) (hcmd'.trans hcmd) (by simp [Cur.remaining, haborting, hpos])
  device _ _ h := ⟨h.ended, h.running⟩
  caller _ h := ⟨h.ended, h.running⟩
  schedule _ h := ⟨h.ended, h.running⟩

/-- An idle block that accepts a command is at its start. -/
theorem State.accept_inCourse (s : State) (i : Instr) {ps : List Prim} (abortPs : List Prim) (hne : ps ≠ []) :
    InCourse i ps abortPs ps (s.accept i) :=
  .of_running hne rfl rfl rfl rfl

/-- A held command, in a new cycle, is where it was held. -/
theorem State.newCycle_inCourse {s : State} {ps abortPs : List Prim} (hbusy : s.seq.busy = true)
    (hne : s.seq.cur.remaining ps abortPs ≠ []) :
    InCourse s.seq.cur.cmd ps abortPs (s.seq.cur.remaining ps abortPs) s.newCycle :=
  .of_running hne hbusy rfl rfl rfl

/-- The command `i` is held at a wait, with the primitives `qs` left (R26, R69). -/
structure HeldAt (i : Instr) (qs : List Prim) (s : State) : Prop where
  cmd : s.seq.cur.cmd = i
  left : s.seq.cur.left = qs
  rsp : s.port.rsp = none
  wait : ∃ p ps, qs = p :: ps ∧ isWaitUntil p = true

/-- A block that a step leaves busy is held at a wait of a command's own list: a refused word awaits nothing. -/
theorem InCourse.heldAt {i : Instr} {ps abortPs qs : List Prim} {s : State} (h : InCourse i ps abortPs qs s)
    (hlists : RunsList i ps abortPs) (hhead : ∀ q ∈ qs.head?, isWaitUntil q = true) (hbusy : s.seq.busy = true) :
    HeldAt i qs s := by
  obtain ⟨hne, hrsp, hcmd, hrem⟩ := h.of_busy hbusy
  obtain ⟨q, rest, rfl⟩ := List.exists_cons_of_ne_nil hne
  have hwait : isWaitUntil q = true := hhead q rfl
  rcases hlists with ⟨rfl, rfl⟩ | ⟨rfl, rfl⟩
  · exact ⟨hcmd, by rw [Cur.left, hcmd, hrem], hrsp, q, rest, rfl, hwait⟩
  · have hmem : q ∈ illegalPrims ++ [] := Cur.mem_of_mem_remaining (hrem ▸ List.mem_cons_self)
    obtain rfl : q = .respondIllegal := by simpa [illegalPrims] using hmem
    cases hwait

/-! ## Where a step ends -/

/-- A property `P i qs` that holds along the runs of the block's lists, from where a step finds them, holds where a step
ends that runs a command, or where a reset cuts it off; the other steps are a cycle of reset and the turns of an idle
block. -/
theorem step_endsIn {s t : State} {P : Instr → List Prim → State → Prop}
    (hP : ∀ i ps abortPs, RunsList i ps abortPs → TurnInvariant abortPs (P i))
    (hheld : s.seq.busy = true → P s.seq.cur.cmd s.seq.cur.left s.newCycle)
    (haccept : ∀ i ps abortPs, RunsList i ps abortPs → P i ps (s.newCycle.takeOffer.accept i))
    (h : step s = .next t) :
    (∃ i qs, P i qs t ∧ (t.seq.busy = true → HeldAt i qs t)) ∨
      (∃ u ts, (u = s ∨ ∃ i qs, P i qs u) ∧ t = u.resetCycle.setSchedule ts) ∨
      (s.seq.busy = false ∧ ∃ turn ts, t = (s.newCycle.setSchedule ts).idleTurn turn) ∨
      (s.seq.busy = false ∧ t = s.newCycle) := by
  have hcommand : ∀ i ps abortPs, RunsList i ps abortPs →
      EndsIn (fun qs u => InCourse i ps abortPs qs u ∧ P i qs u) s.env.schedule t →
        (∃ i qs, P i qs t ∧ (t.seq.busy = true → HeldAt i qs t)) ∨
          (∃ u ts, (u = s ∨ ∃ i qs, P i qs u) ∧ t = u.resetCycle.setSchedule ts) := by
    intro i ps abortPs hlists hends
    rcases hends with ⟨qs, ⟨hcourse, hp⟩, hhead⟩ | ⟨-, qs, u, ts, ⟨-, hp⟩, rfl⟩
    · exact .inl ⟨i, qs, hp, hcourse.heldAt hlists hhead⟩
    · exact .inr ⟨u, ts, .inr ⟨i, qs, hp⟩, rfl⟩
  rcases step_cases h with ⟨ts, rfl⟩ | ⟨hbusy, hexec⟩ | ⟨hidle, i, ps, abortPs, hlists, hrun⟩ | hturn | hquiet
  · exact .inr (.inl ⟨s, ts, .inl rfl, rfl⟩)
  · have hlists : RunsList s.seq.cur.cmd _ _ := .inl ⟨rfl, rfl⟩
    rw [← or_assoc]
    refine .inl (hcommand _ _ _ hlists (((hlists.commandLists.inCourse _).and (hP _ _ _ hlists)).exec_endsIn
      (s := s.newCycle) hexec (fun hidle => ?_) fun _ hne => ⟨State.newCycle_inCourse hbusy hne, hheld hbusy⟩))
    simp [hbusy] at hidle
  · have hl := hlists.commandLists
    rw [← or_assoc]
    refine .inl (hcommand i ps abortPs hlists (((hl.inCourse i).and (hP i ps abortPs hlists)).runCommand_endsIn
      (s := s.newCycle.takeOffer) hl.noAbortWait hrun (fun _ => ⟨State.accept_inCourse _ i abortPs fun hnil => ?_,
        haccept i ps abortPs hlists⟩) (fun hbusy => ?_)))
    · simpa [hnil, respondsLast] using hl.last
    · simp [hidle] at hbusy
  · exact .inr (.inr (.inl hturn))
  · exact .inr (.inr (.inr hquiet))

end Sys2Proof.Machine
end

section
/-! The half-duplex rule: SEND_BYTE and RECEIVE_BYTE sense only lines that the host does not drive (R20). -/

namespace Sys2Proof.Machine

/-! ## Lists that sense only input lines -/

/-- A primitive that writes no direction leaves what is sensed first, or it senses the line itself. -/
theorem sensesFirst_cons {p : Prim} (hp : ∀ k d, p ≠ .writeDir k d) (l : Line) (ps : List Prim) :
    sensesFirst l (p :: ps) = true ↔ sensedBy p = some l ∨ sensesFirst l ps = true := by
  cases p with
  | writeDir k d => exact absurd rfl (hp k d)
  | waitUntil k v => by_cases hk : k = l <;> simp [sensesFirst, sensedBy, hk]
  | senseLine k => by_cases hk : k = l <;> simp [sensesFirst, sensedBy, hk]
  | sampleRxBit i => cases l <;> simp [sensesFirst, sensedBy]
  | _ => simp [sensesFirst, sensedBy]

theorem sensesFirst_writeDir {k l : Line} (hk : k ≠ l) (d : Dir) (ps : List Prim) :
    sensesFirst l (.writeDir k d :: ps) = sensesFirst l ps := by
  simp [sensesFirst, hk]

/-- A line that such a list senses before it writes its direction is an input. -/
theorem dir_of_sensesFirst {l : Line} (ps : List Prim) :
    ∀ {r : Lines}, inputsOk ps r → sensesFirst l ps = true → r.dir l = .input := by
  induction ps with
  | nil => intro r _ hs; cases hs
  | cons p ps ih =>
    intro r hin hs
    cases p with
    | writeDir k d =>
      by_cases hk : k = l
      · simp [sensesFirst, hk] at hs
      · rw [← Lines.setDir_dir_of_ne r d (Ne.symm hk)]
        exact ih hin (sensesFirst_writeDir hk d ps ▸ hs)
    | _ => exact ((sensesFirst_cons (by nofun) l ps).1 hs).elim (hin.1 l) (ih hin.2)

/-- Whether a list senses only input lines depends on the directions of the lines that it senses first. -/
theorem inputsOk_of_sensesFirst (ps : List Prim) :
    ∀ {r r' : Lines}, inputsOk ps r' → (∀ l, sensesFirst l ps = true → r.dir l = .input) → inputsOk ps r := by
  induction ps with
  | nil => intros; trivial
  | cons p ps ih =>
    intro r r' hin hdir
    cases p with
    | writeDir k d =>
      refine ih hin fun l hs => ?_
      by_cases hk : k = l
      · subst hk
        simpa using dir_of_sensesFirst ps hin hs
      · rw [Lines.setDir_dir_of_ne r d (Ne.symm hk)]
        exact hdir l ((sensesFirst_writeDir hk d ps).trans hs)
    | _ =>
      exact ⟨fun l hl => hdir l ((sensesFirst_cons (by nofun) l ps).2 (.inl hl)),
        ih hin.2 fun l hs => hdir l ((sensesFirst_cons (by nofun) l ps).2 (.inr hs))⟩

theorem inputsOk_of_append {pre qs : List Prim} : ∀ {r : Lines}, inputsOk (pre ++ qs) r → ∃ r', inputsOk qs r' := by
  induction pre with
  | nil => intro r h; exact ⟨r, h⟩
  | cons p pre ih =>
    intro r h
    cases p with
    | writeDir l d => exact ih h
    | _ => exact ih h.2

/-- SEND_BYTE and RECEIVE_BYTE write the direction of each line before they first sense it, and release it for that
(R20, R80, R85). -/
theorem inputsOk_primsOf_transceiver {i : Instr} (h : isTransceiver i = true) (r : Lines) : inputsOk (primsOf i) r := by
  cases i with
  | sendByte byte =>
    simp [primsOf, sendBytePrims, sendStartPrims, sendBitsPrims, sendAckPrims, handshakePrims, inhibitPrims,
      respondZero, inputsOk, sensedBy, Lines.setDir_dir_of_ne]
  | receiveByte =>
    simp [primsOf, receiveBytePrims, receiveStartPrims, receiveBitsPrims, receiveBitPrims, inhibitPrims, inputsOk,
      sensedBy]
  | _ => cases h

/-- A timeout part senses no line (R103). -/
theorem inputsOk_abortPrimsOf (i : Instr) (r : Lines) : inputsOk (abortPrimsOf i) r := by
  cases i with
  | wait line level => cases line <;> simp [abortPrimsOf, lineOf, waitAbortPrims, inputsOk, sensedBy]
  | sendByte byte => simp [abortPrimsOf, transceiverAbortPrims, inhibitPrims, inputsOk, sensedBy]
  | receiveByte => simp [abortPrimsOf, transceiverAbortPrims, inhibitPrims, inputsOk, sensedBy]
  | _ => trivial

/-- Where a transceiver command is, the half-duplex rule makes it sense only input lines from there on. -/
theorem State.halfDuplex.inputsOk_left {s : State} (h : s.halfDuplex) (hbusy : s.seq.busy = true)
    (ht : isTransceiver s.seq.cur.cmd = true) : inputsOk s.seq.cur.left s.lines := by
  have hsome : ∃ r, inputsOk s.seq.cur.left r := by
    rcases s.seq.cur.remaining_suffix (primsOf s.seq.cur.cmd) (abortPrimsOf s.seq.cur.cmd) with
      ⟨pre, hpre⟩ | ⟨pre, hpre⟩
    · exact inputsOk_of_append (hpre ▸ inputsOk_primsOf_transceiver ht s.lines)
    · exact inputsOk_of_append (hpre ▸ inputsOk_abortPrimsOf _ s.lines)
  obtain ⟨r, hr⟩ := hsome
  exact inputsOk_of_sensesFirst _ hr (h hbusy ht)

/-! ## Runs that take no draw -/

/-- The primitives that are left sense only input lines, and no draw has been taken since the counter was `n`. -/
def SensesInputs (n : Nat) (qs : List Prim) (s : State) : Prop := inputsOk qs s.lines ∧ s.record.draws = n

/-- A list that senses only input lines does so to its end, and takes no draw (R67). -/
theorem sensesInputs_turnInvariant {abortPs : List Prim} (habort : ∀ r, inputsOk abortPs r) (n : Nat) :
    TurnInvariant abortPs (SensesInputs n) where
  done {p ps s s' turn} h e := by
    obtain ⟨hin, hdraws⟩ := h
    obtain ⟨b, hblock⟩ := (TurnDone.of_eq e).effect
    obtain ⟨hp, hps⟩ := inputsOk_cons (k := s.block) b hin
    have hlines : s'.lines = (s.block.effect b p).lines := congrArg Block.lines hblock
    exact ⟨hlines ▸ hps, ((State.primTurn_draws turn hp).of_eq e).trans hdraws⟩
  hold {p ps s s' turn} h e := by
    obtain ⟨hin, hdraws⟩ := h
    have hp := (inputsOk_cons (k := s.block) false hin).1
    have hlines : s'.lines = s.lines := congrArg Block.lines (TurnHeld.of_eq e).block
    exact ⟨hlines ▸ hin, ((State.primTurn_draws turn hp).of_eq e).trans hdraws⟩
  timeout {p ps s s' turn} h e := by
    obtain ⟨hin, hdraws⟩ := h
    have hp := (inputsOk_cons (k := s.block) false hin).1
    exact ⟨habort _, ((State.primTurn_draws turn hp).of_eq e).trans hdraws⟩
  device _ _ h := h
  caller _ h := h
  schedule _ h := h

theorem EndsIn.draws {n : Nat} {ts : List Turn} {t : State} (h : EndsIn (SensesInputs n) ts t) :
    t.record.draws = n := by
  rcases h with ⟨_, ⟨-, hdraws⟩, -⟩ | ⟨-, _, _, _, ⟨-, hdraws⟩, rfl⟩
  · exact hdraws
  · exact hdraws

/-- A transceiver command takes no draw, from its start or from where it senses only input lines. -/
theorem exec_transceiver_draws {i : Instr} {s t : State} (ht : isTransceiver i = true) (hexec : exec i s = .next t)
    (hheld : s.seq.busy = true → inputsOk (s.seq.cur.remaining (primsOf i) (abortPrimsOf i)) s.lines) :
    t.record.draws = s.record.draws :=
  ((sensesInputs_turnInvariant (inputsOk_abortPrimsOf i) s.record.draws).exec_endsIn hexec
    (fun _ => ⟨inputsOk_primsOf_transceiver ht _, rfl⟩) (fun hbusy _ => ⟨hheld hbusy, rfl⟩)).draws

/-- Settles O52: along the run of SEND_BYTE or RECEIVE_BYTE only input lines are sensed. -/
theorem transceiverTakesNoDraw : Obligations.TransceiverTakesNoDraw := by
  unfold Obligations.TransceiverTakesNoDraw
  constructor
  · intro i s t ht hidle hexec
    exact exec_transceiver_draws ht hexec (by simp [hidle])
  · intro s t _ hduplex hbusy ht h
    rcases step_cases h with ⟨ts, rfl⟩ | ⟨-, hexec⟩ | ⟨hidle, -⟩ | ⟨hidle, -⟩ | ⟨hidle, -⟩
    · rfl
    · exact exec_transceiver_draws (s := s.newCycle) ht hexec fun _ => hduplex.inputsOk_left hbusy ht
    all_goals simp [hbusy] at hidle

/-! ## Every step keeps the half-duplex rule -/

theorem State.halfDuplex_of_idle {s : State} (h : s.seq.busy = false) : s.halfDuplex := by
  intro hbusy
  simp [h] at hbusy

/-- A refused word senses nothing, so its list is no exception to the rule. -/
theorem RunsList.inputsOk {i : Instr} {ps abortPs : List Prim} (h : RunsList i ps abortPs) (r : Lines) :
    inputsOk abortPs r ∧ (isTransceiver i = true → Machine.inputsOk ps r) := by
  rcases h with ⟨rfl, rfl⟩ | ⟨rfl, rfl⟩
  · exact ⟨inputsOk_abortPrimsOf i r, fun ht => inputsOk_primsOf_transceiver ht r⟩
  · exact ⟨trivial, fun _ => ⟨by simp [sensedBy], trivial⟩⟩

/-- Settles O51: at every point of its run, a transceiver command's remaining primitives sense only input lines. -/
theorem stepKeepsHalfDuplex : Obligations.StepKeepsHalfDuplex := by
  unfold Obligations.StepKeepsHalfDuplex
  intro s t _ hduplex h
  rcases step_endsIn (P := fun i qs u => isTransceiver i = true → SensesInputs s.record.draws qs u)
    (fun i ps abortPs hl => (sensesInputs_turnInvariant (fun r => (hl.inputsOk r).1) _).imp _)
    (fun hbusy ht => ⟨hduplex.inputsOk_left hbusy ht, rfl⟩)
    (fun i ps abortPs hl ht => ⟨(hl.inputsOk _).2 ht, rfl⟩) h with
    ⟨i, qs, hsenses, hheld⟩ | ⟨u, ts, -, rfl⟩ | ⟨hidle, turn, ts, rfl⟩ | ⟨hidle, rfl⟩
  · intro hbusy ht l hl
    obtain ⟨rfl, rfl, -, -⟩ := hheld hbusy
    exact dir_of_sensesFirst _ (hsenses ht).1 hl
  · exact State.halfDuplex_of_idle rfl
  · refine State.halfDuplex_of_idle ?_
    cases turn with
    | reset => rfl
    | _ => exact hidle
  · exact State.halfDuplex_of_idle hidle

end Sys2Proof.Machine
end

section
/-! The invariant of the machine: the decoder between pushes, the held command, and the recorded contention. -/

namespace Sys2Proof.Machine

/-! ## The decoder (R22, R23, R90, R93) -/

namespace Decoder

variable {d : Decoder}

/-- A commit raises `AVAILABLE` at slot 2 only (R90). -/
theorem frameSlot_of_commit_available (hav : d.available = false) (h : d.commit.available = true) :
    d.frameSlot = 2 := by
  unfold commit at h
  split at h
  case h_3 hslot => exact BitVec.eq_of_toNat_eq hslot
  all_goals simp [hav] at h

/-- No slot is followed by slot 3 (R23, R90). -/
theorem nextSlot_ne_three : ∀ slot : BitVec 2, nextSlot slot ≠ 3 := by decide

/-- `BIT_IDX` advances by one within its range (R22). -/
theorem toInt_bitIdx_add_one : ∀ x : BitVec 5, -1 ≤ x.toInt → x.toInt ≤ 9 → (x + 1).toInt = x.toInt + 1 := by decide

theorem rearm_inv (hslot : d.frameSlot ≠ 3) (hav : d.available = true → d.frameSlot = 0) : d.rearm.inv :=
  ⟨(by decide : -1 ≤ preStart.toInt), (by decide : preStart.toInt ≤ 9), hslot, fun _ => rfl, fun h => ⟨rfl, hav h⟩⟩

/-- A push keeps the decoder's invariant: the move to each position of the frame does (R90). -/
theorem push_inv (b : Bool) (h : d.inv) : (d.push b).inv := by
  obtain ⟨hlow, hhigh, hslot, hacc, -⟩ := h
  have hnext := toInt_bitIdx_add_one d.bitIdx hlow hhigh
  unfold push atPosition
  dsimp only
  split
  · have hacc0 : d.acc = 0 := hacc (by omega)
    exact ⟨by dsimp only; omega, by dsimp only; omega, hslot, fun _ => hacc0, nofun⟩
  split
  · exact ⟨by dsimp only; omega, by dsimp only; omega, hslot, fun h0 => by dsimp only at h0; omega, nofun⟩
  split
  · exact ⟨by dsimp only; omega, by dsimp only; omega, hslot, fun h0 => by dsimp only at h0; omega, nofun⟩
  split
  · refine rearm_inv (nextSlot_ne_three _) fun hav => ?_
    have h2 : d.frameSlot = 2 :=
      frameSlot_of_commit_available (d := { d with available := false, bitIdx := d.bitIdx + 1 }) rfl hav
    exact (congrArg nextSlot h2).trans (by decide)
  · exact rearm_inv hslot nofun

end Decoder

/-- Every primitive keeps the decoder's invariant; `BIT_IDX` is re-armed only where `ACC` is clear. -/
theorem Block.effect_dec_inv {k : Block} {p : Prim} (b : Bool) (h : k.dec.inv)
    (hrearm : p = .rearmBitIdx → k.dec.acc = 0) : (k.effect b p).dec.inv := by
  obtain ⟨hlow, hhigh, hslot, hacc, hav⟩ := h
  have h : k.dec.inv := ⟨hlow, hhigh, hslot, hacc, hav⟩
  cases p with
  | pushBit x => exact Decoder.push_inv x h
  | pushSampled => exact Decoder.push_inv k.sampled h
  | clearAcc => exact ⟨hlow, hhigh, hslot, fun _ => rfl, hav⟩
  | rearmBitIdx =>
    exact ⟨(by decide : -1 ≤ preStart.toInt), (by decide : preStart.toInt ≤ 9), hslot, fun _ => hrearm rfl,
      fun h => ⟨rfl, (hav h).2⟩⟩
  | clearSlot => exact ⟨hlow, hhigh, (by decide : (0 : BitVec 2) ≠ 3), hacc, fun h => ⟨(hav h).1, rfl⟩⟩
  | clearAvailable | takeReport => exact ⟨hlow, hhigh, hslot, hacc, nofun⟩
  | respond r => cases r <;> exact h
  | _ => exact h

/-! ## The decoder along a run: DECODER_CLEAR clears `ACC` before it re-arms `BIT_IDX` (R95) -/

/-- The decoder meets its invariant, and only DECODER_CLEAR re-arms `BIT_IDX`, right after it has cleared `ACC`. -/
def DecoderInCourse (qs : List Prim) (s : State) : Prop :=
  s.dec.inv ∧ (.rearmBitIdx ∈ qs → qs = decoderClearPrims ∨ qs = decoderClearPrims.tail ∧ s.dec.acc = 0)

theorem decoderInCourse_of_not_mem {qs : List Prim} {s : State} (h : s.dec.inv) (hmem : .rearmBitIdx ∉ qs) :
    DecoderInCourse qs s :=
  ⟨h, fun hm => absurd hm hmem⟩

theorem rearmBitIdx_notMem_abortPrimsOf (i : Instr) : .rearmBitIdx ∉ abortPrimsOf i := by
  have h : (abortPrimsOf i).contains .rearmBitIdx = false := by
    cases i with
    | wait line level => cases line <;> rfl
    | _ => rfl
  simpa using h

theorem primsOf_of_rearmBitIdx_mem {i : Instr} (h : .rearmBitIdx ∈ primsOf i) : primsOf i = decoderClearPrims := by
  have hcontains : (primsOf i).contains .rearmBitIdx = decide (i = .decoderClear) := by
    cases i with
    | setDir line dir => cases line <;> rfl
    | drive line level => cases line <;> rfl
    | sense line => cases line <;> rfl
    | wait line level => cases line <;> rfl
    | _ => rfl
  have hi : i = .decoderClear := by simpa [h] using hcontains
  rw [hi]
  rfl

theorem decoderInCourse_turnInvariant {abortPs : List Prim} (habort : .rearmBitIdx ∉ abortPs) :
    TurnInvariant abortPs DecoderInCourse where
  done {p ps s s' turn} h e := by
    obtain ⟨hinv, hclear⟩ := h
    obtain ⟨b, hblock⟩ := (TurnDone.of_eq e).effect
    have hdec : s'.dec = (s.block.effect b p).dec := congrArg Block.dec hblock
    refine ⟨hdec ▸ Block.effect_dec_inv b hinv fun hp => ?_, fun hmem => ?_⟩
    · subst hp
      rcases hclear List.mem_cons_self with hps | ⟨-, hacc⟩
      · simp [decoderClearPrims] at hps
      · exact hacc
    · rcases hclear (List.mem_cons_of_mem _ hmem) with hps | ⟨hps, -⟩
      · obtain ⟨rfl, rfl⟩ := List.cons.inj hps
        exact .inr ⟨rfl, by rw [hdec]; rfl⟩
      · obtain ⟨-, rfl⟩ := List.cons.inj hps
        simp at hmem
  hold {p ps s s' turn} h e := by
    have hdec : s'.dec = s.dec := congrArg Block.dec (TurnHeld.of_eq e).block
    unfold DecoderInCourse
    rwa [hdec]
  timeout {p ps s s' turn} h e := by
    have hdec : s'.dec = s.dec := congrArg Block.dec (TurnTimedOut.of_eq e).block
    exact decoderInCourse_of_not_mem (hdec ▸ h.1) habort
  device _ _ h := h
  caller _ h := h
  schedule _ h := h

/-! ## Contention is recorded (R125) -/

/-- Recording contention records the contention that is there. -/
theorem State.contentionInv_noteContention (s : State) : s.noteContention.contentionInv :=
  ⟨fun h => Bool.or_eq_true_iff.2 (.inr h), fun h => Bool.or_eq_true_iff.2 (.inr h)⟩

theorem State.contentionInv_congr {s t : State} (hlines : t.lines = s.lines) (henv : t.env = s.env)
    (hclk : t.record.contentionClk = s.record.contentionClk)
    (hdata : t.record.contentionData = s.record.contentionData) (h : s.contentionInv) : t.contentionInv := by
  unfold State.contentionInv State.contended at h ⊢
  rwa [hlines, henv, hclk, hdata]

theorem State.contentionInv_resetCycle (s : State) : s.resetCycle.contentionInv := by
  constructor <;> simp [State.contended, Lines.hostHigh, Lines.dir, Lines.reset]

/-- A turn that changes a pad records the contention it makes, and the others make none (R66, R125). -/
theorem State.primTurn_contentionInv {s : State} (p : Prim) (turn : Option Nat) (h : s.contentionInv) :
    (s.primTurn p turn).All State.contentionInv := by
  cases p with
  | writeDir l d => exact State.contentionInv_noteContention (s.setDir l d)
  | writeOut l v => exact State.contentionInv_noteContention (s.setOut l v)
  | driveTxBit i => exact State.contentionInv_noteContention (s.setOut .data _)
  | driveTxParity => exact State.contentionInv_noteContention (s.setOut .data _)
  | waitUntil l v =>
    rcases s.waitTurn_cases turn l v with ⟨-, e⟩ | ⟨-, e⟩ | ⟨-, -, e⟩ <;> rw [State.primTurn, e] <;>
      exact State.contentionInv_congr (by simp) (by simp) (by simp) (by simp) h
  | delay us => rcases s.delayTurn_cases turn us with ⟨-, e⟩ | ⟨-, e⟩ <;> rw [State.primTurn, e] <;> exact h
  | settle =>
    rcases s.delayTurn_cases turn s.params.tSettleUs with ⟨-, e⟩ | ⟨-, e⟩ <;> rw [State.primTurn, e] <;> exact h
  | sampleRxBit i =>
    rw [State.primTurn_sampleRxBit]
    exact State.contentionInv_congr (by simp) (by simp) (by simp) (by simp) h
  | senseLine l =>
    rw [State.primTurn_senseLine]
    exact State.contentionInv_congr (by simp) (by simp) (by simp) (by simp) h
  | _ => exact h

theorem contentionInv_turnInvariant (abortPs : List Prim) : TurnInvariant abortPs (fun _ s => s.contentionInv) where
  done {p _ _ _ turn} h e := (State.primTurn_contentionInv p turn h).of_eq e
  hold {p _ _ _ turn} h e := (State.primTurn_contentionInv p turn h).of_eq e
  timeout {p _ _ _ turn} h e := (State.primTurn_contentionInv p turn h).of_eq e
  device _ _ _ := State.contentionInv_noteContention _
  caller _ h := h
  schedule _ h := h

/-! ## The parameters (R30, R120) -/

theorem params_turnInvariant (abortPs : List Prim) (q : Params) : TurnInvariant abortPs (fun _ s => s.params = q) where
  done h e := (TurnDone.of_eq e).params.trans h
  hold h e := (TurnHeld.of_eq e).params.trans h
  timeout h e := (TurnTimedOut.of_eq e).params.trans h
  device _ _ h := h
  caller _ h := h
  schedule _ h := h

/-! ## Every step keeps the invariant -/

/-- What holds along every run from a state that meets the invariant. -/
def InvInCourse (q : Params) (qs : List Prim) (s : State) : Prop :=
  DecoderInCourse qs s ∧ s.contentionInv ∧ s.params = q

theorem RunsList.rearmBitIdx {i : Instr} {ps abortPs : List Prim} (h : RunsList i ps abortPs) :
    .rearmBitIdx ∉ abortPs ∧ (.rearmBitIdx ∈ ps → ps = decoderClearPrims) := by
  rcases h with ⟨rfl, rfl⟩ | ⟨rfl, rfl⟩
  · exact ⟨rearmBitIdx_notMem_abortPrimsOf i, primsOf_of_rearmBitIdx_mem⟩
  · exact ⟨by simp, by simp [illegalPrims]⟩

/-- A command that is held is not DECODER_CLEAR, which awaits nothing. -/
theorem State.seqInv.rearmBitIdx_notMem_left {s : State} (h : s.seqInv) (hbusy : s.seq.busy = true) :
    .rearmBitIdx ∉ s.seq.cur.left := by
  intro hmem
  obtain ⟨-, p, ps, hleft, hwait⟩ := h hbusy
  have hclear : primsOf s.seq.cur.cmd = decoderClearPrims :=
    primsOf_of_rearmBitIdx_mem ((List.mem_append.1 (Cur.mem_of_mem_remaining hmem)).resolve_right
      (rearmBitIdx_notMem_abortPrimsOf _))
  rcases List.mem_append.1 (Cur.mem_of_mem_remaining (show p ∈ s.seq.cur.left from hleft ▸ List.mem_cons_self)) with
    hp | hp
  · rw [hclear] at hp
    have hnone : decoderClearPrims.all (!isWaitUntil ·) = true := rfl
    simpa [hwait] using List.all_eq_true.1 hnone p hp
  · simp [isWaitUntil_of_mem_abortPrimsOf hp] at hwait

theorem HeldAt.seqInv {s : State} (h : s.seq.busy = true → ∃ i qs, HeldAt i qs s) : s.seqInv := by
  intro hbusy
  obtain ⟨i, qs, hheld⟩ := h hbusy
  obtain ⟨p, ps, hqs, hwait⟩ := hheld.wait
  exact ⟨hheld.rsp, p, ps, hheld.left.trans hqs, hwait⟩

theorem State.seqInv_of_idle {s : State} (h : s.seq.busy = false) : s.seqInv := by
  intro hbusy
  simp [h] at hbusy

theorem Decoder.reset_inv : Decoder.reset.inv := by
  unfold Decoder.inv
  decide

theorem State.resetCycle_inv (s : State) (ts : List Turn) : (s.resetCycle.setSchedule ts).inv :=
  ⟨Decoder.reset_inv, State.seqInv_of_idle rfl, s.contentionInv_resetCycle⟩

/-- A turn of an idle block keeps the invariant. -/
theorem State.idleTurn_inv {s : State} (turn : Turn) (h : s.inv) (hidle : s.seq.busy = false) :
    (s.idleTurn turn).inv := by
  obtain ⟨hdec, hseq, hcont⟩ := h
  cases turn with
  | device clk data => exact ⟨hdec, State.seqInv_of_idle hidle, State.contentionInv_noteContention _⟩
  | host cycles => exact ⟨hdec, hseq, hcont⟩
  | caller offer => exact ⟨hdec, State.seqInv_of_idle hidle, hcont⟩
  | reset => exact s.resetCycle_inv s.env.schedule

theorem State.idleTurn_params (s : State) (turn : Turn) : (s.idleTurn turn).params = s.params := by
  cases turn <;> rfl

/-- Settles O48: each part of the invariant holds along every run of a command, and a command that a step leaves running
is held at a wait. -/
theorem stepKeepsTheInvariant : Obligations.StepKeepsTheInvariant := by
  unfold Obligations.StepKeepsTheInvariant
  intro s t hinv h
  obtain ⟨hdec, hseq, hcont⟩ := hinv
  rcases step_endsIn (P := fun _ => InvInCourse s.params)
    (fun i ps abortPs hl => (decoderInCourse_turnInvariant hl.rearmBitIdx.1).and
      ((contentionInv_turnInvariant abortPs).and (params_turnInvariant abortPs s.params)))
    (fun hbusy => ⟨decoderInCourse_of_not_mem hdec (hseq.rearmBitIdx_notMem_left hbusy), hcont, rfl⟩)
    (fun i ps abortPs hl => ⟨⟨hdec, fun hmem => .inl (hl.rearmBitIdx.2 hmem)⟩, hcont, rfl⟩) h with
    ⟨i, qs, ⟨⟨hdec', -⟩, hcont', hparams⟩, hheld⟩ | ⟨u, ts, hu, rfl⟩ | ⟨hidle, turn, ts, rfl⟩ | ⟨hidle, rfl⟩
  · exact ⟨⟨hdec', HeldAt.seqInv fun hbusy => ⟨i, qs, hheld hbusy⟩, hcont'⟩, hparams⟩
  · refine ⟨u.resetCycle_inv ts, ?_⟩
    rcases hu with rfl | ⟨i, qs, -, -, hparams⟩
    · rfl
    · exact hparams
  · exact ⟨State.idleTurn_inv turn ⟨hdec, State.seqInv_of_idle hidle, hcont⟩ hidle, State.idleTurn_params _ turn⟩
  · exact ⟨⟨hdec, State.seqInv_of_idle hidle, hcont⟩, rfl⟩

/-- Settles O49: the reset state is a cycle of reset's. -/
theorem resetMeetsTheInvariants : Obligations.ResetMeetsTheInvariants :=
  ⟨State.resetCycle_inv State.reset [], State.halfDuplex_of_idle rfl⟩

end Sys2Proof.Machine
end

section
/-! Frames: what the primitives of a command write, and so what the command leaves when no reset cuts it off. -/

namespace Sys2Proof.Machine

/-! ## The registers that a primitive writes -/

/-- The registers that the primitives of commands write, the decoder's taken as one. -/
inductive Reg where
  | dir (l : Line)
  | out (l : Line)
  | rst
  | txb
  | rxb
  | dec
  deriving DecidableEq

/-- The register is the same in both. -/
def Reg.Same (k k' : Block) : Reg → Prop
  | .dir l => k.lines.dir l = k'.lines.dir l
  | .out l => k.lines.out l = k'.lines.out l
  | .rst => k.lines.rstOut = k'.lines.rstOut
  | .txb => k.txb = k'.txb
  | .rxb => k.rxb = k'.rxb
  | .dec => k.dec = k'.dec

/-- The register that a primitive writes. -/
def writtenBy : Prim → Option Reg
  | .writeDir l _ => some (.dir l)
  | .writeOut l _ => some (.out l)
  | .writeRst _ => some .rst
  | .loadTxb _ => some .txb
  | .driveTxBit _ => some (.out .data)
  | .driveTxParity => some (.out .data)
  | .clearRxb => some .rxb
  | .sampleRxBit _ => some .rxb
  | .pushBit _ => some .dec
  | .pushSampled => some .dec
  | .clearAcc => some .dec
  | .rearmBitIdx => some .dec
  | .clearSlot => some .dec
  | .clearAvailable => some .dec
  | .takeReport => some .dec
  | _ => none

/-- The registers that the primitives of a command write, those of its timeout part included. -/
def regsOf (i : Instr) : List Reg := (primsOf i ++ abortPrimsOf i).filterMap writtenBy

theorem Reg.Same.trans {k k' k'' : Block} {x : Reg} (h : x.Same k k') (h' : x.Same k' k'') : x.Same k k'' := by
  cases x <;> exact Eq.trans h h'

theorem Reg.same_setDir (k : Block) {l : Line} (d : Dir) {x : Reg} (h : x ≠ .dir l) :
    x.Same { k with lines := k.lines.setDir l d } k := by
  cases x with
  | dir l' => exact Lines.setDir_dir_of_ne _ _ fun e => h (congrArg Reg.dir e)
  | out l' => exact congrFun (Lines.setDir_out ..) l'
  | rst => exact Lines.setDir_rstOut ..
  | _ => rfl

theorem Reg.same_setOut (k : Block) {l : Line} (v : Bool) {x : Reg} (h : x ≠ .out l) :
    x.Same { k with lines := k.lines.setOut l v } k := by
  cases x with
  | dir l' => exact congrFun (Lines.setOut_dir ..) l'
  | out l' => exact Lines.setOut_out_of_ne _ _ fun e => h (congrArg Reg.out e)
  | rst => exact Lines.setOut_rstOut ..
  | _ => rfl

/-- A primitive leaves every register but the one it writes. -/
theorem Block.effect_same (k : Block) (b : Bool) {p : Prim} {x : Reg} (h : writtenBy p ≠ some x) :
    x.Same (k.effect b p) k := by
  cases p with
  | writeDir l d => exact Reg.same_setDir k d fun e => h (congrArg some e.symm)
  | writeOut l v => exact Reg.same_setOut k v fun e => h (congrArg some e.symm)
  | driveTxBit i => exact Reg.same_setOut k _ fun e => h (congrArg some e.symm)
  | driveTxParity => exact Reg.same_setOut k _ fun e => h (congrArg some e.symm)
  | writeRst v =>
    cases x with
    | rst => exact absurd rfl h
    | dir l => cases l <;> rfl
    | out l => cases l <;> rfl
    | _ => rfl
  | loadTxb _ =>
    cases x with
    | txb => exact absurd rfl h
    | _ => rfl
  | clearRxb | sampleRxBit _ =>
    cases x with
    | rxb => exact absurd rfl h
    | _ => rfl
  | pushBit _ | pushSampled | clearAcc | rearmBitIdx | clearSlot | clearAvailable | takeReport =>
    cases x with
    | dec => exact absurd rfl h
    | _ => rfl
  | respond r => cases r <;> cases x <;> rfl
  | _ => cases x <;> rfl

/-! ## What a command leaves -/

/-- The registers `k` of the block meet `C` as long as only primitives of the lists run that keep `C`. -/
theorem blockInvariant {ps abortPs : List Prim} {C : Block → Prop}
    (hprims : ∀ p ∈ ps ++ abortPs, ∀ k b, C k → C (k.effect b p)) :
    TurnInvariant abortPs (fun qs s => (∀ q ∈ qs, q ∈ ps ++ abortPs) ∧ C s.block) where
  done {p qs s s' turn} h e := by
    obtain ⟨b, hblock⟩ := (TurnDone.of_eq e).effect
    exact ⟨fun q hq => h.1 q (List.mem_cons_of_mem _ hq), hblock ▸ hprims p (h.1 p List.mem_cons_self) _ b h.2⟩
  hold h e := ⟨h.1, (TurnHeld.of_eq e).block ▸ h.2⟩
  timeout h e := ⟨fun q hq => List.mem_append_right _ hq, (TurnTimedOut.of_eq e).block ▸ h.2⟩
  device _ _ h := h
  caller _ h := h
  schedule _ h := h

/-- What every primitive of a command keeps, and its acceptance, the command keeps when no reset cuts it off. -/
theorem exec_keeps {i : Instr} {s t : State} {C : Block → Prop} (hreset : s.noReset) (hexec : exec i s = .next t)
    (hprims : ∀ p ∈ primsOf i ++ abortPrimsOf i, ∀ k b, C k → C (k.effect b p)) (hidle : C (s.accept i).block)
    (hbusy : C s.block) : C t.block := by
  have hends := (blockInvariant hprims).exec_endsIn hexec (fun _ => ⟨fun q hq => List.mem_append_left _ hq, hidle⟩)
    (fun _ _ => ⟨fun q hq => Cur.mem_of_mem_remaining hq, hbusy⟩)
  obtain ⟨qs, -, h⟩ := hends.of_noReset hreset
  exact h

theorem State.accept_same (s : State) (i : Instr) (x : Reg) : x.Same (s.accept i).block s.block := by
  cases x <;> rfl

/-- A register that no primitive of a command writes is as before. -/
theorem exec_same {i : Instr} {s t : State} {x : Reg} (hx : x ∉ regsOf i) (hreset : s.noReset)
    (hexec : exec i s = .next t) : x.Same t.block s.block := by
  refine exec_keeps (C := fun k => x.Same k s.block) hreset hexec (fun p hp k b hk => ?_) (s.accept_same i x)
    (by cases x <;> rfl)
  exact (k.effect_same b fun hw => hx (List.mem_filterMap.2 ⟨p, hp, hw⟩)).trans hk

theorem Lines.ext_of_same {r r' : Lines} (hdir : ∀ l, r.dir l = r'.dir l) (hout : ∀ l, r.out l = r'.out l)
    (hrst : r.rstOut = r'.rstOut) : r = r' := by
  obtain ⟨clkDir, clkOut, dataDir, dataOut, rstOut⟩ := r
  obtain ⟨clkDir', clkOut', dataDir', dataOut', rstOut'⟩ := r'
  obtain rfl : clkDir = clkDir' := hdir .clk
  obtain rfl : dataDir = dataDir' := hdir .data
  obtain rfl : clkOut = clkOut' := hout .clk
  obtain rfl : dataOut = dataOut' := hout .data
  obtain rfl : rstOut = rstOut' := hrst
  rfl

/-! ## The registers that each command writes -/

theorem regsOf_sense (line : LineSel) : regsOf (.sense line) = [] := by cases line <;> rfl

theorem regsOf_wait (line : LineSel) (v : Bool) : regsOf (.wait line v) = [] := by cases line <;> rfl

theorem regsOf_setDir (line : LineSel) (d : Dir) : regsOf (.setDir line d) = (lineOf line).elim [] ([.dir ·]) := by
  cases line <;> rfl

theorem regsOf_drive (line : LineSel) (v : Bool) :
    regsOf (.drive line v) = if line = .rst then [.rst] else (lineOf line).elim [] ([.out ·]) := by
  cases line <;> rfl

/-- The registers that SEND_BYTE writes do not depend on the byte. -/
theorem regsOf_sendByte (b : Byte) : regsOf (.sendByte b) = regsOf (.sendByte 0) := rfl

/-- Settles O44: none of these commands writes a register but the decoder. -/
theorem quietCommandsLeaveTheLines : Obligations.QuietCommandsLeaveTheLines := by
  unfold Obligations.QuietCommandsLeaveTheLines
  intro i s t hi hreset hexec
  have hregs : ∀ x ∈ regsOf i, x = .dec := by
    rcases hi with rfl | ⟨l, rfl⟩ | ⟨l, v, rfl⟩ | ⟨us, rfl⟩ | ⟨b, rfl⟩ | rfl | rfl | rfl | rfl
    · decide
    · simp [regsOf_sense]
    · simp [regsOf_wait]
    · exact nofun
    · exact fun x hx => List.mem_singleton.1 hx
    all_goals decide
  have hsame : ∀ x : Reg, x ≠ .dec → x.Same t.block s.block := fun x hx =>
    exec_same (fun hmem => hx (hregs x hmem)) hreset hexec
  exact ⟨Lines.ext_of_same (fun l => hsame (.dir l) nofun) (fun l => hsame (.out l) nofun) (hsame .rst nofun),
    hsame .txb nofun, hsame .rxb nofun⟩

/-- Settles O45: none of these commands writes the decoder. -/
theorem lineCommandsLeaveTheDecoder : Obligations.LineCommandsLeaveTheDecoder := by
  unfold Obligations.LineCommandsLeaveTheDecoder
  intro i s t hi hreset hexec
  have hregs : .dec ∉ regsOf i := by
    rcases hi with rfl | ⟨l, d, rfl⟩ | ⟨l, v, rfl⟩ | ⟨l, rfl⟩ | ⟨l, v, rfl⟩ | rfl | ⟨us, rfl⟩ | ⟨b, rfl⟩ | rfl | rfl
    · decide
    · cases l <;> simp [regsOf_setDir, lineOf]
    · cases l <;> simp [regsOf_drive, lineOf]
    · simp [regsOf_sense]
    · simp [regsOf_wait]
    · decide
    · exact nofun
    · rw [regsOf_sendByte]
      decide
    all_goals decide
  exact exec_same hregs hreset hexec

/-- Settles O46: each command leaves the registers that its primitives do not write. -/
theorem lineCommandsLeaveTheOtherLines : Obligations.LineCommandsLeaveTheOtherLines := by
  unfold Obligations.LineCommandsLeaveTheOtherLines
  refine ⟨fun line d s t hreset hexec => ?_, fun line v s t hreset hexec => ?_, fun s t hreset hexec => ?_,
    fun b s t hreset hexec => ?_, fun s t hreset hexec => ?_⟩
  · have hsame : ∀ x : Reg, (∀ l, lineOf line = some l → x ≠ .dir l) → x.Same t.block s.block := by
      refine fun x hx => exec_same ?_ hreset hexec
      rw [regsOf_setDir]
      cases h : lineOf line with
      | none => exact nofun
      | some l => exact fun hmem => hx l h (List.mem_singleton.1 hmem)
    exact ⟨funext fun l => hsame (.out l) nofun, hsame .rst nofun,
      fun k hk => hsame (.dir k) fun l hl e => hk (Reg.dir.inj e ▸ hl), hsame .txb nofun, hsame .rxb nofun⟩
  · have hsame : ∀ x : Reg, (line = .rst → x ≠ .rst) → (∀ l, lineOf line = some l → x ≠ .out l) →
        x.Same t.block s.block := by
      refine fun x hrst hx => exec_same ?_ hreset hexec
      cases line with
      | rst => exact fun hmem => hrst rfl (List.mem_singleton.1 hmem)
      | clk => exact fun hmem => hx .clk rfl (List.mem_singleton.1 hmem)
      | data => exact fun hmem => hx .data rfl (List.mem_singleton.1 hmem)
      | reserved => exact nofun
    exact ⟨funext fun l => hsame (.dir l) nofun nofun, fun hne => hsame .rst (fun e => absurd e hne) nofun,
      fun k hk => hsame (.out k) nofun fun l hl e => hk (Reg.out.inj e ▸ hl), hsame .txb nofun nofun,
      hsame .rxb nofun nofun⟩
  · have hsame : ∀ x : Reg, x ∉ regsOf .inhibit → x.Same t.block s.block := fun x hx => exec_same hx hreset hexec
    exact ⟨hsame (.dir .data) (by decide), hsame (.out .data) (by decide), hsame .rst (by decide),
      hsame .txb (by decide), hsame .rxb (by decide)⟩
  · have hsame : ∀ x : Reg, x ∉ regsOf (.sendByte 0) → x.Same t.block s.block := fun x hx =>
      exec_same (regsOf_sendByte b ▸ hx) hreset hexec
    exact ⟨hsame .rst (by decide), hsame .rxb (by decide)⟩
  · have hsame : ∀ x : Reg, x ∉ regsOf .receiveByte → x.Same t.block s.block := fun x hx => exec_same hx hreset hexec
    exact ⟨hsame .rst (by decide), hsame (.out .data) (by decide), hsame .txb (by decide)⟩

/-! ## The decoder's registers one by one (R24, R25, R90) -/

namespace Decoder

theorem commit_repState {d : Decoder} (h : d.frameSlot ≠ 0) : d.commit.repState = d.repState := by
  unfold commit
  split
  case h_1 hslot => exact absurd (BitVec.eq_of_toNat_eq hslot) h
  all_goals rfl

theorem commit_repX {d : Decoder} (h : d.frameSlot ≠ 1) : d.commit.repX = d.repX := by
  unfold commit
  split
  case h_2 hslot => exact absurd (BitVec.eq_of_toNat_eq hslot) h
  all_goals rfl

theorem commit_repY {d : Decoder} (h : d.frameSlot ≠ 2) : d.commit.repY = d.repY := by
  unfold commit
  split
  case h_3 hslot => exact absurd (BitVec.eq_of_toNat_eq hslot) h
  all_goals rfl

/-- What a commit writes to the report depends on `ACC`, `FRAME_SLOT` and the report only. -/
theorem commit_sameReport (d : Decoder) (idx : BitVec 5) (av : Bool) :
    { d with bitIdx := idx, available := av }.commit.sameReport d.commit := by
  unfold commit
  dsimp only
  split <;> exact ⟨rfl, rfl, rfl⟩

theorem bitIdx_of_next_eq_ten : ∀ x : BitVec 5, (x + 1).toInt = 10 → x = 9 := by decide

/-- A push leaves the report and the slot, or it is the stop bit's, and the report is what the commit makes it (R90). -/
theorem push_report (d : Decoder) (b : Bool) :
    ((d.push b).sameReport d ∧ (d.push b).frameSlot = d.frameSlot) ∨
      (d.bitIdx = 9 ∧ (d.push b).sameReport d.commit) := by
  unfold push atPosition
  dsimp only
  split
  · exact .inl ⟨⟨rfl, rfl, rfl⟩, rfl⟩
  split
  · exact .inl ⟨⟨rfl, rfl, rfl⟩, rfl⟩
  split
  · exact .inl ⟨⟨rfl, rfl, rfl⟩, rfl⟩
  split
  · next h10 => exact .inr ⟨bitIdx_of_next_eq_ten _ h10, d.commit_sameReport (d.bitIdx + 1) false⟩
  · exact .inl ⟨⟨rfl, rfl, rfl⟩, rfl⟩

/-- A push changes a byte of the report only at the stop bit of that byte's slot, and the slot only there (R24, R90). -/
theorem push_leaves (d : Decoder) (b : Bool) :
    (d.bitIdx ≠ 9 → (d.push b).sameReport d ∧ (d.push b).frameSlot = d.frameSlot) ∧
      (d.frameSlot ≠ 0 → (d.push b).repState = d.repState) ∧ (d.frameSlot ≠ 1 → (d.push b).repX = d.repX) ∧
      (d.frameSlot ≠ 2 → (d.push b).repY = d.repY) := by
  rcases d.push_report b with ⟨⟨hstate, hx, hy⟩, hslot⟩ | ⟨h9, hstate, hx, hy⟩
  · exact ⟨fun _ => ⟨⟨hstate, hx, hy⟩, hslot⟩, fun _ => hstate, fun _ => hx, fun _ => hy⟩
  · exact ⟨fun hne => absurd h9 hne, fun h => hstate.trans (commit_repState h), fun h => hx.trans (commit_repX h),
      fun h => hy.trans (commit_repY h)⟩

end Decoder

/-! ## A push command pushes at most once -/

/-- The decoder is as it was, or only the response is left and one bit has been pushed. -/
def PushedOnce (i : Instr) (d : Decoder) (qs : List Prim) (s : State) : Prop :=
  qs <:+ primsOf i ∧ (s.dec = d ∨ qs <:+ respondZero ∧ ∃ x, s.dec = d.push x)

/-- In a push command's list, a primitive leaves the decoder, or it pushes a bit and only the response is left. -/
theorem effect_dec_of_push {i : Instr} (hi : i = .samplePush ∨ ∃ b, i = .pushBit b) {p : Prim} {ps : List Prim}
    (h : p :: ps <:+ primsOf i) (k : Block) (b : Bool) :
    (k.effect b p).dec = k.dec ∨ ps <:+ respondZero ∧ ∃ x, (k.effect b p).dec = k.dec.push x := by
  rcases hi with rfl | ⟨b', rfl⟩
  · simp only [primsOf, samplePushPrims, respondZero, List.suffix_cons_iff, List.cons.injEq, List.suffix_nil,
      List.cons_ne_nil, or_false] at h
    rcases h with ⟨rfl, rfl⟩ | ⟨rfl, rfl⟩ | ⟨rfl, rfl⟩
    · exact .inl rfl
    · exact .inr ⟨List.suffix_refl _, _, rfl⟩
    · exact .inl rfl
  · simp only [primsOf, pushBitPrims, respondZero, List.suffix_cons_iff, List.cons.injEq, List.suffix_nil,
      List.cons_ne_nil, or_false] at h
    rcases h with ⟨rfl, rfl⟩ | ⟨rfl, rfl⟩
    · exact .inr ⟨List.suffix_refl _, _, rfl⟩
    · exact .inl rfl

/-- The response of a command leaves the decoder. -/
theorem effect_dec_of_respondZero {p : Prim} {ps : List Prim} (h : p :: ps <:+ respondZero) (k : Block) (b : Bool) :
    (k.effect b p).dec = k.dec := by
  obtain ⟨rfl, -⟩ : p = .respond .zero ∧ ps = [] := by simpa [respondZero, List.suffix_cons_iff] using h
  rfl

theorem pushedOnce_turnInvariant {i : Instr} (hi : i = .samplePush ∨ ∃ b, i = .pushBit b) (d : Decoder) :
    TurnInvariant (abortPrimsOf i) (PushedOnce i d) where
  done {p qs s s' turn} h e := by
    obtain ⟨b, hblock⟩ := (TurnDone.of_eq e).effect
    have hdec : s'.dec = (s.block.effect b p).dec := congrArg Block.dec hblock
    obtain ⟨hsuffix, hcases⟩ := h
    refine ⟨(List.suffix_cons p qs).trans hsuffix, ?_⟩
    rw [hdec]
    rcases hcases with rfl | ⟨hrest, x, hx⟩
    · exact effect_dec_of_push hi hsuffix s.block b
    · exact .inr ⟨(List.suffix_cons p qs).trans hrest, x, (effect_dec_of_respondZero hrest _ b).trans hx⟩
  hold {p qs s s' turn} h e := by
    have hdec : s'.dec = s.dec := congrArg Block.dec (TurnHeld.of_eq e).block
    unfold PushedOnce
    rwa [hdec]
  timeout {p qs s s' turn} h e := by
    have hwait := (TurnTimedOut.of_eq e).wait
    have hnone : (primsOf i).all (!isWaitUntil ·) = true := by rcases hi with rfl | ⟨b, rfl⟩ <;> rfl
    simpa [hwait] using List.all_eq_true.1 hnone p (h.1.subset List.mem_cons_self)
  device _ _ h := h
  caller _ h := h
  schedule _ h := h

/-- Without a reset PUSH_BIT and SAMPLE_PUSH leave the decoder or push one bit (R91, R92). -/
theorem exec_push_dec {i : Instr} {s t : State} (hi : i = .samplePush ∨ ∃ b, i = .pushBit b) (hreset : s.noReset)
    (hexec : exec i s = .next t) : t.dec = s.dec ∨ ∃ x, t.dec = s.dec.push x := by
  have hends := (pushedOnce_turnInvariant hi s.dec).exec_endsIn hexec (fun _ => ⟨List.suffix_refl _, .inl rfl⟩)
    (fun _ hne => ⟨?_, .inl rfl⟩)
  · obtain ⟨qs, -, hdec | ⟨-, hpush⟩⟩ := hends.of_noReset hreset
    · exact .inl hdec
    · exact .inr hpush
  · refine (s.seq.cur.remaining_suffix _ _).resolve_right fun hab => hne ?_
    have hnil : abortPrimsOf i = [] := by rcases hi with rfl | ⟨b, rfl⟩ <;> rfl
    exact List.suffix_nil.1 (hnil ▸ hab)

theorem exec_takeReport_dec {s t : State} (hreset : s.noReset) (hexec : exec .takeReport s = .next t) :
    { t.dec with available := s.dec.available } = s.dec := by
  refine exec_keeps (C := fun k => { k.dec with available := s.dec.available } = s.dec) hreset hexec
    (fun p hp k b hk => ?_) rfl rfl
  obtain rfl : p = .takeReport := by simpa [primsOf, abortPrimsOf] using hp
  exact hk

theorem exec_decoderClear_report {s t : State} (hreset : s.noReset) (hexec : exec .decoderClear s = .next t) :
    t.dec.sameReport s.dec := by
  refine exec_keeps (C := fun k => k.dec.sameReport s.dec) hreset hexec (fun p hp k b hk => ?_) ⟨rfl, rfl, rfl⟩
    ⟨rfl, rfl, rfl⟩
  have hcases : p = .clearAcc ∨ p = .rearmBitIdx ∨ p = .clearSlot ∨ p = .clearAvailable ∨ p = .respond .zero := by
    simpa [primsOf, abortPrimsOf, decoderClearPrims] using hp
  rcases hcases with rfl | rfl | rfl | rfl | rfl <;> exact hk

/-- Settles O47: TAKE_REPORT and DECODER_CLEAR by what their primitives write, the pushes by what one push does. -/
theorem decoderCommandsLeaveTheRest : Obligations.DecoderCommandsLeaveTheRest := by
  unfold Obligations.DecoderCommandsLeaveTheRest
  refine ⟨fun s t hreset hexec => exec_takeReport_dec hreset hexec,
    fun s t hreset hexec => exec_decoderClear_report hreset hexec, fun i s t hi hreset hexec => ?_⟩
  rcases exec_push_dec hi hreset hexec with hdec | ⟨x, hdec⟩ <;> rw [hdec]
  · exact ⟨fun _ => ⟨⟨rfl, rfl, rfl⟩, rfl⟩, fun _ => rfl, fun _ => rfl, fun _ => rfl⟩
  · exact s.dec.push_leaves x

end Sys2Proof.Machine
end

section
/-! No leftover of an earlier command matters: a command writes `TXB`, `RXB` and the sampled level before it reads them
(R27). -/

namespace Sys2Proof.Machine

/-! ## The registers a command reads -/

/-- The registers of the sequencer that a primitive can read. -/
inductive Leftover where
  | sampled
  | txb
  | rxb
  deriving DecidableEq

/-- The leftover that a primitive reads. -/
def leftoverRead : Prim → Option Leftover
  | .driveTxBit _ => some .txb
  | .driveTxParity => some .txb
  | .sampleRxBit _ => some .rxb
  | .pushSampled => some .sampled
  | .respond .sampled => some .sampled
  | .respond .received => some .rxb
  | _ => none

/-- The leftover that a primitive overwrites. -/
def leftoverWritten : Prim → Option Leftover
  | .loadTxb _ => some .txb
  | .clearRxb => some .rxb
  | .senseLine _ => some .sampled
  | _ => none

/-- The primitives read the leftover `x` before they overwrite it. -/
def readsFirst (x : Leftover) : List Prim → Bool
  | [] => false
  | p :: ps => decide (leftoverRead p = some x) || (decide (leftoverWritten p ≠ some x) && readsFirst x ps)

theorem readsFirst_primsOf (i : Instr) (x : Leftover) : readsFirst x (primsOf i) = false := by
  cases i with
  | setDir line dir => cases line <;> cases x <;> rfl
  | drive line level => cases line <;> cases x <;> rfl
  | sense line => cases line <;> cases x <;> rfl
  | wait line level => cases line <;> cases x <;> rfl
  | _ => cases x <;> rfl

theorem readsFirst_abortPrimsOf (i : Instr) (x : Leftover) : readsFirst x (abortPrimsOf i) = false := by
  cases i with
  | wait line level => cases line <;> cases x <;> rfl
  | _ => cases x <;> rfl

/-! ## Two runs side by side -/

/-- The two turns end in the same way, in states that are related as each way asks. -/
def PrimResult.Both (done hold timeout : State → State → Prop) : PrimResult → PrimResult → Prop
  | .done u, .done v => done u v
  | .hold u, .hold v => hold u v
  | .timeout u, .timeout v => timeout u v
  | _, _ => False

/-- `R qs u v` is kept when the same turn comes in both states, whatever it is, a reset included. -/
structure TurnRelation (abortPs : List Prim) (R : List Prim → State → State → Prop) : Prop where
  turn : ∀ {p ps u v} turn, R (p :: ps) u v →
    PrimResult.Both (R ps) (R (p :: ps)) (R abortPs) (u.primTurn p turn) (v.primTurn p turn)
  device : ∀ {ps u v} (clk data : Bool), R ps u v → R ps (u.deviceMove clk data) (v.deviceMove clk data)
  caller : ∀ {ps u v} (offer : Option CmdWord), R ps u v → R ps (u.setOffer offer) (v.setOffer offer)
  reset : ∀ {ps u v}, R ps u v → R ps u.resetCycle v.resetCycle
  schedule : ∀ {ps u v} (ts : List Turn), R ps u v → R ps (u.setSchedule ts) (v.setSchedule ts)

section

variable {abortPs : List Prim} {R : List Prim → State → State → Prop} (hR : TurnRelation abortPs R)

include hR

theorem TurnRelation.runQuiet {k : State → State} (hk : ∀ u v, R abortPs u v → ∃ qs, R qs (k u) (k v))
    (ps : List Prim) : ∀ u v, R ps u v → ∃ qs, R qs (runQuiet k ps u) (runQuiet k ps v) := by
  induction ps with
  | nil => intro u v h; exact ⟨[], h⟩
  | cons p ps ih =>
    intro u v h
    have hboth := hR.turn none h
    unfold Machine.runQuiet
    cases hu : u.primTurn p none <;> cases hv : v.primTurn p none <;> rw [hu, hv] at hboth
    case done.done => exact ih _ _ hboth
    case hold.hold => exact ⟨_, hboth⟩
    case timeout.timeout => exact hk _ _ hboth
    all_goals cases hboth

/-- Related states lead to related states, whatever the turns are. -/
theorem TurnRelation.runTurns (ts : List Turn) :
    ∀ ps u v, R ps u v → ∃ qs, R qs (runTurns abortPs ts ps u) (runTurns abortPs ts ps v) := by
  induction ts with
  | nil =>
    intro ps u v h
    have habort : ∀ u v, R abortPs u v → ∃ qs, R qs (Machine.runQuiet id abortPs u) (Machine.runQuiet id abortPs v) :=
      hR.runQuiet (fun u v h => ⟨abortPs, h⟩) abortPs
    obtain ⟨qs, hqs⟩ := hR.runQuiet habort ps u v h
    unfold Machine.runTurns
    exact ⟨qs, hR.schedule [] hqs⟩
  | cons t ts ih =>
    intro ps u v h
    cases ps with
    | nil => unfold Machine.runTurns; exact ⟨[], hR.schedule (t :: ts) h⟩
    | cons p ps =>
      cases t with
      | device clk data => unfold Machine.runTurns; exact ih _ _ _ (hR.device clk data h)
      | caller offer => unfold Machine.runTurns; exact ih _ _ _ (hR.caller offer h)
      | reset => unfold Machine.runTurns; exact ⟨_, hR.schedule ts (hR.reset h)⟩
      | host cycles =>
        have hboth := hR.turn (some cycles) h
        unfold Machine.runTurns
        cases hu : u.primTurn p (some cycles) <;> cases hv : v.primTurn p (some cycles) <;> rw [hu, hv] at hboth
        case done.done => exact ih _ _ _ hboth
        case hold.hold => exact ih _ _ _ hboth
        case timeout.timeout => exact ih _ _ _ hboth
        all_goals cases hboth

end

/-! ## Sequencers that differ in their leftovers only -/

/-- The sequencers are equally far, and have the same leftovers where `ps` reads them. -/
structure SameReads (ps : List Prim) (r q : Seq) : Prop where
  busy : q.busy = r.busy
  timer : q.timer = r.timer
  sampled : readsFirst .sampled ps = true → q.cur.sampled = r.cur.sampled
  txb : readsFirst .txb ps = true → q.txb = r.txb
  rxb : readsFirst .rxb ps = true → q.rxb = r.rxb

theorem readsFirst_of_read {p : Prim} {x : Leftover} (h : leftoverRead p = some x) (ps : List Prim) :
    readsFirst x (p :: ps) = true := by
  simp [readsFirst, h]

theorem readsFirst_cons {p : Prim} {ps : List Prim} {x : Leftover} (hw : leftoverWritten p ≠ some x)
    (h : readsFirst x ps = true) : readsFirst x (p :: ps) = true := by
  simp [readsFirst, hw, h]

/-- The sequencer after a completed primitive (R26). -/
def Seq.next (q : Seq) : Seq := { q with cur := { q.cur with pos := q.cur.pos + 1 }, timer := 0 }

section

variable {p : Prim} {ps abortPs : List Prim} {r q : Seq}

theorem SameReads.next (h : SameReads ps r q) : SameReads ps r.next q.next := ⟨h.busy, rfl, h.sampled, h.txb, h.rxb⟩

theorem SameReads.idle (h : SameReads ps r q) : SameReads ps { r with busy := false } { q with busy := false } :=
  ⟨rfl, h.timer, h.sampled, h.txb, h.rxb⟩

/-- A primitive that overwrites no leftover. -/
theorem SameReads.tail (h : SameReads (p :: ps) r q) (hw : leftoverWritten p = none) : SameReads ps r q where
  busy := h.busy
  timer := h.timer
  sampled hr := h.sampled (readsFirst_cons (by simp [hw]) hr)
  txb hr := h.txb (readsFirst_cons (by simp [hw]) hr)
  rxb hr := h.rxb (readsFirst_cons (by simp [hw]) hr)

/-- Lists that read no leftover first need none to be the same. -/
theorem SameReads.of_readsNone (hps : ∀ x, readsFirst x ps = false) (hbusy : q.busy = r.busy)
    (htimer : q.timer = r.timer) : SameReads ps r q :=
  ⟨hbusy, htimer, by simp [hps], by simp [hps], by simp [hps]⟩

end

/-! ## States that differ in their leftovers only -/

/-- The sequencer `q` in the place of the state's. -/
def State.withSeq (s : State) (q : Seq) : State := { s with seq := q }

/-- The states are the same but for leftovers that `ps` does not read. -/
def SameButLeftovers (ps : List Prim) (s t : State) : Prop := ∃ q, t = s.withSeq q ∧ SameReads ps s.seq q

theorem State.sense_withSeq (s : State) (q : Seq) (l : Line) :
    (s.withSeq q).sense l = ((s.sense l).1, (s.sense l).2.withSeq q) := by
  cases h : s.lines.dir l with
  | input => rw [State.sense_of_input h, State.sense_of_input (s := s.withSeq q) h]; rfl
  | output => rw [State.sense_of_output h, State.sense_of_output (s := s.withSeq q) h]; rfl

theorem State.elapsed_withSeq {s : State} {q : Seq} (h : q.timer = s.seq.timer) (turn : Option Nat) (need : Nat) :
    (s.withSeq q).elapsed turn need = s.elapsed turn need := by
  cases turn with
  | none => rfl
  | some cycles => simp [State.elapsed, State.withSeq, h]

section

variable {ps abortPs : List Prim} {s : State} {q : Seq}

theorem SameReads.advance (h : SameReads ps s.seq q) : SameButLeftovers ps s.advance (s.withSeq q).advance :=
  ⟨q.next, rfl, h.next⟩

theorem SameReads.tick (h : SameReads ps s.seq q) (n : Nat) : SameButLeftovers ps (s.tick n) ((s.withSeq q).tick n) :=
  ⟨{ q with timer := q.timer + n }, rfl, h.busy, congrArg (· + n) h.timer, h.sampled, h.txb, h.rxb⟩

theorem SameReads.abort (habort : ∀ x, readsFirst x abortPs = false) (h : SameReads ps s.seq q) :
    SameButLeftovers abortPs s.abort (s.withSeq q).abort :=
  ⟨{ q with cur := { q.cur with aborting := true, pos := 0 }, timer := 0 }, rfl, .of_readsNone habort h.busy rfl⟩

theorem SameReads.delayTurn {p : Prim} (h : SameReads (p :: ps) s.seq q) (hp : leftoverWritten p = none)
    (T : State → State → Prop) (turn : Option Nat) (us : Nat) :
    PrimResult.Both (SameButLeftovers ps) (SameButLeftovers (p :: ps)) T (s.delayTurn turn us)
      ((s.withSeq q).delayTurn turn us) := by
  have helapsed :
      (s.withSeq q).elapsed turn (cyclesOf (s.withSeq q).params us) = s.elapsed turn (cyclesOf s.params us) :=
    State.elapsed_withSeq h.timer turn _
  unfold State.delayTurn
  rw [helapsed]
  split
  · exact (h.tail hp).advance
  · exact h.tick _

theorem SameReads.waitTurn {l : Line} {v : Bool} (habort : ∀ x, readsFirst x abortPs = false)
    (h : SameReads (.waitUntil l v :: ps) s.seq q) (turn : Option Nat) :
    PrimResult.Both (SameButLeftovers ps) (SameButLeftovers (.waitUntil l v :: ps)) (SameButLeftovers abortPs)
      (s.waitTurn turn l v) ((s.withSeq q).waitTurn turn l v) := by
  have h' : SameReads (.waitUntil l v :: ps) (s.sense l).2.seq q := by rwa [s.sense_seq l]
  unfold State.waitTurn
  rw [State.sense_withSeq]
  dsimp only
  split
  · exact (h'.tail rfl).advance
  have hparams : ((s.sense l).2.withSeq q).params = (s.sense l).2.params := rfl
  rw [hparams]
  split
  · exact h'.tick _
  rw [State.elapsed_withSeq h'.timer]
  split
  · exact h'.abort habort
  · exact h'.tick _

end

/-- A run does not depend on leftovers that it does not read first. -/
theorem sameButLeftovers_turnRelation {abortPs : List Prim} (habort : ∀ x, readsFirst x abortPs = false) :
    TurnRelation abortPs SameButLeftovers where
  turn {p ps u v} turn hsame := by
    obtain ⟨q, rfl, h⟩ := hsame
    cases p with
    | waitUntil l level => exact h.waitTurn habort turn
    | delay us => exact h.delayTurn rfl _ turn us
    | settle => exact h.delayTurn rfl _ turn u.params.tSettleUs
    | loadTxb b =>
      exact ⟨({ q with txb := b } : Seq).next, rfl, .next ⟨h.busy, h.timer,
        fun hr => h.sampled (readsFirst_cons nofun hr), fun _ => rfl, fun hr => h.rxb (readsFirst_cons nofun hr)⟩⟩
    | clearRxb =>
      exact ⟨({ q with rxb := 0 } : Seq).next, rfl, .next ⟨h.busy, h.timer,
        fun hr => h.sampled (readsFirst_cons nofun hr), fun hr => h.txb (readsFirst_cons nofun hr), fun _ => rfl⟩⟩
    | senseLine l =>
      rw [State.primTurn_senseLine, State.primTurn_senseLine, State.sense_withSeq]
      refine ⟨({ q with cur := { q.cur with sampled := (u.sense l).1 } } : Seq).next, rfl, .next ?_⟩
      rw [State.setSampled_seq, State.sense_seq]
      exact ⟨h.busy, h.timer, fun _ => rfl, fun hr => h.txb (readsFirst_cons nofun hr),
        fun hr => h.rxb (readsFirst_cons nofun hr)⟩
    | sampleRxBit i =>
      have hrxb : q.rxb = u.seq.rxb := h.rxb (readsFirst_of_read rfl ps)
      rw [State.primTurn_sampleRxBit, State.primTurn_sampleRxBit, State.sense_withSeq]
      refine ⟨({ q with rxb := setRxBit q.rxb i (u.sense .data).1 } : Seq).next, rfl, .next ?_⟩
      rw [State.setRxb_seq, State.sense_seq]
      exact ⟨h.busy, h.timer, (h.tail rfl).sampled, (h.tail rfl).txb, fun _ => by rw [hrxb]⟩
    | driveTxBit i =>
      have htxb : q.txb = u.seq.txb := h.txb (readsFirst_of_read rfl ps)
      exact ⟨q.next, by rw [← htxb]; rfl, (h.tail rfl).next⟩
    | driveTxParity =>
      have htxb : q.txb = u.seq.txb := h.txb (readsFirst_of_read rfl ps)
      exact ⟨q.next, by rw [← htxb]; rfl, (h.tail rfl).next⟩
    | pushSampled =>
      have hsampled : q.cur.sampled = u.seq.cur.sampled := h.sampled (readsFirst_of_read rfl ps)
      exact ⟨q.next, by rw [← hsampled]; rfl, (h.tail rfl).next⟩
    | respond d =>
      have hdata : (u.withSeq q).rspData d = u.rspData d := by
        cases d with
        | sampled => exact congrArg zextBit (h.sampled (readsFirst_of_read rfl ps))
        | received => exact congrArg zextRxb (h.rxb (readsFirst_of_read rfl ps))
        | _ => rfl
      exact ⟨({ q with busy := false } : Seq).next, by rw [hdata]; rfl, (h.tail rfl).idle.next⟩
    | takeReport | respondTimeout | respondIllegal =>
      exact ⟨({ q with busy := false } : Seq).next, rfl, (h.tail rfl).idle.next⟩
    | _ => exact ⟨q.next, rfl, (h.tail rfl).next⟩
  device clk data hsame := by
    obtain ⟨q, rfl, h⟩ := hsame
    exact ⟨q, rfl, h⟩
  caller offer hsame := by
    obtain ⟨q, rfl, h⟩ := hsame
    exact ⟨q, rfl, h⟩
  reset hsame := by
    obtain ⟨q, rfl, -⟩ := hsame
    exact ⟨Seq.reset, rfl, rfl, rfl, fun _ => rfl, fun _ => rfl, fun _ => rfl⟩
  schedule ts hsame := by
    obtain ⟨q, rfl, h⟩ := hsame
    exact ⟨q, rfl, h⟩

/-- An idle block runs every command to a next state, from its first primitive. -/
theorem exec_of_idle (i : Instr) {s : State} (hidle : s.seq.busy = false) :
    exec i s = .next (runTurns (abortPrimsOf i) s.env.schedule (primsOf i) (s.accept i)) := by
  obtain ⟨p, ps, hps⟩ := List.exists_cons_of_ne_nil (primsOf_ne_nil i)
  rw [exec_eq_runCommand, hps, runCommand_of_idle hidle]

/-- Settles O54: from two states that differ in their leftovers the same run leads to two such states. -/
theorem leftoversHaveNoEffect : Obligations.LeftoversHaveNoEffect := by
  unfold Obligations.LeftoversHaveNoEffect
  intro i s c x r n hidle
  have haccept : SameButLeftovers (primsOf i) (s.accept i)
      ((s.withSeq { busy := false, cur := c, txb := x, rxb := r, timer := n }).accept i) :=
    ⟨_, rfl, .of_readsNone (readsFirst_primsOf i) rfl rfl⟩
  obtain ⟨qs, q, hu, hreads⟩ :=
    (sameButLeftovers_turnRelation (readsFirst_abortPrimsOf i)).runTurns s.env.schedule _ _ _ haccept
  exact ⟨_, _, exec_of_idle i hidle, (exec_of_idle i rfl).trans (congrArg Host.Outcome.next hu), rfl, rfl, rfl, rfl,
    rfl, rfl, hreads.busy⟩

end Sys2Proof.Machine
end

section
/-! The command words: their fields, decoding and encoding (R47 to R53, R62), and the words of the pseudo-instruction
DELAY_LONG (R63). -/

namespace Sys2Proof

open Sys2Proof.Machine

/-! ## The fields of a word -/

@[simp] theorem lnField_packWord (op : BitVec 4) (ln : BitVec 2) (v : Bool) (b : Byte) :
    lnField (packWord op ln v b) = ln := by
  apply BitVec.eq_of_getLsbD_eq
  intro i hi
  rw [lnField, BitVec.getLsbD_extractLsb', getLsbD_packWord]
  interval_cases i <;> simp

@[simp] theorem vField_packWord (op : BitVec 4) (ln : BitVec 2) (v : Bool) (b : Byte) :
    vField (packWord op ln v b) = v := by
  rw [vField, getLsbD_packWord]
  simp

@[simp] theorem bField_packWord (op : BitVec 4) (ln : BitVec 2) (v : Bool) (b : Byte) :
    bField (packWord op ln v b) = b := by
  apply BitVec.eq_of_getLsbD_eq
  intro i hi
  rw [bField, BitVec.getLsbD_extractLsb', getLsbD_packWord]
  simp [hi]

/-- A mask of whole fields, without the bit `R`, leaves of a word those fields. -/
theorem and_packWord (w : CmdWord) (op : BitVec 4) (ln : BitVec 2) (v : Bool) (b : Byte) :
    w &&& packWord op ln v b = packWord (opField w &&& op) (lnField w &&& ln) (vField w && v) (bField w &&& b) := by
  apply BitVec.eq_of_getLsbD_eq
  intro i hi
  rw [BitVec.getLsbD_and, getLsbD_packWord, getLsbD_packWord]
  simp only [opField, lnField, vField, bField, BitVec.getLsbD_and, BitVec.getLsbD_extractLsb']
  interval_cases i <;> simp

/-! ## The words of a command -/

@[simp] theorem lineSelOf_lnOf (line : LineSel) : lineSelOf (lnOf line) = line := by cases line <;> rfl

@[simp] theorem lnOf_lineSelOf : ∀ ln : BitVec 2, lnOf (lineSelOf ln) = ln := by decide

@[simp] theorem dirOfV_vOfDir (d : Dir) : dirOfV (vOfDir d) = d := by cases d <;> rfl

@[simp] theorem vOfDir_dirOfV (v : Bool) : vOfDir (dirOfV v) = v := by cases v <;> rfl

theorem checkLine_eq_ok {op : BitVec 4} {line : LineSel} {i j : Instr} :
    checkLine op line i = .ok j ↔ i.wellFormed = true ∧ i = j := by
  cases h : i.wellFormed <;> simp [checkLine, h]

theorem checkLine_eq_error {op : BitVec 4} {line : LineSel} {i : Instr} :
    (∃ e, checkLine op line i = .error e) ↔ i.wellFormed = false := by
  cases h : i.wellFormed <;> simp [checkLine, h]

/-- Every well-formed command comes back from its word. -/
theorem decode_encode {i : Instr} (h : i.wellFormed = true) : decode (encode i) = .ok i := by
  have hcheck := fun op line => checkLine_eq_ok (op := op) (line := line).2 ⟨h, rfl⟩
  cases i with
  | setDir line dir | drive line level | sense line | wait line level =>
    simp [encode, decode, opField_packWord, hcheck]
  | delay b | sendByte b => simp [encode, decode, opField_packWord]
  | pushBit bit => simp [encode, decode, opField_packWord]
  | _ => rfl

/-- A word of 16 bits is its own row of the opcode table (R53). -/
theorem decodeTableWord_of_decode {w : CmdWord} {i : Instr} (h : decode w = .ok i) :
    decodeTableWord 16 w.toNat = some i := by
  have hw : BitVec.ofNat 16 (w.toNat % 2 ^ 16) = w := by
    rw [Nat.mod_eq_of_lt w.isLt, BitVec.ofNat_toNat, BitVec.setWidth_eq]
  simp only [decodeTableWord, hw, h]
  rfl

/-- Settles O9, by the fields of the word of each command. -/
theorem decodeOfEncodeIsTheCommand : Obligations.DecodeOfEncodeIsTheCommand := by
  unfold Obligations.DecodeOfEncodeIsTheCommand
  intro i h
  exact ⟨decode_encode h, decodeTableWord_of_decode (decode_encode h)⟩

/-- Settles O11, word by word. -/
theorem writtenWordsDecode : Obligations.WrittenWordsDecode := by
  unfold Obligations.WrittenWordsDecode
  decide

/-! ## The fields that a command uses -/

/-- The commands that use `LN`: SET_DIR, DRIVE, SENSE and WAIT (R50). -/
def usesLine (op : BitVec 4) : Bool := op ∈ [1, 2, 3, 4]

/-- The commands that use `V`: SET_DIR, DRIVE, WAIT and PUSH_BIT (R50). -/
def usesV (op : BitVec 4) : Bool := op ∈ [1, 2, 4, 9]

/-- The commands that use `B`: DELAY and SEND_BYTE (R50). -/
def usesByte (op : BitVec 4) : Bool := op ∈ [6, 7]

theorem usedBits_eq_packWord :
    ∀ op : BitVec 4, usedBits op =
      packWord 0xF (if usesLine op then 3 else 0) (usesV op) (if usesByte op then 0xFF else 0) := by
  decide

theorem and_ite_allOnes {n : Nat} (x : BitVec n) (c : Bool) :
    (x &&& if c then BitVec.allOnes n else 0) = if c then x else 0 := by
  cases c <;> simp

/-- A word with zeros in the unused fields, field by field (R51). -/
theorem and_usedBits (w : CmdWord) (op : BitVec 4) :
    w &&& usedBits op =
      packWord (opField w) (if usesLine op then lnField w else 0) (vField w && usesV op)
        (if usesByte op then bField w else 0) := by
  rw [usedBits_eq_packWord, and_packWord]
  congr 1
  · exact BitVec.and_allOnes
  · exact and_ite_allOnes _ _
  · exact and_ite_allOnes _ _

theorem opField_and_usedBits (w : CmdWord) (op : BitVec 4) : opField (w &&& usedBits op) = opField w := by
  rw [and_usedBits, opField_packWord]

/-! ## What decoding makes of a word -/

theorem opField_eq_ofNat (w : CmdWord) : opField w = BitVec.ofNat 4 (opField w).toNat := by simp

/-- Decoding sees no unused field. -/
theorem decode_and_usedBits (w : CmdWord) : decode (w &&& usedBits (opField w)) = decode w := by
  have hop := opField_eq_ofNat w
  rw [and_usedBits]
  unfold decode
  simp only [opField_packWord, lnField_packWord, vField_packWord, bField_packWord]
  generalize (opField w).toNat = n at hop
  rw [hop]
  split
  all_goals simp [usesLine, usesV, usesByte]

/-- Settles O8: words that agree on the used fields agree on `OP`, and so use the same fields. -/
theorem decodingIgnoresUnusedFields : Obligations.DecodingIgnoresUnusedFields := by
  unfold Obligations.DecodingIgnoresUnusedFields
  intro w v h
  have hop : opField w = opField v := by rw [← opField_and_usedBits w, h, opField_and_usedBits]
  calc decode w = decode (w &&& usedBits (opField w)) := (decode_and_usedBits w).symm
    _ = decode (v &&& usedBits (opField v)) := by rw [h, hop]
    _ = decode v := decode_and_usedBits v

/-- Decoding loses only the unused fields, and lets no command through that is not well formed. -/
theorem encode_of_decode {w : CmdWord} {i : Instr} (h : decode w = .ok i) :
    i.wellFormed = true ∧ encode i = w &&& usedBits (opField w) := by
  have hop := opField_eq_ofNat w
  rw [and_usedBits]
  unfold decode at h
  dsimp only at h
  generalize (opField w).toNat = n at h hop
  rw [hop] at h ⊢
  split at h
  case h_2 | h_3 | h_4 | h_5 => -- the commands with a line select
    obtain ⟨hw, rfl⟩ := checkLine_eq_ok.1 h
    exact ⟨hw, by simp [encode, usesLine, usesV, usesByte]⟩
  case h_15 => cases h -- the reserved opcodes
  all_goals
    cases h
    exact ⟨rfl, by simp [encode, usesLine, usesV, usesByte]⟩

/-- Settles O10, by the fields of the decoded word. -/
theorem encodeOfDecodedClearsIgnoredFields : Obligations.EncodeOfDecodedClearsIgnoredFields := by
  unfold Obligations.EncodeOfDecodedClearsIgnoredFields
  intro w i h
  exact encode_of_decode h

theorem isPs2Line_lineSelOf : ∀ ln : BitVec 2, (lineSelOf ln).isPs2Line = false ↔ ln = 2 ∨ ln = 3 := by decide

theorem isDrivable_lineSelOf : ∀ ln : BitVec 2, (lineSelOf ln).isDrivable = false ↔ ln = 3 := by decide

/-- The words that are rejected are those of R52. -/
theorem decode_eq_error (w : CmdWord) : (∃ e, decode w = .error e) ↔ illegalWordBits w := by
  have hop := opField_eq_ofNat w
  have hlt := (opField w).isLt
  unfold decode illegalWordBits
  dsimp only
  generalize (opField w).toNat = n at hlt hop ⊢
  rw [hop]
  split
  case h_2 | h_4 | h_5 => -- SET_DIR, SENSE and WAIT
    simp [checkLine_eq_error, Instr.wellFormed, isPs2Line_lineSelOf]
  case h_3 => -- DRIVE
    simp [checkLine_eq_error, Instr.wellFormed, isDrivable_lineSelOf]
  case h_15 => -- the reserved opcodes
    have hn : n = 14 ∨ n = 15 := by grind
    rcases hn with rfl | rfl <;> simp
  all_goals simp

/-! ## DELAY_LONG, and the parity bit -/

/-- The counts of the DELAY commands of `DELAY_LONG us` (R63). -/
def delayLongBytes (us : Nat) : List Byte :=
  List.replicate (us / 255) 255 ++ if us % 255 = 0 then [] else [BitVec.ofNat 8 (us % 255)]

theorem expand_delayLong (p : Params) (us : Nat) : expand p (.delayLong us) = (delayLongBytes us).map .delay := by
  unfold delayLongBytes
  split <;> simp [expand, delayLongExpansion, *]

theorem sum_delayLongBytes (us : Nat) : ((delayLongBytes us).map BitVec.toNat).sum = us := by
  have hdiv := Nat.div_add_mod' us 255
  rw [delayLongBytes, List.map_append, List.sum_append, List.map_replicate, List.sum_replicate_nat]
  have hrest : ((if us % 255 = 0 then [] else [BitVec.ofNat 8 (us % 255)]).map BitVec.toNat).sum = us % 255 := by
    split
    · next h => exact h.symm
    · simp
      omega
  rw [hrest]
  exact hdiv

/-- Settles O13: the counts are the quotient of 255 and the rest. -/
theorem delayLongAddsUp : Obligations.DelayLongAddsUp := by
  unfold Obligations.DelayLongAddsUp
  exact fun p us => ⟨delayLongBytes us, expand_delayLong p us, sum_delayLongBytes us⟩

/-- How many elements of a list meet `f`, with the exclusive or of a start value and all of `f` added, has the parity of
the start value. -/
theorem length_filter_add_foldl_xor {α : Type} (f : α → Bool) (l : List α) :
    ∀ a : Bool, ((l.filter f).length + (l.foldl (fun x i => x ^^ f i) a).toNat) % 2 = a.toNat := by
  induction l with
  | nil => intro a; cases a <;> rfl
  | cons i l ih =>
    intro a
    have h := ih (a ^^ f i)
    cases hf : f i with
    | false => simpa [hf] using h
    | true =>
      simp only [hf, List.filter_cons_of_pos, List.foldl_cons, List.length_cons] at h ⊢
      cases a <;> simp at h ⊢ <;> omega

theorem parity_eq_foldl (v : Byte) : parity v = (List.range 8).foldl (fun x i => x ^^ v.getLsbD i) true := by
  simp only [parity, List.range_succ, List.range_zero, List.nil_append, List.cons_append, List.foldl_cons,
    List.foldl_nil]

/-- Settles O12: the parity bit is the exclusive or of 1 and the bits of the byte (R59). -/
theorem parityMakesTheOnesOdd : Obligations.ParityMakesTheOnesOdd := by
  unfold Obligations.ParityMakesTheOnesOdd
  intro v
  have h := length_filter_add_foldl_xor (v.getLsbD ·) (List.range 8) true
  rw [← parity_eq_foldl] at h
  simpa [Bool.toNat, Bool.cond_eq_ite] using h

end Sys2Proof
end

section
/-! The responses: their form, and what refusing a word does. -/

namespace Sys2Proof.Machine

/-! ## The form of a response (R54 to R56) -/

theorem status_rspWord (st : BitVec 4) (d : BitVec 25) : (rspWord st d).extractLsb' 28 4 = st :=
  (BitVec.extractLsb'_append_eq_of_le (by decide)).trans BitVec.extractLsb'_append_eq_left

theorem zeros_rspWord (st : BitVec 4) (d : BitVec 25) : (rspWord st d).extractLsb' 25 3 = 0 :=
  (BitVec.extractLsb'_append_eq_of_le (by decide)).trans BitVec.extractLsb'_append_eq_right

theorem wellFormedRsp_ok (d : BitVec 25) : wellFormedRsp (rspWord statusOk d) :=
  ⟨zeros_rspWord _ _, .inl (status_rspWord _ _)⟩

theorem wellFormedRsp_timeout : wellFormedRsp (rspWord statusLineTimeout 0) :=
  ⟨zeros_rspWord _ _, .inr ⟨.inr (status_rspWord _ _), rfl⟩⟩

theorem wellFormedRsp_illegal : wellFormedRsp (rspWord statusIllegal 0) :=
  ⟨zeros_rspWord _ _, .inr ⟨.inl (status_rspWord _ _), rfl⟩⟩

/-- The response, if one is presented, is well formed. -/
def Block.rspOk (k : Block) : Prop := ∀ w, k.rsp = some w → wellFormedRsp w

theorem Block.rspOk_of_none {k : Block} (h : k.rsp = none) : k.rspOk := by simp [Block.rspOk, h]

theorem Block.rspOk_respond {k : Block} {st : BitVec 4} {d : BitVec 25} (h : wellFormedRsp (rspWord st d)) :
    (k.respond st d).rspOk := by
  rintro w ⟨⟩
  exact h

/-- Every primitive of a command leaves the response or presents a well-formed one. -/
theorem Block.effect_rspOk {k : Block} (p : Prim) (b : Bool) (h : k.rspOk) : (k.effect b p).rspOk := by
  cases p with
  | respond d => cases d <;> exact Block.rspOk_respond (wellFormedRsp_ok _)
  | takeReport => exact Block.rspOk_respond (wellFormedRsp_ok _)
  | respondTimeout => exact Block.rspOk_respond wellFormedRsp_timeout
  | respondIllegal => exact Block.rspOk_respond wellFormedRsp_illegal
  | _ => exact h

/-- What every primitive keeps of the block's registers is kept along a run. -/
theorem blockInvariant_of_effect {C : Block → Prop} (hC : ∀ p k b, C k → C (k.effect b p)) (abortPs : List Prim) :
    TurnInvariant abortPs (fun _ s => C s.block) where
  done {p qs s s' turn} h e := by
    obtain ⟨b, hblock⟩ := (TurnDone.of_eq e).effect
    exact hblock ▸ hC p _ b h
  hold h e := (TurnHeld.of_eq e).block ▸ h
  timeout h e := (TurnTimedOut.of_eq e).block ▸ h
  device _ _ h := h
  caller _ h := h
  schedule _ h := h

/-- Settles O7: a step starts with no response, and every primitive presents a well-formed one or none. -/
theorem everyResponseIsWellFormed : Obligations.EveryResponseIsWellFormed := by
  unfold Obligations.EveryResponseIsWellFormed
  intro s t w h
  suffices hok : t.block.rspOk from hok w
  rcases step_endsIn (P := fun _ _ u => u.block.rspOk)
    (fun _ _ abortPs _ => blockInvariant_of_effect (fun p _ b => Block.effect_rspOk p b) abortPs)
    (fun _ => Block.rspOk_of_none rfl) (fun _ _ _ _ => Block.rspOk_of_none rfl) h with
    ⟨i, qs, hok, -⟩ | ⟨u, ts, -, rfl⟩ | ⟨-, turn, ts, rfl⟩ | ⟨-, rfl⟩
  · exact hok
  · exact Block.rspOk_of_none rfl
  · cases turn <;> exact Block.rspOk_of_none rfl
  · exact Block.rspOk_of_none rfl

/-! ## A refused word -/

/-- With no reset to come, refusing a word is the one response `ILLEGAL`, whatever the other agents do (R102). -/
theorem runIllegal_answers {i : Instr} {s : State} (hidle : s.seq.busy = false) (hreset : s.noReset) :
    ∃ t bs, runIllegal i s = .next t ∧ RanTo (s.accept i) illegalPrims bs t := by
  obtain ⟨t, bs, hrun, hran, -⟩ := runCommand_of_noReset (i := i) (ps := illegalPrims) [] (List.cons_ne_nil _ _)
    hidle hreset ⟨nofun, trivial⟩ (by simp [illegalPrims])
  exact ⟨t, bs, hrun, hran⟩

/-- With nothing scheduled, refusing a word leaves the ports and the agents outside the block. -/
theorem runIllegal_still {i : Instr} {s t : State} (hidle : s.seq.busy = false) (hstill : s.still)
    (hrun : runIllegal i s = .next t) : t.port.cmd = s.port.cmd ∧ t.env = s.env ∧ t.record = s.record := by
  rw [runIllegal, illegalPrims, runCommand_of_idle hidle, hstill] at hrun
  cases hrun
  exact ⟨rfl, congrArg (fun ts => { s.env with schedule := ts }) hstill.symm, rfl⟩

/-- Settles O3: what is rejected is what R52 says, and the step of a rejected word is its one response. -/
theorem illegalWordsAreRefusedAndChangeNothing : Obligations.IllegalWordsAreRefusedAndChangeNothing := by
  unfold Obligations.IllegalWordsAreRefusedAndChangeNothing
  refine ⟨decode_eq_error, fun s w hidle hreset hoffer hillegal => ?_⟩
  obtain ⟨e, hdecode⟩ := (decode_eq_error w).2 hillegal
  have hhead : s.env.schedule.head? ≠ some .reset := fun h => hreset (List.mem_of_mem_head? h)
  obtain ⟨t, bs, hrun, hran⟩ := runIllegal_answers (i := noCommand) (s := s.newCycle.takeOffer) hidle hreset
  refine ⟨t, (step_of_illegal hhead hidle hoffer hdecode).trans hrun, hran.busy, hran.rsp,
    ⟨hran.lines, hran.dec, hran.txb, hran.rxb, hran.params⟩, fun hstill => ?_⟩
  exact runIllegal_still (s := s.newCycle.takeOffer) hidle hstill hrun

end Sys2Proof.Machine
end

section
/-! A command that is held at one of its waits, and the frame that SEND_BYTE drives (R58, R79 to R82). -/

namespace Sys2Proof.Machine

/-! ## A command held at a wait (R69) -/

theorem inputsOk_left {ps qs : List Prim} : ∀ {r : Lines}, inputsOk (ps ++ qs) r → inputsOk ps r := by
  induction ps with
  | nil => intros; trivial
  | cons p ps ih =>
    intro r h
    cases p with
    | writeDir l d => exact ih h
    | _ => exact ⟨h.1, ih h.2⟩

/-- After the first primitives the others sense only input lines. -/
theorem inputsOk_run {ps qs : List Prim} : ∀ {k : Block} (bs : List Bool), inputsOk (ps ++ qs) k.lines →
    inputsOk qs (k.run ps bs).lines := by
  induction ps with
  | nil => intro k bs h; exact h
  | cons p ps ih =>
    intro k bs h
    rw [Block.run]
    split
    · exact ih _ (inputsOk_cons _ h).2
    · exact ih _ (inputsOk_cons _ h).2

/-- With no turn left and no timeout, a wait on an input line whose level is not there holds the command (R69). -/
theorem runTurns_nil_of_unseen {s : State} {l : Line} {v : Bool} (abortPs ps : List Prim)
    (hinf : s.params.waitTimeoutUs = none) (hin : s.lines.dir l = .input)
    (hv : levelOf s.env.devClk s.env.devData l ≠ v) :
    runTurns abortPs [] (.waitUntil l v :: ps) s = (s.tick 0).setSchedule [] := by
  simp [runTurns, runQuiet, State.primTurn, State.waitTurn_infinite hinf, State.sense_of_input hin, s.dev_eq, hv]

/-- With no timeout, a command that finds the needs of its first primitives met by the whole schedule, and then awaits a
level that is not there, is held at that wait with the effects of the first primitives. -/
theorem exec_held_at {i : Instr} {s : State} {pre post : List Prim} {l : Line} {lv : Bool} {v : Served}
    (hps : primsOf i = pre ++ .waitUntil l lv :: post) (hidle : s.seq.busy = false)
    (hinf : s.params.waitTimeoutUs = none) (hin : inputsOk (primsOf i) s.lines)
    (hserves : s.serves (pre.map (needOf s.params)) = some v) (hrest : v.rest = [])
    (hlv : levelOf v.devClk v.devData l ≠ lv) :
    ∃ t, exec i s = .next t ∧ RanTo (s.accept i) pre v.samples t := by
  rw [hps] at hin
  obtain ⟨t, hrun, hran, hclk, hdata, -⟩ :=
    runTurns_of_serve (abortPrimsOf i) s.env.schedule pre (s.accept i) v (inputsOk_left hin) hserves
  have hdir : t.lines.dir l = .input := by
    rw [hran.lines]
    exact (inputsOk_run (k := (s.accept i).block) v.samples hin).1 l rfl
  refine ⟨(t.tick 0).setSchedule [], ?_, RanTo.setSchedule hran []⟩
  rw [exec_of_idle i hidle, hps, hrun, hrest,
    runTurns_nil_of_unseen _ _ (hran.params ▸ hinf) hdir (by rw [hclk, hdata]; exact hlv)]

/-- A need of one more turn is met when the block has the time to itself. -/
theorem State.serves_turn {s : State} {ns : List Need} {v : Served} (hserves : s.serves ns = some v)
    (hrest : v.rest = []) : s.serves (ns ++ [.turn]) = some v := by
  obtain ⟨clk, data, rest, samples⟩ := v
  subst hrest
  rw [State.serves, serve_append _ _ _ _ _ _ _ (.inr rfl), ← State.serves, hserves]
  simp [Served.andThen, serve, serveStill]

/-! ## The bits of a frame, and the pulses that drive them (R58, R79, R80) -/

/-- The primitive that drives the data line in the clock pulse after the first `k` of SEND_BYTE. -/
def sendBit (k : Nat) : Prim :=
  if k < 8 then .driveTxBit k else if k = 8 then .driveTxParity else .writeOut .data true

/-- The first `k` clock pulses of SEND_BYTE. -/
def sendPulsesPrims : Nat → List Prim
  | 0 => []
  | k + 1 => sendPulsesPrims k ++ handshakePrims (sendBit k)

theorem sendBitsPrims_eq : sendBitsPrims = sendPulsesPrims 10 := rfl

theorem needOf_sendBit (p : Params) (k : Nat) : needOf p (sendBit k) = .turn := by
  unfold sendBit
  split
  · rfl
  · split <;> rfl

theorem keepsSample_sendBit (k : Nat) : keepsSample (sendBit k) = false := by
  unfold sendBit
  split
  · rfl
  · split <;> rfl

theorem sendPulsesNeeds_succ (p : Params) (k : Nat) :
    sendPulsesNeeds p (k + 1) = sendPulsesNeeds p k ++ pulseNeeds p .turn := by
  simp [sendPulsesNeeds, List.replicate_succ']

theorem needs_sendPulsesPrims (p : Params) (k : Nat) :
    (sendPulsesPrims k).map (needOf p) = sendPulsesNeeds p k := by
  induction k with
  | zero => rfl
  | succ k ih =>
    rw [sendPulsesPrims, List.map_append, ih, sendPulsesNeeds_succ, handshakePrims]
    simp only [List.map_cons, needOf_sendBit]
    rfl

theorem needs_sendPrims (p : Params) (b : Byte) (k : Nat) :
    (sendStartPrims b ++ sendPulsesPrims k).map (needOf p) = sendStartNeeds p ++ sendPulsesNeeds p k := by
  rw [List.map_append, needs_sendPulsesPrims]
  rfl

theorem sendPulsesPrims_mono {k n : Nat} (h : k ≤ n) : sendPulsesPrims k <+: sendPulsesPrims n := by
  induction h with
  | refl => exact List.prefix_rfl
  | step _ ih => exact ih.trans (List.prefix_append _ _)

/-- SEND_BYTE around the pulse after the first `k`. -/
theorem primsOf_sendByte_pulse {k : Nat} (b : Byte) (hk : k ≤ 9) :
    ∃ post, primsOf (.sendByte b) = sendStartPrims b ++ sendPulsesPrims k ++ handshakePrims (sendBit k) ++ post := by
  obtain ⟨rest, hrest⟩ := sendPulsesPrims_mono (Nat.succ_le_succ hk)
  refine ⟨rest ++ (sendAckPrims ++ inhibitPrims ++ respondZero), ?_⟩
  rw [primsOf, sendBytePrims, sendBitsPrims_eq, ← hrest, sendPulsesPrims]
  simp only [List.append_assoc]

/-! ## The lines while SEND_BYTE drives its frame -/

theorem getLsbD_frameOf (v : Byte) (i : Nat) :
    (frameOf v).getLsbD i =
      if i = 0 then false else if i < 9 then v.getLsbD (i - 1) else if i = 9 then parity v else i = 10 := by
  show (1#1 ++ BitVec.ofBool (parity v) ++ v ++ 0#1 : BitVec (1 + 1 + 8 + 1)).getLsbD i = _
  simp only [BitVec.getLsbD_append]
  grind

/-- In the pulse after the first `k` the data line is driven to the next bit of the frame of `TXB` (R58, R80). -/
theorem effect_sendBit {k : Nat} (hk : k ≤ 9) (blk : Block) (b : Bool) :
    blk.effect b (sendBit k) = { blk with lines := blk.lines.setOut .data ((frameOf blk.txb).getLsbD (k + 1)) } := by
  rw [getLsbD_frameOf, if_neg (Nat.succ_ne_zero k)]
  unfold sendBit
  split
  · next h => rw [if_pos (Nat.succ_lt_succ h)]; rfl
  · next h =>
    rw [if_neg (fun hlt => h (Nat.lt_of_succ_lt_succ hlt))]
    split
    · next h8 => subst h8; rfl
    · obtain rfl : k = 9 := by omega
      rfl

/-- Primitives that keep no sample hand all samples on. -/
theorem Block.run_append {ps : List Prim} (hps : ∀ p ∈ ps, keepsSample p = false) (qs : List Prim) (bs : List Bool) :
    ∀ k : Block, k.run (ps ++ qs) bs = (k.run ps bs).run qs bs := by
  induction ps with
  | nil => intro k; rfl
  | cons p ps ih =>
    intro k
    have hp := hps p List.mem_cons_self
    simp only [List.cons_append, Block.run, hp]
    exact ih (fun q hq => hps q (List.mem_cons_of_mem _ hq)) _

/-- SEND_BYTE of `b` is running and drives the bit `k` of its frame, with the clock released. -/
structure DrivesBit (b : Byte) (k : Nat) (blk : Block) : Prop where
  dataDir : blk.lines.dataDir = .output
  dataOut : blk.lines.dataOut = (frameOf b).getLsbD k
  clkDir : blk.lines.clkDir = .input
  txb : blk.txb = b
  busy : blk.busy = true
  rsp : blk.rsp = none

theorem State.accept_drivesBit (s : State) (i : Instr) (b : Byte) (bs : List Bool) :
    DrivesBit b 0 ((s.accept i).block.run (sendStartPrims b) bs) :=
  ⟨rfl, by rw [getLsbD_frameOf]; rfl, rfl, rfl, rfl, rfl⟩

theorem DrivesBit.effect_sendBit {b : Byte} {k : Nat} {blk : Block} (h : DrivesBit b k blk) (hk : k ≤ 9) (x : Bool) :
    DrivesBit b (k + 1) (blk.effect x (sendBit k)) := by
  rw [Machine.effect_sendBit hk, h.txb]
  exact ⟨h.dataDir, rfl, h.clkDir, rfl, h.busy, h.rsp⟩

/-- The release of the data line leaves the command running. -/
theorem DrivesBit.release {b : Byte} {k : Nat} {blk : Block} (h : DrivesBit b k blk) (bs : List Bool) :
    (blk.run [.writeDir .data .input] bs).busy = true ∧ (blk.run [.writeDir .data .input] bs).rsp = none ∧
      (blk.run [.writeDir .data .input] bs).lines.dataDir = .input :=
  ⟨h.busy, h.rsp, rfl⟩

theorem keepsSample_handshake {drive : Prim} (h : keepsSample drive = false) :
    ∀ p ∈ handshakePrims drive, keepsSample p = false := by
  simp only [handshakePrims, List.forall_mem_cons, h]
  exact ⟨rfl, rfl, trivial, rfl, nofun⟩

theorem keepsSample_sendPrims {b : Byte} {k : Nat} :
    ∀ p ∈ sendStartPrims b ++ sendPulsesPrims k, keepsSample p = false := by
  induction k with
  | zero => simp [sendPulsesPrims, sendStartPrims, inhibitPrims, keepsSample]
  | succ k ih =>
    rw [sendPulsesPrims, ← List.append_assoc, List.forall_mem_append]
    exact ⟨ih, keepsSample_handshake (keepsSample_sendBit k)⟩

/-- A clock pulse up to its drive. -/
def handshakeLowPrims (drive : Prim) : List Prim := [.waitUntil .clk false, .settle, drive]

theorem Block.run_handshakeLow {drive : Prim} (h : keepsSample drive = false) (blk : Block) (bs : List Bool) :
    blk.run (handshakeLowPrims drive) bs = blk.effect false drive := by
  simp only [handshakeLowPrims, Block.run, h, Bool.false_eq_true, if_false]
  rfl

theorem Block.run_handshake {drive : Prim} (h : keepsSample drive = false) (blk : Block) (bs : List Bool) :
    blk.run (handshakePrims drive) bs = blk.effect false drive := by
  simp only [handshakePrims, Block.run, h, Bool.false_eq_true, if_false]
  rfl

/-- After `k` clock pulses SEND_BYTE drives bit `k` of its frame. -/
theorem drivesBit_run (s : State) (i : Instr) (b : Byte) {k : Nat} (hk : k ≤ 10) (bs : List Bool) :
    DrivesBit b k ((s.accept i).block.run (sendStartPrims b ++ sendPulsesPrims k) bs) := by
  induction k with
  | zero => exact s.accept_drivesBit i b bs
  | succ k ih =>
    rw [sendPulsesPrims, ← List.append_assoc, Block.run_append keepsSample_sendPrims,
      Block.run_handshake (keepsSample_sendBit k)]
    exact (ih (by omega)).effect_sendBit (by omega) false

/-- In the next clock low, after its drive, it drives the next bit. -/
theorem drivesBit_run_low (s : State) (i : Instr) (b : Byte) {k : Nat} (hk : k ≤ 9) (bs : List Bool) :
    DrivesBit b (k + 1)
      ((s.accept i).block.run (sendStartPrims b ++ sendPulsesPrims k ++ handshakeLowPrims (sendBit k)) bs) := by
  rw [Block.run_append keepsSample_sendPrims, Block.run_handshakeLow (keepsSample_sendBit k)]
  exact (drivesBit_run s i b (by omega) bs).effect_sendBit hk false

/-- A SEND_BYTE that is held while it drives a bit. -/
theorem DrivesBit.holds {b : Byte} {k : Nat} {s t : State} {pre : List Prim} {bs : List Bool}
    (hexec : exec (.sendByte b) s = .next t) (hran : RanTo (s.accept (.sendByte b)) pre bs t)
    (h : DrivesBit b k ((s.accept (.sendByte b)).block.run pre bs)) :
    Holds (exec (.sendByte b) s) (fun t =>
      t.lines.dataDir = .output ∧ t.lines.dataOut = (frameOf b).getLsbD k ∧ t.lines.clkDir = .input ∧
        t.phase = .hostTransmitting) := by
  rw [← hran.block] at h
  have hbusy : t.seq.busy = true := h.busy
  have hcmd : t.seq.cur.cmd = .sendByte b := hran.cmd
  exact ⟨t, hexec, hbusy, h.rsp, h.dataDir, h.dataOut, h.clkDir, by simp [State.phase, State.sending, hbusy, hcmd]⟩

theorem needs_handshakeLowPrims (p : Params) (k : Nat) :
    (handshakeLowPrims (sendBit k)).map (needOf p) = [.see .clk false, .pass p.tSettleUs, .turn] := by
  rw [handshakeLowPrims]
  simp only [List.map_cons, needOf_sendBit]
  rfl

/-- Settles O27: SEND_BYTE is held at the wait after the primitives whose needs are met, which have driven
the bit. -/
theorem sendByteDrivesTheFrame : Obligations.SendByteDrivesTheFrame := by
  unfold Obligations.SendByteDrivesTheFrame
  have hin : ∀ (b : Byte) (r : Lines), inputsOk (primsOf (.sendByte b)) r := fun b =>
    inputsOk_primsOf_transceiver (i := .sendByte b) rfl
  refine ⟨fun s b k v hk hidle hinf hserves hrest hclk => ?_, fun s b k v hk hidle hinf hserves hrest hclk => ?_,
    fun s b v hidle hinf hserves hrest hdata => ?_⟩
  · obtain ⟨post, hps⟩ := primsOf_sendByte_pulse b hk
    rw [← needs_sendPrims s.params b k] at hserves
    obtain ⟨t, hexec, hran⟩ := exec_held_at (l := .clk) (lv := false)
      (hps.trans (List.append_assoc _ (handshakePrims _) _)) hidle hinf (hin b _) hserves hrest
      (by simp [levelOf, hclk])
    exact (drivesBit_run s _ b (by omega) v.samples).holds hexec hran
  · obtain ⟨post, hps⟩ := primsOf_sendByte_pulse b hk
    rw [← needs_sendPrims s.params b k, ← needs_handshakeLowPrims s.params k, ← List.map_append] at hserves
    obtain ⟨t, hexec, hran⟩ := exec_held_at (l := .clk) (lv := true) (post := post)
      (hps.trans (by simp [handshakePrims, handshakeLowPrims])) hidle hinf (hin b _) hserves hrest
      (by simp [levelOf, hclk])
    exact (drivesBit_run_low s _ b hk v.samples).holds hexec hran
  · rw [← needs_sendPrims s.params b 10] at hserves
    obtain ⟨t, hexec, hran⟩ := exec_held_at (i := .sendByte b)
      (pre := sendStartPrims b ++ sendPulsesPrims 10 ++ [.writeDir .data .input]) (l := .data) (lv := false)
      (post := [.waitUntil .clk false, .waitUntil .clk true, .waitUntil .data true] ++ inhibitPrims ++ respondZero)
      (by simp [primsOf, sendBytePrims, sendBitsPrims_eq, sendAckPrims]) hidle hinf (hin b _)
      (by rw [List.map_append]; exact State.serves_turn hserves hrest) hrest (by simp [levelOf, hdata])
    obtain ⟨hbusy, hrsp, hdir⟩ := (drivesBit_run s (.sendByte b) b (k := 10) le_rfl v.samples).release v.samples
    rw [← Block.run_append keepsSample_sendPrims, ← hran.block] at hbusy hrsp hdir
    exact ⟨t, hexec, hbusy, hrsp, hdir⟩

end Sys2Proof.Machine
end

section
/-! RX_BIT: commands that run one after the other, each with what those before it left of the schedule (R63, R92,
R100). -/

namespace Sys2Proof.Machine

/-! ## The levels that needs take -/

/-- The need takes a level. -/
def isSample : Need → Bool
  | .sample _ => true
  | _ => false

theorem serveStill_samples_length (clk data : Bool) (ns : List Need) :
    ∀ {bs : List Bool}, serveStill clk data ns = some bs → bs.length = ns.countP isSample := by
  fun_induction serveStill clk data ns with
  | case1 => rintro bs ⟨⟩; rfl
  | case2 ns ih => exact ih
  | case3 us ns ih => exact ih
  | case4 l ns ih => exact ih
  | case5 => nofun
  | case6 l ns ih =>
    intro bs h
    obtain ⟨bs, hbs, rfl⟩ := Option.map_eq_some_iff.1 h
    rw [List.length_cons, ih hbs, List.countP_cons_of_pos rfl]

/-- As many levels are taken as there are needs that take one. -/
theorem serve_samples_length (p : Params) (ts : List Turn) (ns : List Need) (clk data : Bool) (spent : Nat) :
    ∀ {v : Served}, serve p ts ns clk data spent = some v → v.samples.length = ns.countP isSample := by
  fun_induction serve p ts ns clk data spent with
  | case1 =>
    intro v h
    obtain ⟨bs, hbs, rfl⟩ := Option.map_eq_some_iff.1 h
    exact serveStill_samples_length _ _ _ hbs
  | case2 => rintro v ⟨⟩; rfl
  | case5 => nofun
  | case8 => nofun
  | case12 spent cycles ts l ns clk data ih =>
    intro v h
    obtain ⟨w, hw, rfl⟩ := Option.map_eq_some_iff.1 h
    rw [List.countP_cons_of_pos rfl, ← ih hw]
    rfl
  | _ => assumption

/-! ## One command after the other -/

theorem State.serves_nil (s : State) :
    s.serves [] =
      some { devClk := s.env.devClk, devData := s.env.devData, rest := s.env.schedule, samples := [] } := by
  unfold State.serves
  cases s.env.schedule <;> rfl

/-- A command whose needs are met, with others after them, does all its primitives, and the other needs are met from
where it ends. -/
theorem exec_of_serves_append {i : Instr} {s : State} {ms : List Need} {v : Served} (hidle : s.seq.busy = false)
    (hin : inputsOk (primsOf i) s.lines) (hserves : s.serves ((primsOf i).map (needOf s.params) ++ ms) = some v) :
    ∃ t bs w, exec i s = .next t ∧ RanTo (s.accept i) (primsOf i) bs t ∧
      bs.length = ((primsOf i).map (needOf s.params)).countP isSample ∧ t.serves ms = some w ∧ w.rest = v.rest ∧
      v.samples = bs ++ w.samples := by
  rw [State.serves, serve_append _ _ _ _ _ _ _ (.inr rfl)] at hserves
  obtain ⟨v1, hv1, hrest⟩ := Option.bind_eq_some_iff.1 hserves
  obtain ⟨w, hw, rfl⟩ := Option.map_eq_some_iff.1 hrest
  obtain ⟨t, hrun, hran, hsched, hclk, hdata⟩ :=
    runCommand_of_serve (i := i) (abortPrimsOf i) (primsOf_ne_nil i) hidle hin hv1
  refine ⟨t, v1.samples, w, (exec_eq_runCommand i s).trans hrun, hran, serve_samples_length _ _ _ _ _ _ hv1, ?_, rfl,
    rfl⟩
  rwa [State.serves, hran.params, hsched, hclk, hdata]

/-- WAIT on an input line, with its needs met, changes no register and takes no level (R76). -/
theorem exec_wait_of_serves {line : LineSel} {l : Line} {lv : Bool} {s : State} {ms : List Need} {v : Served}
    (hline : lineOf line = some l) (hidle : s.seq.busy = false) (hin : s.lines.dir l = .input)
    (hserves : s.serves (waitNeeds l lv ++ ms) = some v) :
    ∃ t w, exec (.wait line lv) s = .next t ∧ t.seq.busy = false ∧ t.lines = s.lines ∧ t.dec = s.dec ∧
      t.serves ms = some w ∧ w.rest = v.rest ∧ v.samples = w.samples := by
  have hps : primsOf (.wait line lv) = waitPrims l lv := by simp [primsOf, hline]
  obtain ⟨t, bs, w, hexec, hran, hlen, hw, hrest, hsamples⟩ :=
    exec_of_serves_append (i := .wait line lv) hidle
      (by rw [hps]; exact ⟨by rintro _ ⟨⟩; exact hin, nofun, trivial⟩) (by rw [hps]; exact hserves)
  rw [hps] at hran hlen
  obtain rfl : bs = [] := List.eq_nil_of_length_eq_zero hlen
  exact ⟨t, w, hexec, hran.busy, hran.lines, hran.dec, hw, hrest, hsamples⟩

/-- SAMPLE_PUSH on an input line, with its needs met, pushes the level it takes (R92). -/
theorem exec_samplePush_of_serves {s : State} {ms : List Need} {v : Served} (hidle : s.seq.busy = false)
    (hin : s.lines.dataDir = .input) (hserves : s.serves (samplePushNeeds ++ ms) = some v) :
    ∃ t b w, exec .samplePush s = .next t ∧ t.seq.busy = false ∧ t.lines = s.lines ∧ t.dec = s.dec.push b ∧
      t.serves ms = some w ∧ w.rest = v.rest ∧ v.samples = b :: w.samples := by
  obtain ⟨t, bs, w, hexec, hran, hlen, hw, hrest, hsamples⟩ :=
    exec_of_serves_append (i := .samplePush) hidle ⟨by rintro _ ⟨⟩; exact hin, nofun, nofun, trivial⟩ hserves
  obtain ⟨b, rfl⟩ := List.length_eq_one_iff.1 hlen
  exact ⟨t, b, w, hexec, hran.busy, hran.lines, hran.dec, hw, hrest, hsamples⟩

/-- PUSH_BIT pushes its bit (R91). -/
theorem exec_pushBit_still {s u : State} {b : Bool} (hidle : s.seq.busy = false)
    (hexec : exec (.pushBit b) (s.setSchedule []) = .next u) : u.dec = s.dec.push b := by
  rw [exec_of_idle (.pushBit b) (s := s.setSchedule []) hidle] at hexec
  cases hexec
  rfl

/-- Settles O43: the needs of the three commands are met one after the other, and the middle one takes the one level. -/
theorem rxBitPushesTheBitOfTheClockLow : Obligations.RxBitPushesTheBitOfTheClockLow := by
  unfold Obligations.RxBitPushesTheBitOfTheClockLow
  intro s v b hidle hclk hdata hserves hsamples
  rw [List.append_assoc] at hserves
  obtain ⟨t1, v1, hexec1, hidle1, hlines1, hdec1, hserves1, hrest1, hsamples1⟩ :=
    exec_wait_of_serves (line := .clk) rfl hidle hclk hserves
  obtain ⟨t2, b', v2, hexec2, hidle2, hlines2, hdec2, hserves2, hrest2, hsamples2⟩ :=
    exec_samplePush_of_serves hidle1 (hlines1 ▸ hdata) hserves1
  rw [← List.append_nil (waitNeeds _ _)] at hserves2
  obtain ⟨t3, v3, hexec3, hidle3, hlines3, hdec3, hserves3, hrest3, -⟩ :=
    exec_wait_of_serves (line := .clk) rfl hidle2 (hlines2 ▸ hlines1 ▸ hclk) hserves2
  obtain rfl : _ = v3 := Option.some.inj (t3.serves_nil.symm.trans hserves3)
  obtain ⟨rfl, -⟩ : b' = b ∧ v2.samples = [] := List.cons_eq_cons.1 (by rw [← hsamples2, ← hsamples1, hsamples])
  refine ⟨t3, by simp [rxBitExpansion, runAll, hexec1, hexec2, hexec3], hidle3, by rw [hlines3, hlines2, hlines1],
    hrest3.trans (hrest2.trans hrest1), fun u hexec => ?_⟩
  rw [exec_pushBit_still hidle hexec, hdec3, hdec2, hdec1]

end Sys2Proof.Machine
end

section
/-! The lines: the level of a wire that the host drives or releases (R65), the moves of the device (R64), and the record
of contention (R125). -/

namespace Sys2Proof.Machine

/-! ## The wire (R65) -/

theorem State.wire_of_low {s : State} {l : Line} (hdir : s.lines.dir l = .output) (hout : s.lines.out l = false) :
    s.wire l = some false := by
  simp [State.wire, State.contended, Lines.hostHigh, Lines.hostLow, hdir, hout]

theorem State.wire_of_high {s : State} {l : Line} (hdir : s.lines.dir l = .output) (hout : s.lines.out l = true) :
    s.wire l = if s.env.dev l then some true else none := by
  cases hdev : s.env.dev l <;> simp [State.wire, State.contended, Lines.hostHigh, Lines.hostLow, hdir, hout, hdev]

/-- Settles O55, by what the host does with the line. -/
theorem wireResolvesBothSides : Obligations.WireResolvesBothSides := by
  unfold Obligations.WireResolvesBothSides
  intro s l
  exact ⟨State.wire_of_input, State.wire_of_low, State.wire_of_high⟩

/-- Settles O56: the step is the move, which writes the device's sides of the lines and the record. -/
theorem deviceMoveTouchesNoRegister : Obligations.DeviceMoveTouchesNoRegister := by
  unfold Obligations.DeviceMoveTouchesNoRegister
  intro s t clk data ts hidle hoffer hsched h
  rw [step_of_idle hidle hoffer hsched nofun] at h
  cases h
  exact ⟨rfl, rfl, rfl, rfl, rfl, rfl⟩

/-! ## Contention and its record (R65, R125) -/

theorem State.contended_iff {s : State} {l : Line} :
    s.contended l = true ↔ s.lines.dir l = .output ∧ s.lines.out l = true ∧ s.env.dev l = false := by
  simp [State.contended, Lines.hostHigh, and_assoc]

theorem State.contentionInv.contentionOf {s : State} {l : Line} (h : s.contentionInv) (hc : s.contended l = true) :
    s.contentionOf l = true := by
  obtain ⟨hclk, hdata⟩ := h
  cases l with
  | clk => exact hclk hc
  | data => exact hdata hc

theorem State.noteContention_contentionOf (s : State) (l : Line) :
    s.noteContention.contentionOf l = (s.contentionOf l || s.contended l) := by
  cases l <;> rfl

theorem State.sense_contentionOf (s : State) (k l : Line) : (s.sense k).2.contentionOf l = s.contentionOf l := by
  cases l <;> simp [State.contentionOf]

/-- The record of `u` for the line `l` is that of `s`, or with the contention added that is there in `u`. -/
def Records (l : Line) (s u : State) : Prop :=
  u.contentionOf l = s.contentionOf l ∨ u.contentionOf l = (s.contentionOf l || u.contended l)

theorem Records.keeps {l : Line} {s u : State} (h : Records l s u) (hs : s.contentionOf l = true) :
    u.contentionOf l = true := by
  rcases h with h | h <;> simp [h, hs]

theorem Records.eq_of_not_contended {l : Line} {s u : State} (h : Records l s u) (hu : u.contended l = false) :
    u.contentionOf l = s.contentionOf l := by
  rcases h with h | h <;> simp [h, hu]

theorem State.deviceMove_records (s : State) (clk data : Bool) (l : Line) : Records l s (s.deviceMove clk data) := by
  right
  cases l <;> rfl

/-- A turn of the block leaves the record, or adds the contention that a changed pad makes (R66, R125). -/
theorem State.primTurn_records (s : State) (p : Prim) (turn : Option Nat) (l : Line) :
    (s.primTurn p turn).All (Records l s) := by
  have noted : ∀ u : State, u.record = s.record → Records l s u.noteContention.advance := by
    intro u hu
    right
    cases l <;> simp [State.contentionOf, hu] <;> rfl
  cases p with
  | writeDir k d => exact noted (s.setDir k d) rfl
  | writeOut k v => exact noted (s.setOut k v) rfl
  | driveTxBit i => exact noted (s.setOut .data _) rfl
  | driveTxParity => exact noted (s.setOut .data _) rfl
  | waitUntil k v =>
    rcases s.waitTurn_cases turn k v with ⟨-, e⟩ | ⟨-, e⟩ | ⟨-, -, e⟩ <;> rw [State.primTurn, e] <;>
      exact .inl (s.sense_contentionOf k l)
  | delay us => rcases s.delayTurn_cases turn us with ⟨-, e⟩ | ⟨-, e⟩ <;> rw [State.primTurn, e] <;> exact .inl rfl
  | settle =>
    rcases s.delayTurn_cases turn s.params.tSettleUs with ⟨-, e⟩ | ⟨-, e⟩ <;> rw [State.primTurn, e] <;>
      exact .inl rfl
  | sampleRxBit i => exact .inl (s.sense_contentionOf .data l)
  | senseLine k => exact .inl (s.sense_contentionOf k l)
  | _ => exact .inl rfl

theorem contentionOf_turnInvariant (abortPs : List Prim) (l : Line) :
    TurnInvariant abortPs (fun _ s => s.contentionOf l = true) where
  done {p _ s _ turn} h e := ((s.primTurn_records p turn l).of_eq e).keeps h
  hold {p _ s _ turn} h e := ((s.primTurn_records p turn l).of_eq e).keeps h
  timeout {p _ s _ turn} h e := ((s.primTurn_records p turn l).of_eq e).keeps h
  device {_ s} clk data h := (s.deviceMove_records clk data l).keeps h
  caller _ h := h
  schedule _ h := h

/-- Settles O53: a recorded fault stays along every run, and contention that is there is recorded along every run that
starts so. -/
theorem contentionIsRecordedAndNeverCleared : Obligations.ContentionIsRecordedAndNeverCleared := by
  unfold Obligations.ContentionIsRecordedAndNeverCleared
  intro s t l h
  suffices hkeeps : (s.contentionOf l = true → t.contentionOf l = true) ∧ (s.contentionInv → t.contentionInv) from
    ⟨hkeeps.1, fun hinv => (hkeeps.2 hinv).contentionOf⟩
  rcases step_endsIn
    (P := fun _ _ u => (s.contentionOf l = true → u.contentionOf l = true) ∧ (s.contentionInv → u.contentionInv))
    (fun _ _ abortPs _ => ((contentionOf_turnInvariant abortPs l).imp _).and
      ((contentionInv_turnInvariant abortPs).imp _))
    (fun _ => ⟨id, id⟩) (fun _ _ _ _ => ⟨id, id⟩) h with
    ⟨i, qs, hkeeps, -⟩ | ⟨u, ts, hu, rfl⟩ | ⟨-, turn, ts, rfl⟩ | ⟨-, rfl⟩
  · exact hkeeps
  · refine ⟨?_, fun _ => u.contentionInv_resetCycle⟩
    rcases hu with rfl | ⟨i, qs, hkeeps, -⟩
    · exact id
    · exact hkeeps
  · cases turn with
    | device clk data =>
      exact ⟨(State.deviceMove_records _ clk data l).keeps, fun _ => State.contentionInv_noteContention _⟩
    | reset => exact ⟨id, fun _ => State.contentionInv_resetCycle _⟩
    | host cycles => exact ⟨id, id⟩
    | caller offer => exact ⟨id, id⟩
  · exact ⟨id, id⟩

end Sys2Proof.Machine
end

section
/-! The commands of the line driver (R72 to R78): what each answers, and what it changes. -/

namespace Sys2Proof.Machine

/-! ## How a command of an idle block ends -/

/-- A command whose needs are met does all its primitives and leaves the rest of the schedule. -/
theorem exec_of_serves {i : Instr} {s : State} {v : Served} (hidle : s.seq.busy = false)
    (hin : inputsOk (primsOf i) s.lines) (hserves : s.serves ((primsOf i).map (needOf s.params)) = some v) :
    ∃ t, exec i s = .next t ∧ RanTo (s.accept i) (primsOf i) v.samples t ∧ t.env.schedule = v.rest := by
  obtain ⟨t, hrun, hran, hrest, -⟩ :=
    runCommand_of_serve (i := i) (abortPrimsOf i) (primsOf_ne_nil i) hidle hin hserves
  exact ⟨t, (exec_eq_runCommand i s).trans hrun, hran, hrest⟩

theorem inputsOk_of_senses_none {ps : List Prim} : ∀ {r : Lines}, (∀ p ∈ ps, sensedBy p = none) → inputsOk ps r := by
  induction ps with
  | nil => intros; trivial
  | cons p ps ih =>
    intro r h
    obtain ⟨hp, hps⟩ := List.forall_mem_cons.1 h
    cases p with
    | writeDir l d => exact ih hps
    | _ => exact ⟨by simp [hp], ih hps⟩

/-- A command that senses no line does all its primitives when no reset is to come. -/
theorem exec_of_senses_none {i : Instr} {s : State} (hidle : s.seq.busy = false) (hreset : s.noReset)
    (hsense : ∀ p ∈ primsOf i, sensedBy p = none) :
    ∃ t bs, exec i s = .next t ∧ RanTo (s.accept i) (primsOf i) bs t := by
  obtain ⟨t, bs, hrun, hran, -⟩ := runCommand_of_noReset (i := i) (abortPrimsOf i) (primsOf_ne_nil i) hidle hreset
    (inputsOk_of_senses_none hsense) (fun l v hmem => by simpa [sensedBy] using hsense _ hmem)
  exact ⟨t, bs, (exec_eq_runCommand i s).trans hrun, hran⟩

/-- What holds along the run of a command from its start holds where it ends, with nothing left or held at a wait, when
no reset is to come. -/
theorem TurnInvariant.exec_ends {i : Instr} {P : List Prim → State → Prop} {s t : State}
    (hP : TurnInvariant (abortPrimsOf i) P) (hidle : s.seq.busy = false) (hreset : s.noReset)
    (hstart : P (primsOf i) (s.accept i)) (hexec : exec i s = .next t) :
    ∃ qs, P qs t ∧ ∀ q ∈ qs.head?, isWaitUntil q = true := by
  rcases hP.exec_endsIn hexec (fun _ => hstart) (fun hbusy => by simp [hidle] at hbusy) with h | ⟨hmem, -⟩
  · exact h
  · exact absurd hmem hreset

/-- A command none of whose primitives writes a register changes none. -/
theorem exec_sameRegisters {i : Instr} {s t : State} (hregs : regsOf i = []) (hreset : s.noReset)
    (hexec : exec i s = .next t) : s.sameRegisters t := by
  have hsame : ∀ x : Reg, x.Same t.block s.block := fun x => exec_same (by simp [hregs]) hreset hexec
  obtain ⟨-, hparams⟩ := ((params_turnInvariant (abortPrimsOf i) s.params).exec_endsIn hexec (fun _ => rfl)
    (fun _ _ => rfl)).of_noReset hreset
  exact ⟨Lines.ext_of_same (fun l => hsame (.dir l)) (fun l => hsame (.out l)) (hsame .rst), hsame .dec, hsame .txb,
    hsame .rxb, hparams⟩

theorem illegalWord_eq : illegalWord = 0x10000000 := by decide

theorem lineTimeoutWord_eq : lineTimeoutWord = 0x20000000 := by decide

theorem okWord_zero : okWord 0 = 0x00000000 := by decide

/-- A command with an illegal line select is refused and changes no register (R102). -/
theorem exec_refused {i : Instr} {s : State} (hps : primsOf i = illegalPrims) (hidle : s.seq.busy = false)
    (hreset : s.noReset) : Answers (exec i s) 0x10000000 (fun t => s.sameRegisters t) := by
  obtain ⟨t, bs, hexec, hran⟩ := exec_of_senses_none (i := i) hidle hreset (by simp [hps, illegalPrims, sensedBy])
  rw [hps] at hran
  exact ⟨t, hexec, hran.busy, hran.rsp.trans (congrArg some illegalWord_eq), hran.lines, hran.dec, hran.txb, hran.rxb,
    hran.params⟩

/-- A command whose first primitive records the contention that is there ends with all contention recorded. -/
theorem exec_contentionInv {i : Instr} {p : Prim} {ps : List Prim} {s t : State} (hps : primsOf i = p :: ps)
    (hwait : isWaitUntil p = false) (hnotes : ∀ (u : State) turn, (u.primTurn p turn).All State.contentionInv)
    (hidle : s.seq.busy = false) (hreset : s.noReset) (hexec : exec i s = .next t) : t.contentionInv := by
  have hturn : ∀ {q qs} {u : State} turn, q :: qs = p :: ps ∨ u.contentionInv →
      (u.primTurn q turn).All State.contentionInv := by
    rintro q qs u turn (⟨⟨⟩⟩ | h)
    · exact hnotes u turn
    · exact u.primTurn_contentionInv q turn h
  have hinv : TurnInvariant (abortPrimsOf i) (fun qs u => qs = p :: ps ∨ u.contentionInv) :=
    { done := fun h e => .inr ((hturn _ h).of_eq e)
      hold := fun h e => .inr ((hturn _ h).of_eq e)
      timeout := fun h e => .inr ((hturn _ h).of_eq e)
      device := fun _ _ _ => .inr (State.contentionInv_noteContention _)
      caller := fun _ h => h
      schedule := fun _ h => h }
  obtain ⟨qs, rfl | h, hhead⟩ := hinv.exec_ends hidle hreset (.inl hps) hexec
  · simp [hwait] at hhead
  · exact h

/-! ## NOP and DELAY (R72, R78) -/

/-- Settles O14: NOP's one primitive is its response. -/
theorem nopAnswersAndChangesNothing : Obligations.NopAnswersAndChangesNothing := by
  unfold Obligations.NopAnswersAndChangesNothing
  refine ⟨fun w hop => by simp [decode, hop], fun s hidle hreset => ?_⟩
  obtain ⟨t, bs, hexec, hran⟩ := exec_of_senses_none (i := .nop) hidle hreset
    (by simp [primsOf, respondZero, sensedBy])
  exact ⟨t, hexec, hran.busy, hran.rsp.trans (congrArg some okWord_zero), exec_sameRegisters rfl hreset hexec⟩

/-- Settles O24: DELAY passes its time and responds. -/
theorem delayAnswersAndChangesNothing : Obligations.DelayAnswersAndChangesNothing := by
  unfold Obligations.DelayAnswersAndChangesNothing
  intro s us hidle hreset
  obtain ⟨t, bs, hexec, hran⟩ := exec_of_senses_none (i := .delay us) hidle hreset
    (by simp [primsOf, delayPrims, respondZero, sensedBy])
  exact ⟨t, hexec, hran.busy, hran.rsp.trans (congrArg some okWord_zero), exec_sameRegisters rfl hreset hexec⟩

/-! ## SET_DIR and DRIVE (R73, R74) -/

theorem primsOf_setDir {line : LineSel} {l : Line} (hline : lineOf line = some l) (d : Dir) :
    primsOf (.setDir line d) = [.writeDir l d, .respond .zero] := by
  simp [primsOf, hline, setDirPrims, respondZero]

theorem primsOf_drive {line : LineSel} {l : Line} (hline : lineOf line = some l) (v : Bool) :
    primsOf (.drive line v) = [.writeOut l v, .respond .zero] := by
  cases line <;> cases hline <;> rfl

/-- Settles O15: SET_DIR writes the direction and then records the contention that is there. -/
theorem setDirWritesTheDirection : Obligations.SetDirWritesTheDirection := by
  unfold Obligations.SetDirWritesTheDirection
  refine ⟨fun s line l d hidle hreset hline => ?_, fun s line d hidle hreset hline =>
    exec_refused (by simp [primsOf, hline]) hidle hreset⟩
  have hps := primsOf_setDir hline d
  obtain ⟨t, bs, hexec, hran⟩ := exec_of_senses_none (i := .setDir line d) hidle hreset (by simp [hps, sensedBy])
  have hinv : t.contentionInv := exec_contentionInv hps rfl
    (fun u _ => State.contentionInv_noteContention (u.setDir l d)) hidle hreset hexec
  rw [hps] at hran
  have hlines : t.lines = s.lines.setDir l d := hran.lines
  have hdir : t.lines.dir l = d := by simp [hlines]
  have hout : t.lines.out = s.lines.out := by simp [hlines]
  refine ⟨t, hexec, hran.busy, hran.rsp.trans (congrArg some okWord_zero), hdir,
    fun k hk => by simp [hlines, hk], hout, by simp [hlines], hran.dec, fun hd => ⟨?_, congrFun hout l⟩,
    fun hd => State.wire_of_input (hdir.trans hd), fun hd hhigh hdev => ?_⟩
  · simp [State.ps2OeO, hdir, hd]
  · exact hinv.contentionOf (State.contended_iff.2 ⟨hdir.trans hd, (congrFun hout l).trans hhigh, hdev⟩)

/-- Settles O16: DRIVE writes the latch and then records the contention that is there, or it writes the reset pad. -/
theorem driveWritesTheLatch : Obligations.DriveWritesTheLatch := by
  unfold Obligations.DriveWritesTheLatch
  refine ⟨fun s line l v hidle hreset hline => ?_, fun s v hidle hreset => ?_,
    fun s v hidle hreset => exec_refused rfl hidle hreset⟩
  · have hps := primsOf_drive hline v
    obtain ⟨t, bs, hexec, hran⟩ := exec_of_senses_none (i := .drive line v) hidle hreset (by simp [hps, sensedBy])
    have hinv : t.contentionInv := exec_contentionInv hps rfl
      (fun u _ => State.contentionInv_noteContention (u.setOut l v)) hidle hreset hexec
    rw [hps] at hran
    have hlines : t.lines = s.lines.setOut l v := hran.lines
    have hout : t.lines.out l = v := by simp [hlines]
    have hdir : t.lines.dir = s.lines.dir := by simp [hlines]
    exact ⟨t, hexec, hran.busy, hran.rsp.trans (congrArg some okWord_zero), hout, fun k hk => by simp [hlines, hk],
      hdir, by simp [hlines], hran.dec, fun hd => State.wire_of_input ((congrFun hdir l).trans hd),
      fun hd hv hdev => hinv.contentionOf (State.contended_iff.2 ⟨(congrFun hdir l).trans hd, hout.trans hv, hdev⟩)⟩
  · obtain ⟨t, bs, hexec, hran⟩ := exec_of_senses_none (i := .drive .rst v) hidle hreset
      (by simp [primsOf, drivePrims, respondZero, sensedBy])
    exact ⟨t, hexec, hran.busy, hran.rsp.trans (congrArg some okWord_zero), hran.lines, hran.dec⟩

/-! ## SENSE (R67, R75) -/

theorem primsOf_sense {line : LineSel} {l : Line} (hline : lineOf line = some l) :
    primsOf (.sense line) = sensePrims l := by
  simp [primsOf, hline]

/-- Settles O17: the sample of SENSE is the level it answers. -/
theorem senseAnswersTheLevelOfAnInputLine : Obligations.SenseAnswersTheLevelOfAnInputLine := by
  unfold Obligations.SenseAnswersTheLevelOfAnInputLine
  refine ⟨fun s line l v b hidle hline hdir hserves hsamples => ?_, fun s line hidle hreset hline =>
    exec_refused (by simp [primsOf, hline]) hidle hreset⟩
  have hps := primsOf_sense hline
  have hin : inputsOk (sensePrims l) s.lines := ⟨by rintro _ ⟨⟩; exact hdir, nofun, trivial⟩
  obtain ⟨t, hexec, hran, hrest⟩ := exec_of_serves (i := .sense line) hidle (hps ▸ hin)
    (by rw [hps]; exact hserves)
  rw [hps, hsamples] at hran
  exact ⟨t, hexec, hran.busy, hran.rsp, ⟨hran.lines, hran.dec, hran.txb, hran.rxb, hran.params⟩, hrest⟩

/-- In the course of a SENSE of the output line `l`, when `n` draws had been taken before it: it takes one draw, and
answers it. -/
inductive SensesDraw (l : Line) (n : Nat) : List Prim → State → Prop
  | start {u : State} (hdir : u.lines.dir l = .output) (hdraws : u.record.draws = n) : SensesDraw l n (sensePrims l) u
  | drawn {u : State} (hsampled : u.seq.cur.sampled = Config.senseDraw n) (hdraws : u.record.draws = n + 1) :
      SensesDraw l n [.respond .sampled] u
  | answered {u : State} (hbusy : u.seq.busy = false) (hrsp : u.port.rsp = some (okWord (zextBit (Config.senseDraw n))))
      (hdraws : u.record.draws = n + 1) : SensesDraw l n [] u

/-- Moves of the other agents do not touch what a SENSE has come to. -/
theorem SensesDraw.congr {l : Line} {n : Nat} {qs : List Prim} {u u' : State} (h : SensesDraw l n qs u)
    (hlines : u'.lines = u.lines) (hseq : u'.seq = u.seq) (hrsp : u'.port.rsp = u.port.rsp)
    (hdraws : u'.record.draws = u.record.draws) : SensesDraw l n qs u' := by
  cases h with
  | start hdir hn => exact .start (hlines ▸ hdir) (hdraws.trans hn)
  | drawn hsampled hn => exact .drawn (hseq ▸ hsampled) (hdraws.trans hn)
  | answered hbusy hr hn => exact .answered (hseq ▸ hbusy) (hrsp.trans hr) (hdraws.trans hn)

theorem sensesDraw_turnInvariant (abortPs : List Prim) (l : Line) (n : Nat) :
    TurnInvariant abortPs (SensesDraw l n) where
  done h e := by
    cases h with
    | start hdir hdraws =>
      rw [State.primTurn_senseLine, State.sense_of_output hdir, hdraws] at e
      cases e
      exact .drawn rfl rfl
    | drawn hsampled hdraws =>
      cases e
      exact .answered rfl (by rw [← hsampled]; rfl) hdraws
  hold h e := by cases h <;> cases e
  timeout h e := by cases h <;> cases e
  device _ _ h := h.congr rfl rfl rfl rfl
  caller _ h := h.congr rfl rfl rfl rfl
  schedule _ h := h.congr rfl rfl rfl rfl

/-- Settles O18: along the run of SENSE one draw is taken, and it is answered. -/
theorem senseOfAnOutputLineIsADraw : Obligations.SenseOfAnOutputLineIsADraw := by
  unfold Obligations.SenseOfAnOutputLineIsADraw
  intro s line l hidle hreset hline hdir
  have hps := primsOf_sense hline
  have hexec := exec_of_idle (.sense line) hidle
  refine ⟨_, hexec, ?_⟩
  obtain ⟨qs, hsenses, hhead⟩ := (sensesDraw_turnInvariant _ l s.record.draws).exec_ends hidle hreset
    (by rw [hps]; exact .start hdir rfl) hexec
  cases hsenses with
  | start => simp [sensePrims, isWaitUntil] at hhead
  | drawn => simp [isWaitUntil] at hhead
  | answered hbusy hrsp hdraws => exact ⟨hbusy, hrsp, exec_sameRegisters (regsOf_sense line) hreset hexec, hdraws⟩

/-! ## WAIT (R69, R76) -/

theorem primsOf_wait {line : LineSel} {l : Line} (hline : lineOf line = some l) (level : Bool) :
    primsOf (.wait line level) = waitPrims l level := by
  simp [primsOf, hline]

theorem abortPrimsOf_wait {line : LineSel} {l : Line} (hline : lineOf line = some l) (level : Bool) :
    abortPrimsOf (.wait line level) = waitAbortPrims := by
  simp [abortPrimsOf, hline]

/-- WAIT on an input line whose level a turn finds answers, and leaves the rest of the schedule. -/
theorem exec_wait_answers {s : State} {line : LineSel} {l : Line} {level : Bool} {v : Served}
    (hidle : s.seq.busy = false) (hline : lineOf line = some l) (hdir : s.lines.dir l = .input)
    (hserves : s.serves (waitNeeds l level) = some v) :
    Answers (exec (.wait line level) s) 0x00000000 (fun t => s.sameRegisters t ∧ t.env.schedule = v.rest) := by
  have hps := primsOf_wait hline level
  have hin : inputsOk (waitPrims l level) s.lines := ⟨by rintro _ ⟨⟩; exact hdir, nofun, trivial⟩
  obtain ⟨t, hexec, hran, hrest⟩ := exec_of_serves (i := .wait line level) hidle (hps ▸ hin)
    (by rw [hps]; exact hserves)
  rw [hps] at hran
  exact ⟨t, hexec, hran.busy, hran.rsp.trans (congrArg some okWord_zero),
    ⟨hran.lines, hran.dec, hran.txb, hran.rxb, hran.params⟩, hrest⟩

/-- With nothing scheduled, a level that is there meets WAIT's needs. -/
theorem State.serves_waitNeeds_of_still {s : State} {l : Line} {level : Bool} (hstill : s.still)
    (hdev : s.env.dev l = level) : ∃ v, s.serves (waitNeeds l level) = some v := by
  have hlevel : levelOf s.env.devClk s.env.devData l = level := (s.dev_eq l).symm.trans hdev
  have hsched : s.env.schedule = [] := hstill
  simp [State.serves, hsched, serve, serveStill, waitNeeds, hlevel]

/-- Settles O19: WAIT's needs are met, by the turns or at once. -/
theorem waitEndsWhenTheLevelIsSeen : Obligations.WaitEndsWhenTheLevelIsSeen := by
  unfold Obligations.WaitEndsWhenTheLevelIsSeen
  refine ⟨fun s line l level v hidle hline hdir hserves => exec_wait_answers hidle hline hdir hserves,
    fun s line l level hidle hstill hline hdir hdev => ?_, fun s line level hidle hreset hline =>
      exec_refused (by simp [primsOf, hline]) hidle hreset⟩
  obtain ⟨v, hserves⟩ := State.serves_waitNeeds_of_still hstill hdev
  obtain ⟨t, hexec, hbusy, hrsp, hsame, -⟩ := exec_wait_answers hidle hline hdir hserves
  exact ⟨t, hexec, hbusy, hrsp, hsame⟩

/-- Settles O20: WAIT is held before its first primitive is completed. -/
theorem waitHoldsWhileTheLevelIsNotSeen : Obligations.WaitHoldsWhileTheLevelIsNotSeen := by
  unfold Obligations.WaitHoldsWhileTheLevelIsNotSeen
  intro s line l level hidle hreset hline hdir hinf hserves
  obtain ⟨t, pre, p, post, bs, hrun, hsplit, hran⟩ :=
    runCommand_of_unserved (i := .wait line level) (ps := [.waitUntil l level]) (ps2 := respondZero)
      (abortPrimsOf (.wait line level)) (List.cons_ne_nil _ _) hidle hreset hinf
      ⟨by rintro _ ⟨⟩; exact hdir, trivial⟩ hserves
  obtain rfl : pre = [] := by
    cases pre with
    | nil => rfl
    | cons q qs => simp at hsplit
  have hexec : exec (.wait line level) s = .next t := by
    rw [exec_eq_runCommand, primsOf_wait hline]
    exact hrun
  have hbusy : t.seq.busy = true := hran.busy
  exact ⟨t, hexec, hbusy, hran.rsp, exec_sameRegisters (regsOf_wait line level) hreset hexec,
    by simp [State.cmdReadyO, hbusy]⟩

/-- The state with one more draw taken (R67). -/
def State.withDraw (s : State) : State := { s with record := { s.record with draws := s.record.draws + 1 } }

/-- A turn of a wait on an output line takes one draw, and acts on it (R67, R69). -/
theorem State.waitTurn_of_output {s : State} {l : Line} (hdir : s.lines.dir l = .output) (level : Bool) :
    s.waitTurn none l level =
      if Config.senseDraw s.record.draws = level then .done s.withDraw.advance
      else if s.params.waitTimeoutUs = none then .hold (s.withDraw.tick 0) else .timeout s.withDraw.abort := by
  unfold State.waitTurn
  rw [State.sense_of_output hdir]
  dsimp only
  cases s.params.waitTimeoutUs <;> rfl

/-- Settles O22: the one turn of the wait takes the draw, and the response follows where the wait does not hold. -/
theorem waitOnAnOutputLineActsOnADraw : Obligations.WaitOnAnOutputLineActsOnADraw := by
  unfold Obligations.WaitOnAnOutputLineActsOnADraw
  intro s line l level hidle hstill hline hdir
  have hreset : s.noReset := by simp [State.noReset, show s.env.schedule = [] from hstill]
  have hexec := exec_of_idle (.wait line level) hidle
  have hsame := exec_sameRegisters (regsOf_wait line level) hreset hexec
  have hturn := State.waitTurn_of_output (s := s.accept (.wait line level)) hdir level
  rw [primsOf_wait hline, abortPrimsOf_wait hline, show s.env.schedule = [] from hstill, runTurns, waitPrims, runQuiet,
    State.primTurn, hturn] at hexec hsame
  refine ⟨fun hdraw => ?_, fun hdraw hinf => ?_, fun hdraw hfin => ?_⟩
  · simp only [State.accept_record, hdraw, if_true] at hexec hsame
    exact ⟨_, hexec, rfl, congrArg some okWord_zero, hsame, rfl⟩
  · simp only [State.accept_record, State.accept_params, hdraw, hinf, if_true, if_false] at hexec hsame
    exact ⟨_, hexec, rfl, rfl, hsame, rfl⟩
  · simp only [State.accept_record, State.accept_params, hdraw, hfin, if_false] at hexec hsame
    exact ⟨_, hexec, rfl, congrArg some lineTimeoutWord_eq, hsame, rfl⟩

/-! ## INHIBIT (R71, R77) -/

/-- In the course of INHIBIT on a released clock line: the clock latch goes low before the line is driven. -/
def InhibitLines (qs : List Prim) (r : Lines) : Prop :=
  qs = primsOf .inhibit ∧ r.clkDir = .input ∨ qs <:+ [.writeDir .clk .output, .respond .zero] ∧ r.clkOut = false

/-- So the host never drives the line high. -/
theorem InhibitLines.not_contended {qs : List Prim} {s : State} (h : InhibitLines qs s.lines) :
    s.contended .clk = false := by
  rcases h with ⟨-, hdir⟩ | ⟨-, hout⟩
  · simp [State.contended, Lines.hostHigh, Lines.dir, hdir]
  · simp [State.contended, Lines.hostHigh, Lines.out, hout]

theorem InhibitLines.not_wait {p : Prim} {qs : List Prim} {r : Lines} (h : InhibitLines (p :: qs) r) :
    isWaitUntil p = false := by
  rcases h with ⟨hps, -⟩ | ⟨hsuffix, -⟩
  · obtain ⟨rfl, -⟩ := List.cons.inj hps
    rfl
  · rcases List.mem_pair.1 (hsuffix.subset List.mem_cons_self) with rfl | rfl <;> rfl

theorem InhibitLines.effect {p : Prim} {qs : List Prim} {k : Block} (b : Bool) (h : InhibitLines (p :: qs) k.lines) :
    InhibitLines qs (k.effect b p).lines := by
  rcases h with ⟨hps, -⟩ | ⟨hsuffix, hout⟩
  · obtain ⟨rfl, rfl⟩ := List.cons.inj hps
    exact .inr ⟨List.suffix_refl _, rfl⟩
  · refine .inr ⟨(List.suffix_cons p qs).trans hsuffix, ?_⟩
    rcases List.mem_pair.1 (hsuffix.subset List.mem_cons_self) with rfl | rfl <;> exact hout

/-- In the course of such an INHIBIT the record for the clock line stays `c`. -/
structure Inhibits (c : Bool) (qs : List Prim) (s : State) : Prop where
  record : s.contentionOf .clk = c
  lines : InhibitLines qs s.lines

theorem Inhibits.of_records {c : Bool} {ps qs : List Prim} {s u : State} (h : Inhibits c ps s)
    (hrecords : Records .clk s u) (hlines : InhibitLines qs u.lines) : Inhibits c qs u :=
  ⟨(hrecords.eq_of_not_contended hlines.not_contended).trans h.record, hlines⟩

theorem inhibits_turnInvariant (abortPs : List Prim) (c : Bool) : TurnInvariant abortPs (Inhibits c) where
  done {p qs s s' turn} h e := by
    obtain ⟨b, hblock⟩ := (TurnDone.of_eq e).effect
    have hlines : s'.lines = (s.block.effect b p).lines := congrArg Block.lines hblock
    exact h.of_records ((s.primTurn_records p turn .clk).of_eq e) (hlines ▸ InhibitLines.effect b h.lines)
  hold {p qs s s' turn} h e := by
    have hlines : s'.lines = s.lines := congrArg Block.lines (TurnHeld.of_eq e).block
    exact h.of_records ((s.primTurn_records p turn .clk).of_eq e) (hlines ▸ h.lines)
  timeout h e := by simpa [h.lines.not_wait] using (TurnTimedOut.of_eq e).wait
  device {_ s} clk data h := h.of_records (s.deviceMove_records clk data .clk) h.lines
  caller _ h := ⟨h.record, h.lines⟩
  schedule _ h := ⟨h.record, h.lines⟩

/-- Settles O23: along the run of INHIBIT the clock line is never driven high. -/
theorem inhibitDrivesTheClockLow : Obligations.InhibitDrivesTheClockLow := by
  unfold Obligations.InhibitDrivesTheClockLow
  intro s hidle hreset
  obtain ⟨t, bs, hexec, hran⟩ := exec_of_senses_none (i := .inhibit) hidle hreset
    (by simp [primsOf, inhibitPrims, respondZero, sensedBy])
  have hlines : t.lines = { s.lines with clkDir := .output, clkOut := false } := hran.lines
  refine ⟨t, hexec, hran.busy, hran.rsp.trans (congrArg some okWord_zero), hlines, hran.dec,
    State.wire_of_low (by rw [hlines]; rfl) (by rw [hlines]; rfl), fun hdir => ?_⟩
  obtain ⟨qs, h, -⟩ := (inhibits_turnInvariant _ s.record.contentionClk).exec_ends hidle hreset
    ⟨rfl, .inl ⟨rfl, hdir⟩⟩ hexec
  exact h.record

end Sys2Proof.Machine
end

section
/-! SEND_BYTE and RECEIVE_BYTE as whole commands (R80 to R89): the lines they leave, what RECEIVE_BYTE answers, and how
they hold until the device serves them. -/

namespace Sys2Proof.Machine

/-! ## Their lists of primitives (R80, R85, R103) -/

theorem needs_primsOf_sendByte (p : Params) (b : Byte) : (primsOf (.sendByte b)).map (needOf p) = sendNeeds p := rfl

theorem needs_primsOf_receiveByte (p : Params) : (primsOf .receiveByte).map (needOf p) = receiveNeeds p := rfl

theorem abortPrimsOf_transceiver {i : Instr} (h : isTransceiver i = true) :
    abortPrimsOf i = transceiverAbortPrims := by
  cases i with
  | sendByte _ | receiveByte => rfl
  | _ => cases h

/-- All of SEND_BYTE leaves the bus inhibited, and the data line released with its latch at 1 (R84). -/
theorem lines_run_sendByte (s : State) (b : Byte) (bs : List Bool) :
    ((s.accept (.sendByte b)).block.run (primsOf (.sendByte b)) bs).lines =
      { clkDir := .output, clkOut := false, dataDir := .input, dataOut := true, rstOut := s.lines.rstOut } := rfl

/-- All of RECEIVE_BYTE leaves the bus inhibited, and the data line released with its latch as it was (R87). -/
theorem lines_run_receiveByte (s : State) (bs : List Bool) :
    ((s.accept .receiveByte).block.run (primsOf .receiveByte) bs).lines =
      { clkDir := .output, clkOut := false, dataDir := .input, dataOut := s.lines.dataOut,
        rstOut := s.lines.rstOut } := rfl

/-- Settles O26: SEND_BYTE does all its primitives, whose needs are the ones that are met. -/
theorem sendByteEndsWithTheBusInhibited : Obligations.SendByteEndsWithTheBusInhibited := by
  unfold Obligations.SendByteEndsWithTheBusInhibited
  intro s b v hidle hserves
  rw [← needs_primsOf_sendByte s.params b] at hserves
  obtain ⟨t, hexec, hran, hrest⟩ := exec_of_serves hidle (inputsOk_primsOf_transceiver rfl _) hserves
  exact ⟨t, hexec, hran.busy, hran.rsp.trans (congrArg some okWord_zero),
    hran.lines.trans (lines_run_sendByte s b v.samples), hran.dec, hrest⟩

/-! ## The bits that RECEIVE_BYTE samples (R85) -/

theorem getLsbD_setRxBit (rxb : BitVec 10) {i j : Nat} (b : Bool) (hi : i < 10) (hj : j < 10) :
    (setRxBit rxb i b).getLsbD j = if j = i then b else rxb.getLsbD j := by
  unfold setRxBit
  rcases Nat.lt_trichotomy j i with h | rfl | h
  · simp [h, h.ne, hj]
  · simp [hj]
  · simp [h.ne', hj, h.not_gt, Nat.sub_ne_zero_of_lt h]

/-- `RXB` after the samples `bs`, the first one taken into bit `i` (R85). -/
def setRxBits (rxb : BitVec 10) (i : Nat) : List Bool → BitVec 10
  | [] => rxb
  | b :: bs => setRxBits (setRxBit rxb i b) (i + 1) bs

theorem getLsbD_setRxBits_of_lt {bs : List Bool} {j : Nat} : ∀ {rxb : BitVec 10} {i : Nat}, i + bs.length ≤ 10 →
    j < i → (setRxBits rxb i bs).getLsbD j = rxb.getLsbD j := by
  induction bs with
  | nil => intros; rfl
  | cons b bs ih =>
    intro rxb i hlen hj
    rw [List.length_cons] at hlen
    rw [setRxBits, ih (by omega) (by omega), getLsbD_setRxBit rxb b (by omega) (by omega), if_neg hj.ne]

theorem getLsbD_setRxBits {bs : List Bool} : ∀ {rxb : BitVec 10} {i d : Nat}, i + bs.length ≤ 10 → d < bs.length →
    (setRxBits rxb i bs).getLsbD (i + d) = bs.getD d false := by
  induction bs with
  | nil => nofun
  | cons b bs ih =>
    intro rxb i d hlen hd
    rw [List.length_cons] at hlen hd
    rw [setRxBits]
    cases d with
    | zero =>
      rw [getLsbD_setRxBits_of_lt (by omega) (by omega), getLsbD_setRxBit rxb b (by omega) (by omega)]
      exact if_pos rfl
    | succ d =>
      rw [← Nat.succ_add_eq_add_succ i d, ih (by omega) (by omega)]
      rfl

theorem testBit_bitsToNat (bs : List Bool) : ∀ j, (bitsToNat bs).testBit j = bs.getD j false := by
  induction bs with
  | nil => simp [bitsToNat]
  | cons b bs ih =>
    have hbit : bitsToNat (b :: bs) = Nat.bit b (bitsToNat bs) := by
      rw [bitsToNat, Nat.bit_val, Nat.add_comm]
      cases b <;> rfl
    rintro (_ | j)
    · rw [hbit, Nat.testBit_bit_zero]
      rfl
    · rw [hbit, Nat.testBit_bit_succ, ih]
      rfl

/-- Ten samples, the first one lowest, are the data of the response. -/
theorem zextRxb_setRxBits (rxb : BitVec 10) {bs : List Bool} (hlen : bs.length = 10) :
    zextRxb (setRxBits rxb 0 bs) = BitVec.ofNat 25 (bitsToNat bs) := by
  apply BitVec.eq_of_getLsbD_eq
  intro j hj
  rw [zextRxb, BitVec.getLsbD_setWidth, BitVec.getLsbD_ofNat, testBit_bitsToNat]
  congr 1
  by_cases h : j < bs.length
  · rw [← getLsbD_setRxBits (rxb := rxb) (i := 0) (by omega) h, Nat.zero_add]
  · rw [BitVec.getLsbD_of_ge _ _ (by omega), List.getD_eq_default _ _ (by omega)]

/-- One receive pulse after the other takes one sample after the other. -/
theorem Block.run_receiveBits (qs : List Prim) (bs : List Bool) : ∀ (i : Nat) (k : Block),
    k.run ((List.range' i bs.length).flatMap receiveBitPrims ++ qs) bs =
      Block.run qs [] { k with rxb := setRxBits k.rxb i bs } := by
  induction bs with
  | nil => intros; rfl
  | cons b bs ih => intro i k; exact ih (i + 1) (k.effect b (.sampleRxBit i))

theorem rsp_run_receiveByte (s : State) {bs : List Bool} (hlen : bs.length = 10) :
    ((s.accept .receiveByte).block.run (primsOf .receiveByte) bs).rsp =
      some (okWord (BitVec.ofNat 25 (bitsToNat bs))) := by
  have hps : primsOf .receiveByte = receiveStartPrims ++
      ((List.range' 0 bs.length).flatMap receiveBitPrims ++ (inhibitPrims ++ [.respond .received])) := by
    rw [hlen]
    rfl
  rw [hps, Block.run_append (by simp [receiveStartPrims, keepsSample]), Block.run_receiveBits,
    ← zextRxb_setRxBits 0 hlen]
  rfl

/-- Settles O28: RECEIVE_BYTE does all its primitives, whose needs are the ones that are met, with ten samples. -/
theorem receiveByteAnswersTheSampledBits : Obligations.ReceiveByteAnswersTheSampledBits := by
  unfold Obligations.ReceiveByteAnswersTheSampledBits
  intro s v hidle hserves
  have hlen : v.samples.length = 10 := serve_samples_length _ _ _ _ _ _ hserves
  rw [← needs_primsOf_receiveByte] at hserves
  obtain ⟨t, hexec, hran, hrest⟩ := exec_of_serves hidle (inputsOk_primsOf_transceiver rfl _) hserves
  exact ⟨hlen, t, hexec, hran.busy, hran.rsp.trans (rsp_run_receiveByte s hlen),
    hran.lines.trans (lines_run_receiveByte s v.samples), hran.dec, hrest⟩

/-! ## After an `OK` response (R84, R87) -/

theorem Block.effect_of_keepsSample_false {p : Prim} (h : keepsSample p = false) (k : Block) (b b' : Bool) :
    k.effect b p = k.effect b' p := by
  cases p with
  | senseLine _ | sampleRxBit _ => cases h
  | respond d => cases d <;> rfl
  | _ => rfl

/-- What the primitives that are left will bring about, whatever levels they take, they still will after a turn, if the
whole timeout part brings it about as well. -/
theorem blockRun_turnInvariant {C : Block → Prop} {abortPs : List Prim} (habort : ∀ k bs, C (Block.run abortPs bs k)) :
    TurnInvariant abortPs (fun qs u => ∀ bs, C (u.block.run qs bs)) where
  done {p qs s s' turn} h e bs := by
    obtain ⟨b, hblock⟩ := (TurnDone.of_eq e).effect
    rw [hblock]
    cases hp : keepsSample p with
    | true => simpa [Block.run, hp] using h (b :: bs)
    | false => simpa [Block.run, hp, Block.effect_of_keepsSample_false hp s.block b false] using h bs
  hold h e := (TurnHeld.of_eq e).block ▸ h
  timeout _ _ := habort _
  device _ _ h := h
  caller _ h := h
  schedule _ h := h

/-- If the response is `OK`, the lines are `r`. -/
def Block.okLeaves (r : Lines) (k : Block) : Prop :=
  ∀ w, k.rsp = some w → w.extractLsb' 28 4 = statusOk → k.lines = r

/-- The timeout part of the two commands ends with another status (R103). -/
theorem Block.okLeaves_run_abort (r : Lines) (k : Block) (bs : List Bool) :
    (k.run transceiverAbortPrims bs).okLeaves r := by
  rintro w ⟨⟩ hok
  rw [status_rspWord] at hok
  cases hok

/-- A transceiver command that answers `OK`, on any schedule, leaves the lines that all its primitives leave: a timeout
answers otherwise, and a command that is held or cut off does not answer (R103, R117, R126). -/
theorem lines_of_ok {i : Instr} {s t : State} {r : Lines} {w : RspWord} (hi : isTransceiver i = true)
    (hrun : ∀ bs, ((s.accept i).block.run (primsOf i) bs).lines = r) (hidle : s.seq.busy = false)
    (hexec : exec i s = .next t) (hrsp : t.port.rsp = some w) (hok : w.extractLsb' 28 4 = statusOk) : t.lines = r := by
  have hcourse := (RunsList.commandLists (i := i) (.inl ⟨rfl, rfl⟩)).inCourse i
  have hleaves : TurnInvariant (abortPrimsOf i) (fun qs u => ∀ bs, (u.block.run qs bs).okLeaves r) :=
    blockRun_turnInvariant (abortPrimsOf_transceiver hi ▸ Block.okLeaves_run_abort r)
  rcases (hcourse.and hleaves).exec_endsIn hexec
    (fun _ => ⟨s.accept_inCourse i _ (primsOf_ne_nil i), fun bs _ _ _ => hrun bs⟩)
    (fun hbusy => by simp [hidle] at hbusy) with ⟨qs, ⟨hin, hleft⟩, -⟩ | ⟨-, qs, u, ts, -, rfl⟩
  · cases qs with
    | nil => exact hleft [] w hrsp hok
    | cons q qs =>
      obtain ⟨-, hnone, -, -⟩ := hin.running (List.cons_ne_nil _ _)
      simp [hnone] at hrsp
  · cases hrsp

/-- Settles O29: all of SEND_BYTE, or of RECEIVE_BYTE, leaves these lines, and `OK` comes from nothing less. -/
theorem okTransceiverLeavesTheBusInhibited : Obligations.OkTransceiverLeavesTheBusInhibited := by
  unfold Obligations.OkTransceiverLeavesTheBusInhibited
  exact ⟨fun s t b w hidle hexec hrsp hok => lines_of_ok rfl (lines_run_sendByte s b) hidle hexec hrsp hok,
    fun s t w hidle hexec hrsp hok => lines_of_ok rfl (lines_run_receiveByte s) hidle hexec hrsp hok⟩

/-! ## Held until served (R83, R86, R88) -/

theorem responds_of_respondsLast_append {pre qs : List Prim} (hne : qs ≠ []) (h : respondsLast (pre ++ qs) = true) :
    ∀ p ∈ pre, responds p = false := by
  induction pre with
  | nil => nofun
  | cons p pre ih =>
    obtain ⟨hp, hrest⟩ := responds_of_respondsLast_cons h
    have happ : pre ++ qs ≠ [] := List.append_ne_nil_of_right_ne_nil pre hne
    exact List.forall_mem_cons.2 ⟨hp.trans (List.isEmpty_eq_false_iff.2 happ), ih (hrest happ)⟩

/-- Without a `Respond` the block stays as busy as it was. -/
theorem Block.run_of_not_responds {ps : List Prim} (h : ∀ p ∈ ps, responds p = false) :
    ∀ (bs : List Bool) (k : Block), (k.run ps bs).busy = k.busy ∧ (k.run ps bs).rsp = k.rsp := by
  induction ps with
  | nil => intros; exact ⟨rfl, rfl⟩
  | cons p ps ih =>
    obtain ⟨hp, hps⟩ := List.forall_mem_cons.1 h
    have step : ∀ b bs (k : Block), ((k.effect b p).run ps bs).busy = k.busy ∧ ((k.effect b p).run ps bs).rsp = k.rsp :=
      fun b bs k => by
        obtain ⟨hbusy, hrsp⟩ := Block.effect_of_not_responds (k := k) b hp
        obtain ⟨hbusy', hrsp'⟩ := ih hps bs (k.effect b p)
        exact ⟨hbusy'.trans hbusy, hrsp'.trans hrsp⟩
    intro bs k
    rw [Block.run]
    split
    · exact step _ _ k
    · exact step _ _ k

/-- With no timeout and no reset, a command whose needs are not met is held before its response (R69, R126). -/
theorem exec_holds_of_unserved {i : Instr} {s : State} (hidle : s.seq.busy = false) (hreset : s.noReset)
    (hinf : s.params.waitTimeoutUs = none) (hin : inputsOk (primsOf i) s.lines)
    (hserves : s.serves ((primsOf i).map (needOf s.params)) = none) :
    Holds (exec i s) (fun t => t.seq.cur.cmd = i) := by
  obtain ⟨t, pre, p, post, bs, hrun, hsplit, hran⟩ :=
    runCommand_of_unserved (i := i) (ps2 := []) (abortPrimsOf i) (primsOf_ne_nil i) hidle hreset hinf hin hserves
  rw [List.append_nil, ← exec_eq_runCommand] at hrun
  have hpre := responds_of_respondsLast_append (List.cons_ne_nil p post) (hsplit ▸ respondsLast_primsOf i)
  obtain ⟨hbusy, hrsp⟩ := Block.run_of_not_responds hpre bs (s.accept i).block
  exact ⟨t, hrun, hran.busy.trans hbusy, hran.rsp.trans hrsp, hran.cmd⟩

theorem exec_transceiver_holds {i : Instr} {s : State} (hi : isTransceiver i = true) (hidle : s.seq.busy = false)
    (hreset : s.noReset) (hinf : s.params.waitTimeoutUs = none)
    (hserves : s.serves ((primsOf i).map (needOf s.params)) = none) :
    Holds (exec i s) (fun t => t.seq.cur.cmd = i ∧ t.dec = s.dec ∧ t.cmdReadyO = false) := by
  obtain ⟨t, hexec, hbusy, hrsp, hcmd⟩ :=
    exec_holds_of_unserved hidle hreset hinf (inputsOk_primsOf_transceiver hi _) hserves
  have hdec : t.dec = s.dec := by
    cases i with
    | sendByte b => exact lineCommandsLeaveTheDecoder (.sendByte b) s t (by simp) hreset hexec
    | receiveByte => exact lineCommandsLeaveTheDecoder .receiveByte s t (by simp) hreset hexec
    | _ => cases hi
  exact ⟨t, hexec, hbusy, hrsp, hcmd, hdec, by simp [State.cmdReadyO, hbusy]⟩

theorem State.phase_of_sendByte {s : State} {b : Byte} (hbusy : s.seq.busy = true)
    (hcmd : s.seq.cur.cmd = .sendByte b) : s.phase = .hostTransmitting := by
  simp [State.phase, State.sending, hbusy, hcmd]

theorem State.phase_of_receiveByte {s : State} (hbusy : s.seq.busy = true) (hcmd : s.seq.cur.cmd = .receiveByte) :
    s.phase = .deviceReceiving := by
  simp [State.phase, State.sending, State.receiving, hbusy, hcmd]

/-- Settles O30: the two commands are held before their response, in the phase that `CUR` names. -/
theorem transceiverHoldsUntilServed : Obligations.TransceiverHoldsUntilServed := by
  unfold Obligations.TransceiverHoldsUntilServed
  refine ⟨fun s b hidle hreset hinf hserves => ?_, fun s hidle hreset hinf hserves => ?_⟩
  · obtain ⟨t, hexec, hbusy, hrsp, hcmd, hdec, hready⟩ :=
      exec_transceiver_holds (i := .sendByte b) rfl hidle hreset hinf hserves
    exact ⟨t, hexec, hbusy, hrsp, hdec, State.phase_of_sendByte hbusy hcmd, hready⟩
  · obtain ⟨t, hexec, hbusy, hrsp, hcmd, hdec, hready⟩ :=
      exec_transceiver_holds (i := .receiveByte) rfl hidle hreset hinf hserves
    exact ⟨t, hexec, hbusy, hrsp, hdec, State.phase_of_receiveByte hbusy hcmd, hready⟩

end Sys2Proof.Machine
end

section
/-! The frame decoder as a function (R90): what one push does at each position, and what many pushes add up to. -/

namespace Sys2Proof.Machine

/-! ## `ACC` (R90) -/

/-- A data bit enters `ACC` from above (R90). -/
def shiftBit (acc : Byte) (b : Bool) : Byte := BitVec.ofBool b ++ acc.extractLsb' 1 7

/-- The data bits enter `ACC`, the first one first. -/
def shiftBits (acc : Byte) (bits : List Bool) : Byte := bits.foldl shiftBit acc

theorem getLsbD_shiftBit (acc : Byte) (b : Bool) {i : Nat} (hi : i < 8) :
    (shiftBit acc b).getLsbD i = if i < 7 then acc.getLsbD (i + 1) else b := by
  show (BitVec.ofBool b ++ acc.extractLsb' 1 7 : BitVec (1 + 7)).getLsbD i = _
  rw [BitVec.getLsbD_append, BitVec.getLsbD_extractLsb', Nat.add_comm 1 i]
  by_cases h : i < 7
  · simp [h]
  · obtain rfl : i = 7 := by omega
    simp

/-- The last bit that entered is the highest. -/
theorem getLsbD_shiftBits (bits : List Bool) : ∀ {acc : Byte} {i : Nat}, i < 8 →
    (shiftBits acc bits).getLsbD i =
      if i + bits.length < 8 then acc.getLsbD (i + bits.length) else bits.getD (i + bits.length - 8) false := by
  induction bits with
  | nil =>
    intro acc i hi
    simp [shiftBits, hi]
  | cons b bits ih =>
    intro acc i hi
    have hcons : shiftBits acc (b :: bits) = shiftBits (shiftBit acc b) bits := rfl
    rw [hcons, ih hi, List.length_cons]
    rcases Nat.lt_trichotomy (i + bits.length) 7 with h | h | h
    · rw [if_pos (by omega), if_pos (by omega), getLsbD_shiftBit _ _ (by omega), if_pos h, Nat.add_assoc]
    · rw [if_pos (by omega), if_neg (by omega), getLsbD_shiftBit _ _ (by omega), if_neg (by omega),
        show i + (bits.length + 1) - 8 = 0 by omega]
      rfl
    · rw [if_neg (by omega), if_neg (by omega),
        show i + (bits.length + 1) - 8 = i + bits.length - 8 + 1 by omega]
      rfl

/-- Eight data bits push out all that `ACC` held, and the first one is the lowest. -/
theorem shiftBits_eight (acc : Byte) {bits : List Bool} (hlen : bits.length = 8) :
    shiftBits acc bits = BitVec.ofNat 8 (bitsToNat bits) := by
  apply BitVec.eq_of_getLsbD_eq
  intro i hi
  rw [getLsbD_shiftBits bits hi, hlen, if_neg (by omega), Nat.add_sub_cancel, BitVec.getLsbD_ofNat,
    testBit_bitsToNat]
  simp [hi]

/-! ## One push (R90) -/

namespace Decoder

variable {d : Decoder}

/-- What the stop bit leaves in the slots 0 to 2: the byte of the slot is `ACC`, the slot advances, and the decoder is
re-armed (R90). -/
def stopped (d : Decoder) : Decoder where
  acc := 0
  bitIdx := -1
  frameSlot := if d.frameSlot = 0 then 1 else if d.frameSlot = 1 then 2 else 0
  repState := if d.frameSlot = 0 then d.acc else d.repState
  repX := if d.frameSlot = 1 then d.acc else d.repX
  repY := if d.frameSlot = 2 then d.acc else d.repY
  available := decide (d.frameSlot = 2)

/-- `BIT_IDX` advances in 5 bits, from 15 to -16 (R22). -/
theorem toInt_add_one_of_five_bits :
    ∀ x : BitVec 5, (x + 1).toInt = if x.toInt = 15 then -16 else x.toInt + 1 := by decide

theorem slot_cases : ∀ {slot : BitVec 2}, slot ≠ 3 → slot = 0 ∨ slot = 1 ∨ slot = 2 := by decide

/-- The start bit and the parity bit are not kept (R90). -/
theorem push_of_skip (b : Bool) (h : d.bitIdx.toInt = -1 ∨ d.bitIdx.toInt = 8) :
    d.push b = { d with available := false, bitIdx := d.bitIdx + 1 } := by
  have hnext := toInt_add_one_of_five_bits d.bitIdx
  rw [if_neg (by omega)] at hnext
  unfold push atPosition
  dsimp only
  rw [hnext]
  rcases h with h | h
  · rw [if_pos (by omega)]
  · rw [if_neg (by omega), if_neg (by omega), if_pos (by omega)]

/-- A data bit enters `ACC` (R90). -/
theorem push_of_data (b : Bool) (hlow : 0 ≤ d.bitIdx.toInt) (hhigh : d.bitIdx.toInt ≤ 7) :
    d.push b = { d with available := false, bitIdx := d.bitIdx + 1, acc := shiftBit d.acc b } := by
  have hnext := toInt_add_one_of_five_bits d.bitIdx
  rw [if_neg (by omega)] at hnext
  unfold push atPosition
  dsimp only
  rw [hnext, if_neg (by omega), if_pos (by omega)]
  rfl

theorem push_of_stop (b : Bool) (h : d.bitIdx.toInt = 9) :
    d.push b =
      { { d with available := false, bitIdx := d.bitIdx + 1 }.commit with
        frameSlot := nextSlot d.frameSlot }.rearm := by
  have hnext := toInt_add_one_of_five_bits d.bitIdx
  rw [if_neg (by omega)] at hnext
  unfold push atPosition
  dsimp only
  rw [hnext, if_neg (by omega), if_neg (by omega), if_neg (by omega), if_pos (by omega)]

/-- From a position that no frame has, a push re-arms the decoder (R90). -/
theorem push_of_outside (b : Bool) (h : d.bitIdx.toInt < -1 ∨ 9 < d.bitIdx.toInt) :
    d.push b = { d with available := false, acc := 0, bitIdx := -1 } := by
  have hnext := toInt_add_one_of_five_bits d.bitIdx
  unfold push atPosition
  dsimp only
  split at hnext <;>
    rw [hnext, if_neg (by omega), if_neg (by omega), if_neg (by omega), if_neg (by omega)] <;> rfl

theorem push_of_stop_in_slot (b : Bool) (h : d.bitIdx.toInt = 9) (hslot : d.frameSlot ≠ 3) :
    d.push b = d.stopped := by
  rw [push_of_stop b h]
  obtain ⟨acc, bitIdx, slot, repState, repX, repY, available⟩ := d
  obtain rfl | rfl | rfl : slot = 0 ∨ slot = 1 ∨ slot = 2 := slot_cases hslot
  all_goals simp [stopped, commit, nextSlot, rearm, preStart]

/-- In slot 3 there is no byte to commit (R90). -/
theorem push_of_stop_in_slot_three (b : Bool) (h : d.bitIdx = 9) (hslot : d.frameSlot = 3) :
    (d.push b).sameReport d ∧ (d.push b).available = false ∧ (d.push b).acc = 0 ∧ (d.push b).bitIdx = -1 := by
  rw [push_of_stop b (by rw [h]; decide)]
  obtain ⟨acc, bitIdx, slot, repState, repX, repY, available⟩ := d
  obtain rfl : slot = 3 := hslot
  exact ⟨⟨rfl, rfl, rfl⟩, rfl, rfl, rfl⟩

/-! ## The phase of the 33 pushes of a report (R97, R99) -/

/-- The position is one between pushes, and the slot is one that a run reaches (R22, R23). -/
structure InFrame (d : Decoder) : Prop where
  low : -1 ≤ d.bitIdx.toInt
  high : d.bitIdx.toInt ≤ 9
  slot : d.frameSlot ≠ 3

/-- How many pushes the decoder is past the start of a report. -/
def phase (d : Decoder) : Nat := 11 * d.frameSlot.toNat + (d.bitIdx.toInt + 1).toNat

theorem inv.inFrame (h : d.inv) : d.InFrame := by
  obtain ⟨hlow, hhigh, hslot, -⟩ := h
  exact ⟨hlow, hhigh, hslot⟩

theorem inFrame_of_preStart (h : d.bitIdx = -1) (hslot : d.frameSlot ≠ 3) : d.InFrame :=
  ⟨by rw [h]; decide, by rw [h]; decide, hslot⟩

theorem phase_of_preStart (h : d.bitIdx = -1) : d.phase = 11 * d.frameSlot.toNat := by
  unfold phase
  rw [h]
  rfl

theorem InFrame.toNat_slot_lt (h : d.InFrame) : d.frameSlot.toNat < 3 := by
  rcases slot_cases h.slot with h | h | h <;> rw [h] <;> decide

theorem InFrame.phase_lt (h : d.InFrame) : d.phase < 33 := by
  have hlt := h.toNat_slot_lt
  obtain ⟨hlow, hhigh, -⟩ := h
  unfold phase
  omega

/-- The stop bit's push ends a byte, and the one of slot 2 the report. -/
theorem stopped_phase (h9 : d.bitIdx.toInt = 9) (hslot : d.frameSlot ≠ 3) :
    d.stopped.InFrame ∧ d.stopped.phase = (d.phase + 1) % 33 ∧
      (d.stopped.available = true ↔ d.stopped.phase = 0) := by
  unfold phase
  rw [h9]
  obtain ⟨acc, bitIdx, slot, repState, repX, repY, available⟩ := d
  obtain rfl | rfl | rfl : slot = 0 ∨ slot = 1 ∨ slot = 2 := slot_cases hslot
  all_goals exact ⟨inFrame_of_preStart rfl (by simp [stopped]), by simp [stopped], by simp [stopped]⟩

/-- A push advances the phase, and `AVAILABLE` is 1 after it exactly when it ended a report (R90, R97). -/
theorem push_phase (b : Bool) (h : d.InFrame) :
    (d.push b).InFrame ∧ (d.push b).phase = (d.phase + 1) % 33 ∧
      ((d.push b).available = true ↔ (d.push b).phase = 0) := by
  have hlt := h.toNat_slot_lt
  obtain ⟨hlow, hhigh, hslot⟩ := h
  by_cases h9 : d.bitIdx.toInt = 9
  · rw [push_of_stop_in_slot b h9 hslot]
    exact stopped_phase h9 hslot
  have hnext := toInt_bitIdx_add_one d.bitIdx hlow hhigh
  have hadvance : ∀ e : Decoder, e.bitIdx = d.bitIdx + 1 → e.frameSlot = d.frameSlot → e.available = false →
      e.InFrame ∧ e.phase = (d.phase + 1) % 33 ∧ (e.available = true ↔ e.phase = 0) := by
    intro e hidx hs hav
    have hphase : e.phase = d.phase + 1 := by
      unfold phase
      rw [hidx, hs, hnext]
      omega
    have hlast : d.phase + 1 < 33 := by
      unfold phase
      omega
    exact ⟨⟨by rw [hidx]; omega, by rw [hidx]; omega, hs ▸ hslot⟩, by omega, by simp [hav, hphase]⟩
  by_cases hskip : d.bitIdx.toInt = -1 ∨ d.bitIdx.toInt = 8
  · rw [push_of_skip b hskip]
    exact hadvance _ rfl rfl rfl
  · rw [push_of_data b (by omega) (by omega)]
    exact hadvance _ rfl rfl rfl

/-- The pushes of the bits, the first one first. -/
def pushAll (d : Decoder) (bits : List Bool) : Decoder := bits.foldl push d

/-- Pushes add up in the phase modulo 33, and `AVAILABLE` follows the last of them (R97). -/
theorem pushAll_phase (bits : List Bool) :
    ∀ {d : Decoder}, d.InFrame → (d.pushAll bits).InFrame ∧ (d.pushAll bits).phase = (d.phase + bits.length) % 33 ∧
      (bits ≠ [] → ((d.pushAll bits).available = true ↔ (d.pushAll bits).phase = 0)) := by
  induction bits using List.reverseRecOn with
  | nil =>
    intro d h
    exact ⟨h, (Nat.mod_eq_of_lt h.phase_lt).symm, fun hne => absurd rfl hne⟩
  | append_singleton bits b ih =>
    intro d h
    obtain ⟨hin, hphase, -⟩ := ih h
    have hlast : d.pushAll (bits ++ [b]) = (d.pushAll bits).push b := by simp [pushAll]
    rw [hlast]
    obtain ⟨hin', hphase', hav⟩ := push_phase b hin
    exact ⟨hin', by rw [hphase', hphase, List.length_append, List.length_singleton]; omega, fun _ => hav⟩

/-- Eleven pushes end at the same position, in the next slot (R99). -/
theorem pushAll_eleven (bits : List Bool) (h : d.InFrame) (hlen : bits.length = 11) :
    (d.pushAll bits).bitIdx = d.bitIdx ∧ (d.pushAll bits).frameSlot.toNat = (d.frameSlot.toNat + 1) % 3 := by
  obtain ⟨hin, hphase, -⟩ := pushAll_phase bits h
  have hlt := h.toNat_slot_lt
  have hlt' := hin.toNat_slot_lt
  obtain ⟨hlow, hhigh, -⟩ := h
  obtain ⟨hlow', hhigh', -⟩ := hin
  unfold phase at hphase
  rw [hlen] at hphase
  exact ⟨BitVec.eq_of_toInt_eq (by omega), by omega⟩

/-! ## The byte of eleven pushes (R96) -/

theorem toInt_ofNat_position : ∀ k < 9, (BitVec.ofNat 5 k).toInt = k := by decide

/-- Data bits from position `k` on enter `ACC` (R90). -/
theorem pushAll_data (d : Decoder) (bits : List Bool) : ∀ {k : Nat} {acc : Byte}, k + bits.length ≤ 8 →
    { d with available := false, bitIdx := BitVec.ofNat 5 k, acc := acc }.pushAll bits =
      { d with available := false, bitIdx := BitVec.ofNat 5 (k + bits.length), acc := shiftBits acc bits } := by
  induction bits with
  | nil => intros; rfl
  | cons b bits ih =>
    intro k acc hlen
    rw [List.length_cons] at hlen ⊢
    have hk := toInt_ofNat_position k (by omega)
    have hcons : ∀ e : Decoder, e.pushAll (b :: bits) = (e.push b).pushAll bits := fun _ => rfl
    rw [hcons, push_of_data b (by dsimp only; omega) (by dsimp only; omega)]
    dsimp only
    have hadvance : BitVec.ofNat 5 k + 1 = BitVec.ofNat 5 (k + 1) := (BitVec.ofNat_add k 1).symm
    rw [hadvance, ih (by omega), Nat.add_right_comm k 1, Nat.add_assoc k]
    rfl

/-- The start bit, eight data bits, the parity bit and the stop bit: the data bits are committed (R96). -/
theorem pushAll_byte {d : Decoder} (hidx : d.bitIdx = -1) (hslot : d.frameSlot ≠ 3) (start : Bool) {bits : List Bool}
    (hlen : bits.length = 10) :
    d.pushAll (start :: bits) =
      stopped { d with available := false, bitIdx := 9, acc := BitVec.ofNat 8 (bitsToNat (bits.take 8)) } := by
  obtain ⟨par, stop, htail⟩ : ∃ par stop, bits.drop 8 = [par, stop] :=
    List.length_eq_two.1 (by rw [List.length_drop, hlen])
  have hdata : (bits.take 8).length = 8 := by rw [List.length_take, hlen]; rfl
  have hsplit : d.pushAll (start :: bits) = (((d.push start).pushAll (bits.take 8)).push par).push stop := by
    conv_lhs => rw [← List.take_append_drop 8 bits, htail]
    simp [pushAll]
  have hstart : d.push start = { d with available := false, bitIdx := BitVec.ofNat 5 0, acc := d.acc } := by
    rw [push_of_skip start (.inl (by rw [hidx]; decide)), hidx]
    rfl
  rw [hsplit, hstart, pushAll_data d _ (by omega), hdata, shiftBits_eight _ hdata,
    push_of_skip par (.inr (by decide : (BitVec.ofNat 5 (0 + 8)).toInt = 8))]
  exact push_of_stop_in_slot stop (by decide : (BitVec.ofNat 5 (0 + 8) + 1).toInt = 9) hslot

end Decoder

end Sys2Proof.Machine
end

section
/-! The commands of the frame decoder (R91 to R99): what each answers and does to the decoder, and what runs of them
add up to. -/

namespace Sys2Proof.Machine

/-! ## How a command that awaits nothing ends -/

/-- A run takes its turns from the front of the schedule. -/
theorem runTurns_schedule_suffix (abortPs : List Prim) (ts : List Turn) :
    ∀ ps s, (runTurns abortPs ts ps s).env.schedule <:+ ts := by
  induction ts with
  | nil => intro ps s; exact List.suffix_refl _
  | cons t ts ih =>
    have hrest : ∀ ps s, (runTurns abortPs ts ps s).env.schedule <:+ t :: ts := fun ps s =>
      (ih ps s).trans (List.suffix_cons t ts)
    intro ps s
    cases ps with
    | nil => exact List.suffix_refl _
    | cons p ps =>
      cases t with
      | device clk data => exact hrest _ _
      | caller offer => exact hrest _ _
      | reset => exact List.suffix_cons _ ts
      | host cycles =>
        unfold runTurns
        cases s.primTurn p (some cycles) with
        | done s' => exact hrest _ _
        | hold s' => exact hrest _ _
        | timeout s' => exact hrest _ _

/-- A command of an idle block brings no reset to the schedule. -/
theorem exec_noReset {i : Instr} {s t : State} (hidle : s.seq.busy = false) (hreset : s.noReset)
    (hexec : exec i s = .next t) : t.noReset := by
  rw [exec_of_idle i hidle] at hexec
  cases hexec
  exact fun hmem => hreset ((runTurns_schedule_suffix _ _ _ _).subset hmem)

/-- The primitives that are left await nothing, and end in what all of `ps` makes of `k` with some levels taken. -/
def Completes (k : Block) (ps qs : List Prim) (s : State) : Prop :=
  (∀ q ∈ qs, isWaitUntil q = false) ∧ ∀ bs, ∃ bs', s.block.run qs bs = k.run ps bs'

theorem completes_turnInvariant (abortPs : List Prim) (k : Block) (ps : List Prim) :
    TurnInvariant abortPs (Completes k ps) where
  done {p qs s s' turn} h e := by
    obtain ⟨hwait, hrun⟩ := h
    obtain ⟨b, hblock⟩ := (TurnDone.of_eq e).effect
    refine ⟨fun q hq => hwait q (List.mem_cons_of_mem _ hq), fun bs => ?_⟩
    rw [hblock]
    cases hp : keepsSample p with
    | true => simpa [Block.run, hp] using hrun (b :: bs)
    | false => simpa [Block.run, hp, Block.effect_of_keepsSample_false hp s.block b false] using hrun bs
  hold h e := ⟨h.1, (TurnHeld.of_eq e).block ▸ h.2⟩
  timeout {p qs s s' turn} h e := by
    have hwait := (TurnTimedOut.of_eq e).wait
    simp [h.1 p List.mem_cons_self] at hwait
  device _ _ h := h
  caller _ h := h
  schedule _ h := h

theorem isWaitUntil_of_mem_primsOf {i : Instr} (h : awaitsLevel i = false) :
    ∀ p ∈ primsOf i, isWaitUntil p = false := by
  have hall : (primsOf i).all (!isWaitUntil ·) = true := by
    cases i with
    | wait _ _ | sendByte _ | receiveByte => cases h
    | setDir line dir => cases line <;> rfl
    | drive line level => cases line <;> rfl
    | sense line => cases line <;> rfl
    | _ => rfl
  simpa using hall

/-- Without a reset a command that awaits nothing does all its primitives, whatever the directions of the lines are. -/
theorem exec_block {i : Instr} {s t : State} (hwait : awaitsLevel i = false) (hidle : s.seq.busy = false)
    (hreset : s.noReset) (hexec : exec i s = .next t) : ∃ bs, t.block = (s.accept i).block.run (primsOf i) bs := by
  obtain ⟨qs, ⟨hnone, hrun⟩, hhead⟩ := (completes_turnInvariant _ (s.accept i).block (primsOf i)).exec_ends hidle hreset
    ⟨isWaitUntil_of_mem_primsOf hwait, fun bs => ⟨bs, rfl⟩⟩ hexec
  cases qs with
  | nil => exact hrun []
  | cons q qs => simp [hnone q List.mem_cons_self] at hhead

/-! ## The commands of the decoder (R91 to R95) -/

theorem exec_pushBit {s : State} (b : Bool) (hidle : s.seq.busy = false) (hreset : s.noReset) :
    Answers (exec (.pushBit b) s) 0x00000000 (fun t => t.lines = s.lines ∧ t.dec = s.dec.push b ∧ t.noReset) := by
  obtain ⟨t, bs, hexec, hran⟩ := exec_of_senses_none (i := .pushBit b) hidle hreset
    (by simp [primsOf, pushBitPrims, respondZero, sensedBy])
  exact ⟨t, hexec, hran.busy, hran.rsp.trans (congrArg some okWord_zero), hran.lines, hran.dec,
    exec_noReset hidle hreset hexec⟩

/-- Settles O32, by the position of the push. -/
theorem pushBitAdvancesTheDecoder : Obligations.PushBitAdvancesTheDecoder := by
  unfold Obligations.PushBitAdvancesTheDecoder
  intro s b hidle hreset hslot
  obtain ⟨t, hexec, hbusy, hrsp, hlines, hdec, -⟩ := exec_pushBit b hidle hreset
  refine ⟨t, hexec, hbusy, hrsp, hlines, hdec.trans ?_⟩
  split
  next hskip => exact Decoder.push_of_skip b hskip
  split
  next hdata => exact Decoder.push_of_data b hdata.1 hdata.2
  split
  next h9 => exact Decoder.push_of_stop_in_slot b h9 (hslot h9)
  · exact Decoder.push_of_outside b (by omega)

/-- Settles O33: slot 3 has no byte. -/
theorem stopBitInSlotThreeWritesNoReport : Obligations.StopBitInSlotThreeWritesNoReport := by
  unfold Obligations.StopBitInSlotThreeWritesNoReport
  intro s b hidle hreset hidx hslot
  obtain ⟨t, hexec, hbusy, hrsp, hlines, hdec, -⟩ := exec_pushBit b hidle hreset
  exact ⟨t, hexec, hbusy, hrsp, hlines, hdec ▸ Decoder.push_of_stop_in_slot_three b hidx hslot⟩

/-- Settles O34: the one level that SAMPLE_PUSH takes is pushed. -/
theorem samplePushPushesTheSampledLevel : Obligations.SamplePushPushesTheSampledLevel := by
  unfold Obligations.SamplePushPushesTheSampledLevel
  intro s v b hidle hin hserves hsamples
  obtain ⟨t, hexec, hran, hrest⟩ := exec_of_serves (i := .samplePush) hidle
    ⟨by rintro _ ⟨⟩; exact hin, nofun, nofun, trivial⟩ hserves
  rw [hsamples] at hran
  exact ⟨t, hexec, hran.busy, hran.rsp.trans (congrArg some okWord_zero), hran.lines, hrest, fun u hpush =>
    hran.dec.trans (exec_pushBit_still hidle hpush).symm⟩

/-- In the course of a SAMPLE_PUSH of an output data line, when `n` draws had been taken and the decoder was `d` before
it: it takes one draw, and pushes it. -/
inductive PushesDraw (n : Nat) (d : Decoder) : List Prim → State → Prop
  | start {u : State} (hdir : u.lines.dir .data = .output) (hdraws : u.record.draws = n) (hdec : u.dec = d) :
      PushesDraw n d samplePushPrims u
  | drawn {u : State} (hsampled : u.seq.cur.sampled = Config.senseDraw n) (hdraws : u.record.draws = n + 1)
      (hdec : u.dec = d) : PushesDraw n d (.pushSampled :: respondZero) u
  | pushed {qs : List Prim} {u : State} (hqs : qs <:+ respondZero) (hdraws : u.record.draws = n + 1)
      (hdec : u.dec = d.push (Config.senseDraw n)) : PushesDraw n d qs u

/-- Moves of the other agents do not touch what a SAMPLE_PUSH has come to. -/
theorem PushesDraw.congr {n : Nat} {d : Decoder} {qs : List Prim} {u u' : State} (h : PushesDraw n d qs u)
    (hlines : u'.lines = u.lines) (hseq : u'.seq = u.seq) (hdec : u'.dec = u.dec)
    (hdraws : u'.record.draws = u.record.draws) : PushesDraw n d qs u' := by
  cases h with
  | start hdir hn hd => exact .start (hlines ▸ hdir) (hdraws.trans hn) (hdec.trans hd)
  | drawn hsampled hn hd => exact .drawn (hseq ▸ hsampled) (hdraws.trans hn) (hdec.trans hd)
  | pushed hqs hn hd => exact .pushed hqs (hdraws.trans hn) (hdec.trans hd)

theorem respondZero_of_suffix {p : Prim} {ps : List Prim} (h : p :: ps <:+ respondZero) :
    p = .respond .zero ∧ ps = [] := by
  simpa [respondZero, List.suffix_cons_iff] using h

theorem pushesDraw_turnInvariant (abortPs : List Prim) (n : Nat) (d : Decoder) :
    TurnInvariant abortPs (PushesDraw n d) where
  done h e := by
    cases h with
    | start hdir hdraws hdec =>
      rw [State.primTurn_senseLine, State.sense_of_output hdir, hdraws] at e
      cases e
      exact .drawn rfl rfl hdec
    | drawn hsampled hdraws hdec =>
      cases e
      exact .pushed (List.suffix_refl _) hdraws (by rw [← hsampled, ← hdec]; rfl)
    | pushed hqs hdraws hdec =>
      obtain ⟨rfl, rfl⟩ := respondZero_of_suffix hqs
      cases e
      exact .pushed List.nil_suffix hdraws hdec
  hold h e := by
    cases h with
    | pushed hqs => obtain ⟨rfl, rfl⟩ := respondZero_of_suffix hqs; cases e
    | _ => cases e
  timeout h e := by
    cases h with
    | pushed hqs => obtain ⟨rfl, rfl⟩ := respondZero_of_suffix hqs; cases e
    | _ => cases e
  device _ _ h := h.congr rfl rfl rfl rfl
  caller _ h := h.congr rfl rfl rfl rfl
  schedule _ h := h.congr rfl rfl rfl rfl

/-- SAMPLE_PUSH pushes some level, whatever the direction of the data line is (R92). -/
theorem exec_samplePush {s : State} (hidle : s.seq.busy = false) (hreset : s.noReset) :
    Answers (exec .samplePush s) 0x00000000 (fun t => t.lines = s.lines ∧ ∃ b, t.dec = s.dec.push b) := by
  have hexec := exec_of_idle .samplePush hidle
  refine ⟨_, hexec, ?_⟩
  obtain ⟨bs, hblock⟩ := exec_block (i := .samplePush) rfl hidle hreset hexec
  exact ⟨congrArg Block.busy hblock, (congrArg Block.rsp hblock).trans (congrArg some okWord_zero),
    congrArg Block.lines hblock, _, congrArg Block.dec hblock⟩

/-- Settles O35: along the run of SAMPLE_PUSH one draw is taken, and it is pushed. -/
theorem samplePushOfAnOutputLinePushesADraw : Obligations.SamplePushOfAnOutputLinePushesADraw := by
  unfold Obligations.SamplePushOfAnOutputLinePushesADraw
  intro s hidle hreset hdir
  obtain ⟨t, hexec, hbusy, hrsp, hlines, -⟩ := exec_samplePush hidle hreset
  obtain ⟨qs, hpushes, hhead⟩ := (pushesDraw_turnInvariant _ s.record.draws s.dec).exec_ends hidle hreset
    (show PushesDraw _ _ (primsOf .samplePush) (s.accept .samplePush) from .start hdir rfl rfl) hexec
  cases hpushes with
  | start => simp [samplePushPrims, isWaitUntil] at hhead
  | drawn => simp [isWaitUntil] at hhead
  | pushed _ hdraws hdec =>
    exact ⟨t, hexec, hbusy, hrsp, hlines, hdraws, fun u hpush => hdec.trans (exec_pushBit_still hidle hpush).symm⟩

/-- Settles O36: the answer is the flag, and no primitive writes a register. -/
theorem isReportReadyAnswersTheFlag : Obligations.IsReportReadyAnswersTheFlag := by
  unfold Obligations.IsReportReadyAnswersTheFlag
  intro s hidle hreset
  have hword : okWord (zextBit s.dec.available) = if s.dec.available then 0x00000001 else 0x00000000 := by
    cases s.dec.available <;> decide
  obtain ⟨t, bs, hexec, hran⟩ := exec_of_senses_none (i := .isReportReady) hidle hreset
    (by simp [primsOf, sensedBy])
  exact ⟨t, hexec, hran.busy, hran.rsp.trans (congrArg some hword), exec_sameRegisters rfl hreset hexec⟩

/-! ### TAKE_REPORT (R42, R94) -/

theorem okWord_eq_append (x : BitVec 25) : okWord x = 0#7 ++ x := rfl

/-- Bit 24 of the response is the flag (R56). -/
theorem getLsbD_okWord_reportData (d : Decoder) : (okWord (reportData d)).getLsbD 24 = d.available := by
  show (0#7 ++ (BitVec.ofBool d.available ++ d.repY ++ d.repX ++ d.repState : BitVec (1 + 8 + 8 + 8)) :
    BitVec (7 + (1 + 8 + 8 + 8))).getLsbD 24 = _
  simp only [BitVec.getLsbD_append]
  simp

/-- With a report available, the response is the flag and the three bytes (R94). -/
theorem okWord_reportData_of_available {d : Decoder} (h : d.available = true) :
    okWord (reportData d) = 0x01#8 ++ d.repY ++ d.repX ++ d.repState := by
  rw [okWord_eq_append, reportData, h]
  apply BitVec.eq_of_toNat_eq
  simp only [BitVec.toNat_append]
  simp

theorem exec_takeReport {s : State} (hidle : s.seq.busy = false) (hreset : s.noReset) :
    Answers (exec .takeReport s) (okWord (reportData s.dec)) (fun t =>
      t.dec = { s.dec with available := false } ∧ t.lines = s.lines ∧ t.noReset) := by
  obtain ⟨t, bs, hexec, hran⟩ := exec_of_senses_none (i := .takeReport) hidle hreset (by simp [primsOf, sensedBy])
  exact ⟨t, hexec, hran.busy, hran.rsp, hran.dec, hran.lines, exec_noReset hidle hreset hexec⟩

/-- TAKE_REPORT takes one turn of the block (R42). -/
theorem exec_takeReport_schedule {s t : State} {c : Nat} {ts : List Turn} (hidle : s.seq.busy = false)
    (hexec : exec .takeReport s = .next t) (hts : s.env.schedule = .host c :: ts) : t.env.schedule = ts := by
  rw [exec_of_idle .takeReport hidle, hts] at hexec
  cases hexec
  cases ts <;> rfl

/-- Settles O37: the answer is the report as it stands, and the one primitive clears the flag. -/
theorem takeReportReadsAndClears : Obligations.TakeReportReadsAndClears := by
  unfold Obligations.TakeReportReadsAndClears
  intro s hidle hreset
  obtain ⟨t, hexec, hbusy, hrsp, hdec, hlines, -⟩ := exec_takeReport hidle hreset
  refine ⟨_, ⟨t, hexec, hbusy, hrsp, hdec, hlines, fun c ts hts => exec_takeReport_schedule hidle hexec hts⟩,
    BitVec.extractLsb'_append_eq_left, getLsbD_okWord_reportData s.dec, 
    okWord_reportData_of_available⟩

/-- Settles O38: the first TAKE_REPORT leaves the flag 0. -/
theorem secondTakeReportIsNotAvailable : Obligations.SecondTakeReportIsNotAvailable := by
  unfold Obligations.SecondTakeReportIsNotAvailable
  intro s hidle hreset
  obtain ⟨t, hexec, hbusy, -, hdec, hlines, hreset'⟩ := exec_takeReport hidle hreset
  have hav : t.dec.available = false := congrArg Decoder.available hdec
  obtain ⟨u, hexec', -, hrsp, hdec', hlines', -⟩ := exec_takeReport hbusy hreset'
  exact ⟨t, hexec, hav, u, _, hexec', hrsp, (getLsbD_okWord_reportData _).trans hav,
    hdec'.trans (congrArg (fun av => { t.dec with available := av }) hav.symm), hlines'.trans hlines⟩

/-- Settles O39: the four primitives before the response write what R95 says. -/
theorem decoderClearStartsAReport : Obligations.DecoderClearStartsAReport := by
  unfold Obligations.DecoderClearStartsAReport
  intro s hidle hreset
  obtain ⟨t, bs, hexec, hran⟩ := exec_of_senses_none (i := .decoderClear) hidle hreset
    (by simp [primsOf, decoderClearPrims, sensedBy])
  exact ⟨t, hexec, hran.busy, hran.rsp.trans (congrArg some okWord_zero), hran.dec, hran.lines⟩

/-! ## Runs of PUSH_BIT (R96, R99) -/

/-- Pushes one after the other, whatever the other agents do between them, push their bits in order. -/
theorem runAll_pushBit (bits : List Bool) : ∀ {s : State}, s.seq.busy = false → s.noReset →
    ∃ t, runAll (bits.map .pushBit) s = .next t ∧ t.lines = s.lines ∧ t.dec = s.dec.pushAll bits := by
  induction bits with
  | nil => intro s _ _; exact ⟨s, rfl, rfl, rfl⟩
  | cons b bits ih =>
    intro s hidle hreset
    obtain ⟨t, hexec, hbusy, -, hlines, hdec, hreset'⟩ := exec_pushBit b hidle hreset
    obtain ⟨u, hrun, hlines', hdec'⟩ := ih hbusy hreset'
    exact ⟨u, by simp [runAll, hexec, hrun], hlines'.trans hlines, by rw [hdec', hdec]; rfl⟩

/-- Settles O40: the pushes are those of one byte, and `AVAILABLE` follows the phase on the way. -/
theorem elevenPushesCommitOneByte : Obligations.ElevenPushesCommitOneByte := by
  unfold Obligations.ElevenPushesCommitOneByte
  intro s bits hidle hreset hidx hslot hlen
  refine ⟨?_, fun k u hpos hk hrun => ?_⟩
  · obtain ⟨start, rest, rfl⟩ := List.exists_cons_of_length_eq_add_one hlen
    obtain ⟨t, hrun, hlines, hdec⟩ := runAll_pushBit (start :: rest) hidle hreset
    obtain ⟨-, hnext⟩ := Decoder.pushAll_eleven _ (Decoder.inFrame_of_preStart hidx hslot) hlen
    rw [Decoder.pushAll_byte hidx hslot start (by simpa using hlen)] at hdec hnext
    refine ⟨t, hrun, hlines, ?_⟩
    rw [hdec]
    exact ⟨rfl, rfl, hnext, decide_eq_true_iff, rfl, rfl, rfl⟩
  · obtain ⟨t, hrun', -, hdec⟩ := runAll_pushBit (bits.take k) hidle hreset
    obtain rfl : t = u := Host.Outcome.next.inj (hrun'.symm.trans hrun)
    have hin := Decoder.inFrame_of_preStart hidx hslot
    have hlt := hin.toNat_slot_lt
    have htake : (bits.take k).length = k := List.length_take_of_le (by omega)
    obtain ⟨-, hphase, hav⟩ := Decoder.pushAll_phase (bits.take k) hin
    rw [Decoder.phase_of_preStart hidx, htake] at hphase
    rw [hdec, Bool.eq_false_iff, ne_eq, hav (List.ne_nil_of_length_pos (by omega)), hphase]
    omega

/-- Settles O42: eleven pushes advance the phase by a third of the 33. -/
theorem elevenPushesReturnThePosition : Obligations.ElevenPushesReturnThePosition := by
  unfold Obligations.ElevenPushesReturnThePosition
  intro s bits hidle hreset hinv hlen
  obtain ⟨t, hrun, -, hdec⟩ := runAll_pushBit bits hidle hreset
  exact ⟨t, hrun, hdec ▸ Decoder.pushAll_eleven bits hinv.inFrame hlen⟩

/-! ## Runs of any commands (R97) -/

theorem RunsTo.append {is js : List Instr} {s t : State} :
    RunsTo (is ++ js) s t ↔ ∃ u, RunsTo is s u ∧ RunsTo js u t := by
  induction is generalizing s with
  | nil => simp [RunsTo]
  | cons i is ih =>
    simp only [List.cons_append, RunsTo, ih]
    constructor
    · rintro ⟨u, hexec, hbusy, hrsp, v, hv, ht⟩
      exact ⟨v, ⟨u, hexec, hbusy, hrsp, hv⟩, ht⟩
    · rintro ⟨v, ⟨u, hexec, hbusy, hrsp, hv⟩, ht⟩
      exact ⟨u, hexec, hbusy, hrsp, v, hv, ht⟩

/-- Between the commands of a run the block is idle, and no reset is to come. -/
theorem RunsTo.idle_noReset {is : List Instr} : ∀ {s t : State}, RunsTo is s t → s.seq.busy = false → s.noReset →
    t.seq.busy = false ∧ t.noReset := by
  induction is with
  | nil =>
    rintro s t rfl hidle hreset
    exact ⟨hidle, hreset⟩
  | cons i is ih =>
    rintro s t ⟨u, hexec, hbusy, -, hrun⟩ hidle hreset
    exact ih hrun hbusy (exec_noReset hidle hreset hexec)

theorem Block.effect_rsp_of_responds {k : Block} {p : Prim} (b : Bool) (h : responds p = true) :
    (k.effect b p).rsp.isSome = true := by
  cases p with
  | respond d => cases d <;> rfl
  | takeReport | respondTimeout | respondIllegal => rfl
  | _ => cases h

/-- Primitives the last of which responds end idle, with a response. -/
theorem Block.run_of_respondsLast {ps : List Prim} (h : respondsLast ps = true) :
    ∀ (bs : List Bool) (k : Block), (k.run ps bs).busy = false ∧ (k.run ps bs).rsp.isSome = true := by
  induction ps with
  | nil => cases h
  | cons p ps ih =>
    obtain ⟨hlast, hrest⟩ := responds_of_respondsLast_cons h
    intro bs k
    cases ps with
    | nil =>
      rw [Block.run]
      split <;> exact ⟨Block.effect_of_responds _ hlast, Block.effect_rsp_of_responds _ hlast⟩
    | cons q qs =>
      rw [Block.run]
      split <;> exact ih (hrest (List.cons_ne_nil _ _)) _ _

/-- A command that awaits nothing is answered. -/
theorem exec_answered {i : Instr} {s : State} (hwait : awaitsLevel i = false) (hidle : s.seq.busy = false)
    (hreset : s.noReset) :
    ∃ t, exec i s = .next t ∧ t.seq.busy = false ∧ t.port.rsp.isSome = true ∧ t.noReset := by
  have hexec := exec_of_idle i hidle
  obtain ⟨bs, hblock⟩ := exec_block hwait hidle hreset hexec
  obtain ⟨hbusy, hrsp⟩ := Block.run_of_respondsLast (respondsLast_primsOf i) bs (s.accept i).block
  exact ⟨_, hexec, (congrArg Block.busy hblock).trans hbusy, (congrArg (·.rsp.isSome) hblock).trans hrsp,
    exec_noReset hidle hreset hexec⟩

theorem exists_runsTo (is : List Instr) (hwait : ∀ i ∈ is, awaitsLevel i = false) :
    ∀ {s : State}, s.seq.busy = false → s.noReset → ∃ t, RunsTo is s t := by
  induction is with
  | nil => intro s _ _; exact ⟨s, rfl⟩
  | cons i is ih =>
    obtain ⟨hi, his⟩ := List.forall_mem_cons.1 hwait
    intro s hidle hreset
    obtain ⟨u, hexec, hbusy, hrsp, hreset'⟩ := exec_answered hi hidle hreset
    obtain ⟨t, hrun⟩ := ih his hbusy hreset'
    exact ⟨t, u, hexec, hbusy, hrsp, hrun⟩

/-- What a command does to the decoder of an idle block: a push pushes a bit, TAKE_REPORT clears `AVAILABLE`, and every
other command but DECODER_CLEAR leaves it (R25). -/
theorem exec_dec {i : Instr} {s t : State} (hclear : i ≠ .decoderClear) (hidle : s.seq.busy = false)
    (hreset : s.noReset) (hexec : exec i s = .next t) :
    (isPush i = true ∧ ∃ b, t.dec = s.dec.push b) ∨
      (i = .takeReport ∧ t.dec = { s.dec with available := false }) ∨
      (isPush i = false ∧ i ≠ .takeReport ∧ t.dec = s.dec) := by
  cases i with
  | pushBit b =>
    obtain ⟨u, hexec', -, -, -, hdec, -⟩ := exec_pushBit b hidle hreset
    obtain rfl : u = t := Host.Outcome.next.inj (hexec'.symm.trans hexec)
    exact .inl ⟨rfl, b, hdec⟩
  | samplePush =>
    obtain ⟨u, hexec', -, -, -, hdec⟩ := exec_samplePush hidle hreset
    obtain rfl : u = t := Host.Outcome.next.inj (hexec'.symm.trans hexec)
    exact .inl ⟨rfl, hdec⟩
  | takeReport =>
    obtain ⟨u, hexec', -, -, hdec, -⟩ := exec_takeReport hidle hreset
    obtain rfl : u = t := Host.Outcome.next.inj (hexec'.symm.trans hexec)
    exact .inr (.inl ⟨rfl, hdec⟩)
  | decoderClear => exact absurd rfl hclear
  | _ => exact .inr (.inr ⟨rfl, nofun, lineCommandsLeaveTheDecoder _ s t (by simp) hreset hexec⟩)

theorem pushCount_append_singleton (is : List Instr) (i : Instr) :
    pushCount (is ++ [i]) = pushCount is + if isPush i then 1 else 0 := by
  cases h : isPush i <;> simp [pushCount, List.filter_append, h]

theorem sinceLastPush_append_singleton (is : List Instr) (i : Instr) :
    sinceLastPush (is ++ [i]) = if isPush i then [] else i :: sinceLastPush is := by
  cases h : isPush i <;> simp [sinceLastPush, h]

/-- The decoder `d`, the commands `is` after the start of a report: its phase counts the pushes, and `AVAILABLE` is 1
exactly when the last one ended a report that has not been taken (R97). -/
structure CountsPushes (is : List Instr) (d : Decoder) : Prop where
  inFrame : d.InFrame
  phase : d.phase = pushCount is % 33
  available : d.available = true ↔ 0 < pushCount is ∧ 33 ∣ pushCount is ∧ .takeReport ∉ sinceLastPush is

/-- From the start of a report, every run without DECODER_CLEAR counts its pushes, the last command last. -/
theorem RunsTo.countsPushes {s : State} (hidle : s.seq.busy = false) (hreset : s.noReset) (hidx : s.dec.bitIdx = -1)
    (hslot : s.dec.frameSlot = 0) (hav : s.dec.available = false) (is : List Instr) :
    ∀ {t : State}, .decoderClear ∉ is → RunsTo is s t → CountsPushes is t.dec := by
  induction is using List.reverseRecOn with
  | nil =>
    rintro t - rfl
    refine ⟨Decoder.inFrame_of_preStart hidx (by rw [hslot]; decide), ?_, by simp [hav, pushCount]⟩
    rw [Decoder.phase_of_preStart hidx, hslot]
    rfl
  | append_singleton is i ih =>
    intro t hclear hrun
    obtain ⟨u, hrunIs, v, hexec, -, -, rfl⟩ := RunsTo.append.1 hrun
    obtain ⟨hidle', hreset'⟩ := hrunIs.idle_noReset hidle hreset
    obtain ⟨hin, hphase, hav'⟩ := ih (fun hmem => hclear (List.mem_append_left _ hmem)) hrunIs
    have hi : i ≠ .decoderClear := fun h => hclear (List.mem_append_right _ (h ▸ List.mem_singleton_self i))
    rcases exec_dec hi hidle' hreset' hexec with ⟨hpush, b, hdec⟩ | ⟨rfl, hdec⟩ | ⟨hpush, htake, hdec⟩
    · obtain ⟨hin', hphase', hav''⟩ := Decoder.push_phase b hin
      rw [hphase] at hphase'
      have hcount : pushCount (is ++ [i]) = pushCount is + 1 := by simp [pushCount_append_singleton, hpush]
      rw [hdec]
      refine ⟨hin', by rw [hphase', hcount]; omega, ?_⟩
      rw [hav'', hphase', hcount, sinceLastPush_append_singleton, hpush, Nat.dvd_iff_mod_eq_zero]
      simp
    · rw [hdec]
      exact ⟨⟨hin.low, hin.high, hin.slot⟩, by rw [pushCount_append_singleton]; exact hphase,
        by simp [sinceLastPush_append_singleton, isPush]⟩
    · rw [hdec]
      exact ⟨hin, by simpa [pushCount_append_singleton, hpush] using hphase,
        by simpa [pushCount_append_singleton, sinceLastPush_append_singleton, hpush, Ne.symm htake] using hav'⟩

/-- Settles O41: the run counts its pushes, and commands that await nothing are answered one after the other. -/
theorem availableExactlyAtMultiplesOf33 : Obligations.AvailableExactlyAtMultiplesOf33 := by
  unfold Obligations.AvailableExactlyAtMultiplesOf33
  intro s cmds hidle hreset hidx hslot hav hclear
  exact ⟨fun t hrun => (hrun.countsPushes hidle hreset hidx hslot hav cmds hclear).available,
    fun hwait => exists_runsTo cmds hwait hidle hreset⟩

end Sys2Proof.Machine
end

section
/-! Timeouts: WAIT, SEND_BYTE and RECEIVE_BYTE when a finite timeout runs before the device has given what they need
(R69, R103). -/

namespace Sys2Proof.Machine

/-! ## The first need that is not met -/

/-- Needs of turns, time and samples are met after any others, when no reset is to come. -/
theorem State.serves_append_of_no_see {s : State} {ns ms : List Need} (hreset : s.noReset)
    (hserved : s.serves ns ≠ none) (hms : ∀ l v, Need.see l v ∉ ms) : s.serves (ns ++ ms) ≠ none := by
  obtain ⟨v, hv⟩ := Option.ne_none_iff_exists'.1 hserved
  have hrest : Turn.reset ∉ v.rest := fun hmem => hreset ((serve_rest_suffix _ _ _ _ _ _ _ hv).subset hmem)
  obtain ⟨w, hw⟩ := serve_of_no_see s.params v.rest hrest ms hms v.devClk v.devData 0
  rw [State.serves, serve_append _ _ _ _ _ _ _ (.inr rfl), ← State.serves, hv]
  simp [Served.andThen, hw]

/-- Among primitives whose needs are not all met there is a first one whose need is not. -/
theorem State.exists_first_unserved {s : State} {q : Params} (ps : List Prim) : ∀ {done : List Prim},
    s.serves (done.map (needOf q)) ≠ none → s.serves ((done ++ ps).map (needOf q)) = none →
      ∃ a p b, ps = a ++ p :: b ∧ s.serves ((done ++ a).map (needOf q)) ≠ none ∧
        s.serves ((done ++ a ++ [p]).map (needOf q)) = none := by
  induction ps with
  | nil => intro done hserved hunserved; exact absurd (by simpa using hunserved) hserved
  | cons p ps ih =>
    intro done hserved hunserved
    by_cases hp : s.serves ((done ++ [p]).map (needOf q)) = none
    · exact ⟨[], p, ps, rfl, by simpa using hserved, by simpa using hp⟩
    · obtain ⟨a, p', b, rfl, ha, hp'⟩ := ih hp (by simpa using hunserved)
      exact ⟨p :: a, p', b, rfl, by simpa using ha, by simpa using hp'⟩

/-! ## A command that times out (R69, R103) -/

theorem sensedBy_of_mem_abortPrimsOf {i : Instr} {p : Prim} (h : p ∈ abortPrimsOf i) : sensedBy p = none := by
  have hall : (abortPrimsOf i).all (sensedBy · == none) = true := by
    cases i with
    | wait line level => cases line <;> rfl
    | _ => rfl
  simpa using List.all_eq_true.1 hall p h

/-- With a finite timeout and no reset, a command that gets what its primitives `done` need, and not what `ps` after
them do, does `done` and some first ones of `ps`, and then its timeout part. -/
theorem exec_timesOut {i : Instr} {s : State} {us : Nat} {done ps post : List Prim}
    (hps : primsOf i = done ++ ps ++ post) (hidle : s.seq.busy = false) (hreset : s.noReset)
    (hfin : s.params.waitTimeoutUs = some us) (hin : inputsOk (done ++ ps) s.lines)
    (hserved : s.serves (done.map (needOf s.params)) ≠ none)
    (hunserved : s.serves ((done ++ ps).map (needOf s.params)) = none) :
    ∃ u a p b bs bs', exec i s = .next u ∧ ps = a ++ p :: b ∧
      u.block = ((s.accept i).block.run (done ++ a) bs).run (abortPrimsOf i) bs' := by
  obtain ⟨a, p, b, rfl, ha, hp⟩ := State.exists_first_unserved ps hserved hunserved
  obtain ⟨v, hv⟩ := Option.ne_none_iff_exists'.1 ha
  have hsplit : primsOf i = done ++ a ++ p :: (b ++ post) := by simp [hps]
  have hin' : inputsOk (done ++ a ++ [p]) s.lines := inputsOk_left (qs := b) (by simpa using hin)
  obtain ⟨t, u, bs, hrun, hran, hranu⟩ := runCommand_of_timeout_at (i := i) (post := b ++ post)
    (abortPs := abortPrimsOf i) hidle hreset hfin hin' hv hp
    (fun l v hmem => by simpa [isWaitUntil] using isWaitUntil_of_mem_abortPrimsOf hmem)
    (fun _ => inputsOk_of_senses_none fun _ => sensedBy_of_mem_abortPrimsOf)
  exact ⟨u, a, p, b, v.samples, bs, by rw [exec_eq_runCommand, hsplit, hrun], rfl,
    hranu.block.trans (congrArg _ hran.block)⟩

/-! ## WAIT (R76) -/

/-- Settles O21: WAIT's one wait is not met, and its timeout part is the response. -/
theorem waitTimesOut : Obligations.WaitTimesOut := by
  unfold Obligations.WaitTimesOut
  intro s line l level us hidle hreset hline hdir hfin hserves
  obtain ⟨u, a, p, b, bs, bs', hexec, -, hblock⟩ := exec_timesOut (i := .wait line level) (done := [])
    (ps := [.waitUntil l level]) (post := respondZero) (primsOf_wait hline level) hidle hreset hfin
    ⟨by rintro _ ⟨⟩; exact hdir, trivial⟩ (by simp [State.serves_nil]) hserves
  rw [abortPrimsOf_wait hline] at hblock
  exact ⟨u, hexec, congrArg Block.busy hblock,
    (congrArg Block.rsp hblock).trans (congrArg some lineTimeoutWord_eq),
    exec_sameRegisters (regsOf_wait line level) hreset hexec⟩

/-! ## SEND_BYTE and RECEIVE_BYTE (R103) -/

/-- The timeout part of the two commands inhibits the bus and responds. -/
theorem Block.run_transceiverAbort (k : Block) (bs : List Bool) :
    k.run transceiverAbortPrims bs =
      { k with lines := { k.lines with clkDir := .output, clkOut := false }, busy := false,
               rsp := some lineTimeoutWord } := rfl

theorem exec_transceiver_dec {i : Instr} {s t : State} (hi : isTransceiver i = true) (hreset : s.noReset)
    (hexec : exec i s = .next t) : t.dec = s.dec := by
  cases i with
  | sendByte b => exact lineCommandsLeaveTheDecoder (.sendByte b) s t (by simp) hreset hexec
  | receiveByte => exact lineCommandsLeaveTheDecoder .receiveByte s t (by simp) hreset hexec
  | _ => cases hi

theorem exec_transceiver_rstOut {i : Instr} {s t : State} (hi : isTransceiver i = true) (hreset : s.noReset)
    (hexec : exec i s = .next t) : t.lines.rstOut = s.lines.rstOut := by
  refine exec_same (x := .rst) ?_ hreset hexec
  cases i with
  | sendByte b => rw [regsOf_sendByte]; decide
  | receiveByte => decide
  | _ => cases hi

/-- The command answers `LINE_TIMEOUT` with the bus inhibited and the data line in the direction `d` with its latch at
`v`; the reset pad and the decoder are as before. -/
def TimesOutWith (i : Instr) (s : State) (d : Dir) (v : Bool) : Prop :=
  Answers (exec i s) 0x20000000 (fun t =>
    t.lines = { clkDir := .output, clkOut := false, dataDir := d, dataOut := v, rstOut := s.lines.rstOut } ∧
      t.dec = s.dec)

/-- A transceiver command that times out leaves the data line as its primitives left it. -/
theorem exec_transceiver_timesOut {i : Instr} {s : State} {us : Nat} {done ps post : List Prim}
    (hi : isTransceiver i = true) (hps : primsOf i = done ++ ps ++ post) (hidle : s.seq.busy = false)
    (hreset : s.noReset) (hfin : s.params.waitTimeoutUs = some us)
    (hserved : s.serves (done.map (needOf s.params)) ≠ none)
    (hunserved : s.serves ((done ++ ps).map (needOf s.params)) = none) :
    ∃ a p b bs, ps = a ++ p :: b ∧
      TimesOutWith i s ((s.accept i).block.run (done ++ a) bs).lines.dataDir
        ((s.accept i).block.run (done ++ a) bs).lines.dataOut := by
  obtain ⟨u, a, p, b, bs, bs', hexec, hsplit, hblock⟩ := exec_timesOut hps hidle hreset hfin
    (inputsOk_left (hps ▸ inputsOk_primsOf_transceiver hi s.lines)) hserved hunserved
  rw [abortPrimsOf_transceiver hi, Block.run_transceiverAbort] at hblock
  have hlines : u.lines = _ := congrArg Block.lines hblock
  have hrst := exec_transceiver_rstOut hi hreset hexec
  refine ⟨a, p, b, bs, hsplit, u, hexec, congrArg Block.busy hblock,
    (congrArg Block.rsp hblock).trans (congrArg some lineTimeoutWord_eq), ?_, exec_transceiver_dec hi hreset hexec⟩
  rw [hlines] at hrst ⊢
  rw [← hrst]

/-- Primitives leave every register that none of them writes. -/
theorem Block.run_same {x : Reg} {ps : List Prim} (h : ∀ p ∈ ps, writtenBy p ≠ some x) :
    ∀ (bs : List Bool) (k : Block), x.Same (k.run ps bs) k := by
  induction ps with
  | nil => intro bs k; cases x <;> rfl
  | cons p ps ih =>
    obtain ⟨hp, hps⟩ := List.forall_mem_cons.1 h
    intro bs k
    rw [Block.run]
    split
    · exact (ih hps _ _).trans (k.effect_same _ hp)
    · exact (ih hps _ _).trans (k.effect_same _ hp)

/-! ## The data line of a SEND_BYTE that times out (R80, R82) -/

theorem Block.run_waits {ps : List Prim} (h : ∀ p ∈ ps, isWaitUntil p = true) (bs : List Bool) (k : Block) :
    k.run ps bs = k := by
  induction ps with
  | nil => rfl
  | cons p ps ih =>
    obtain ⟨hp, hps⟩ := List.forall_mem_cons.1 h
    cases p with
    | waitUntil l v => exact ih hps
    | _ => cases hp

/-- SEND_BYTE up to its release of the data line (R80). -/
def sendReleasePrims (b : Byte) : List Prim := sendStartPrims b ++ sendPulsesPrims 10 ++ [.writeDir .data .input]

/-- The four waits of the acknowledgment (R80). -/
def sendAckWaits : List Prim :=
  [.waitUntil .data false, .waitUntil .clk false, .waitUntil .clk true, .waitUntil .data true]

theorem primsOf_sendByte_ack (b : Byte) :
    primsOf (.sendByte b) = sendReleasePrims b ++ sendAckWaits ++ (inhibitPrims ++ respondZero) := rfl

/-- In the acknowledgment the data line is released, with its latch at the last bit of the frame. -/
theorem lines_run_sendAckWaits (s : State) (b : Byte) {a c : List Prim} (h : sendAckWaits = a ++ c) (bs : List Bool) :
    ((s.accept (.sendByte b)).block.run (sendReleasePrims b ++ a) bs).lines.dataDir = .input ∧
      ((s.accept (.sendByte b)).block.run (sendReleasePrims b ++ a) bs).lines.dataOut = true := by
  have hall : ∀ p ∈ sendAckWaits, isWaitUntil p = true := by simp [sendAckWaits, isWaitUntil]
  have hwaits : ∀ p ∈ a, isWaitUntil p = true := fun p hp => hall p (h ▸ List.mem_append_left _ hp)
  have hdrives := drivesBit_run s (.sendByte b) b (k := 10) le_rfl bs
  have hrun : (s.accept (.sendByte b)).block.run (sendReleasePrims b ++ a) bs =
      ((s.accept (.sendByte b)).block.run (sendStartPrims b ++ sendPulsesPrims 10) bs).effect false
        (.writeDir .data .input) := by
    rw [sendReleasePrims, List.append_assoc, Block.run_append keepsSample_sendPrims]
    exact Block.run_waits hwaits bs _
  rw [hrun]
  exact ⟨rfl, hdrives.dataOut.trans (by rw [getLsbD_frameOf]; rfl)⟩

section

variable {s : State} {b : Byte} {us : Nat} (hidle : s.seq.busy = false) (hreset : s.noReset)
  (hfin : s.params.waitTimeoutUs = some us)

include hidle hreset hfin

/-- A SEND_BYTE that drives bit `k` of its frame when its next wait times out keeps it on the data line. -/
theorem sendByte_timesOut_driving {k : Nat} {done post : List Prim} {l : Line} {lv : Bool}
    (hps : primsOf (.sendByte b) = done ++ [.waitUntil l lv] ++ post)
    (hdrives : ∀ bs, DrivesBit b k ((s.accept (.sendByte b)).block.run done bs))
    (hserved : s.serves (done.map (needOf s.params)) ≠ none)
    (hunserved : s.serves (done.map (needOf s.params) ++ [.see l lv]) = none) :
    TimesOutWith (.sendByte b) s .output ((frameOf b).getLsbD k) := by
  obtain ⟨a, p, c, bs, hsplit, hanswers⟩ := exec_transceiver_timesOut (i := .sendByte b) rfl hps hidle hreset hfin
    hserved (by simpa [needOf] using hunserved)
  obtain ⟨rfl, -⟩ : a = [] ∧ _ := by simpa [List.cons_eq_append_iff] using hsplit
  simpa only [List.append_nil, (hdrives bs).dataDir, (hdrives bs).dataOut] using hanswers

/-- Awaiting clock low after `k` clock pulses. -/
theorem sendByte_timesOut_low {k : Nat} (hk : k ≤ 9)
    (hserved : s.serves (sendStartNeeds s.params ++ sendPulsesNeeds s.params k) ≠ none)
    (hunserved : s.serves (sendStartNeeds s.params ++ sendPulsesNeeds s.params k ++ [.see .clk false]) = none) :
    TimesOutWith (.sendByte b) s .output ((frameOf b).getLsbD k) := by
  obtain ⟨post, hps⟩ := primsOf_sendByte_pulse b hk
  rw [← needs_sendPrims s.params b k] at hserved hunserved
  exact sendByte_timesOut_driving hidle hreset hfin (post := [.settle, sendBit k, .waitUntil .clk true] ++ post)
    (hps.trans (by simp [handshakePrims])) (drivesBit_run s (.sendByte b) b (by omega)) hserved hunserved

/-- Awaiting clock high in the pulse after the first `k`. -/
theorem sendByte_timesOut_high {k : Nat} (hk : k ≤ 9)
    (hserved : s.serves (sendStartNeeds s.params ++ sendPulsesNeeds s.params k ++ [.see .clk false]) ≠ none)
    (hunserved : s.serves (sendStartNeeds s.params ++ sendPulsesNeeds s.params (k + 1)) = none) :
    TimesOutWith (.sendByte b) s .output ((frameOf b).getLsbD (k + 1)) := by
  obtain ⟨post, hps⟩ := primsOf_sendByte_pulse b hk
  have hneeds : (sendStartPrims b ++ sendPulsesPrims k ++ handshakeLowPrims (sendBit k)).map (needOf s.params) =
      sendStartNeeds s.params ++ sendPulsesNeeds s.params k ++ [.see .clk false] ++
        [.pass s.params.tSettleUs, .turn] := by
    rw [List.map_append, needs_sendPrims, needs_handshakeLowPrims]
    simp
  refine sendByte_timesOut_driving hidle hreset hfin (l := .clk) (lv := true) (post := post)
    (hps.trans (by simp [handshakePrims, handshakeLowPrims])) (drivesBit_run_low s (.sendByte b) b hk) ?_ ?_
  · rw [hneeds]
    exact State.serves_append_of_no_see hreset hserved (by simp)
  · rw [hneeds]
    rw [sendPulsesNeeds_succ] at hunserved
    simpa [pulseNeeds] using hunserved

/-- Awaiting a level of the acknowledgment. -/
theorem sendByte_timesOut_ack
    (hserved : s.serves (sendStartNeeds s.params ++ sendPulsesNeeds s.params 10) ≠ none)
    (hunserved : s.serves (sendNeeds s.params) = none) :
    TimesOutWith (.sendByte b) s .input true := by
  rw [← needs_sendPrims s.params b 10] at hserved
  have hreleased : s.serves ((sendReleasePrims b).map (needOf s.params)) ≠ none := by
    rw [sendReleasePrims, List.map_append]
    exact State.serves_append_of_no_see hreset hserved (by simp [needOf])
  have hwaits : s.serves ((sendReleasePrims b ++ sendAckWaits).map (needOf s.params)) = none := by
    by_contra hserves
    exact State.serves_append_of_no_see hreset hserves (ms := [.turn, .turn, .turn]) (by simp) hunserved
  obtain ⟨a, p, c, bs, hsplit, hanswers⟩ := exec_transceiver_timesOut (i := .sendByte b) rfl (primsOf_sendByte_ack b)
    hidle hreset hfin hreleased hwaits
  obtain ⟨hdir, hout⟩ := lines_run_sendAckWaits s b hsplit bs
  simpa only [hdir, hout] using hanswers

end

/-- Settles O57, by the wait whose need is the first one that is not met. -/
theorem timedOutSendByteKeepsTheDataLine : Obligations.TimedOutSendByteKeepsTheDataLine := by
  unfold Obligations.TimedOutSendByteKeepsTheDataLine
  intro s b us hidle hreset hfin
  exact ⟨fun _ hk => sendByte_timesOut_low hidle hreset hfin hk, fun _ hk => sendByte_timesOut_high hidle hreset hfin hk,
    sendByte_timesOut_ack hidle hreset hfin⟩

/-! ## The first wait of SEND_BYTE, and any wait of RECEIVE_BYTE (R85, R103) -/

/-- With nothing scheduled and the clock high, SEND_BYTE awaits its first clock low in vain. -/
theorem State.serves_sendStart_of_still {s : State} (hstill : s.still) (hclk : s.env.devClk = true) :
    s.serves (sendStartNeeds s.params ++ sendPulsesNeeds s.params 0) ≠ none ∧
      s.serves (sendStartNeeds s.params ++ sendPulsesNeeds s.params 0 ++ [.see .clk false]) = none := by
  have hsched : s.env.schedule = [] := hstill
  simp [State.serves, hsched, serve, serveStill, sendStartNeeds, sendPulsesNeeds, levelOf, hclk]

/-- A SEND_BYTE whose device never moves times out with its start bit on the data line. -/
theorem sendByte_timesOut_startBit {s : State} (b : Byte) {us : Nat} (hidle : s.seq.busy = false) (hreset : s.noReset)
    (hfin : s.params.waitTimeoutUs = some us) (hstill : s.still) (hclk : s.env.devClk = true) :
    TimesOutWith (.sendByte b) s .output false := by
  obtain ⟨hserved, hunserved⟩ := State.serves_sendStart_of_still hstill hclk
  have hstart : (frameOf b).getLsbD 0 = false := by rw [getLsbD_frameOf]; rfl
  exact hstart ▸ sendByte_timesOut_low hidle hreset hfin (Nat.zero_le 9) hserved hunserved

/-- The primitives of RECEIVE_BYTE that release the lines (R85). -/
def receiveReleasePrims : List Prim := [.clearRxb, .writeDir .data .input, .writeDir .clk .input]

/-- The primitives of RECEIVE_BYTE after the release of the lines. -/
def receiveAfterReleasePrims : List Prim :=
  [.waitUntil .clk false, .waitUntil .clk true] ++ receiveBitsPrims ++ inhibitPrims ++ [.respond .received]

theorem primsOf_receiveByte_eq :
    primsOf .receiveByte = receiveReleasePrims ++ receiveAfterReleasePrims ++ [] := rfl

/-- From its release on, RECEIVE_BYTE leaves the data line an input with its latch as it was. -/
theorem lines_run_receive (s : State) {a c : List Prim} (h : receiveAfterReleasePrims = a ++ c) (bs : List Bool) :
    ((s.accept .receiveByte).block.run (receiveReleasePrims ++ a) bs).lines.dataDir = .input ∧
      ((s.accept .receiveByte).block.run (receiveReleasePrims ++ a) bs).lines.dataOut = s.lines.dataOut := by
  have hall : receiveAfterReleasePrims.all
      (fun p => writtenBy p != some (.dir .data) && writtenBy p != some (.out .data)) = true := by decide
  have hkeeps : ∀ p ∈ a, writtenBy p ≠ some (.dir .data) ∧ writtenBy p ≠ some (.out .data) := fun p hp => by
    simpa using List.all_eq_true.1 hall p (h ▸ List.mem_append_left _ hp)
  rw [Block.run_append (by simp [receiveReleasePrims, keepsSample])]
  exact ⟨Block.run_same (x := .dir .data) (fun p hp => (hkeeps p hp).1) bs _,
    Block.run_same (x := .out .data) (fun p hp => (hkeeps p hp).2) bs _⟩

/-- A RECEIVE_BYTE times out after its release of the lines. -/
theorem receiveByte_timesOut {s : State} {us : Nat} (hidle : s.seq.busy = false) (hreset : s.noReset)
    (hfin : s.params.waitTimeoutUs = some us) (hserves : s.serves (receiveNeeds s.params) = none) :
    TimesOutWith .receiveByte s .input s.lines.dataOut := by
  have hreleased : s.serves (receiveReleasePrims.map (needOf s.params)) ≠ none := by
    simpa using State.serves_append_of_no_see (ns := []) (ms := receiveReleasePrims.map (needOf s.params)) hreset
      (by simp [State.serves_nil]) (by simp [receiveReleasePrims, needOf])
  obtain ⟨a, p, c, bs, hsplit, hanswers⟩ :=
    exec_transceiver_timesOut (i := .receiveByte) rfl primsOf_receiveByte_eq hidle hreset hfin hreleased hserves
  obtain ⟨hdir, hout⟩ := lines_run_receive s hsplit bs
  rwa [hdir, hout] at hanswers

/-- Settles O31: the timeout part inhibits the bus whichever wait it comes from; the first wait of SEND_BYTE comes after
its start bit, and all waits of RECEIVE_BYTE after its release of the lines. -/
theorem transceiverTimesOut : Obligations.TransceiverTimesOut := by
  unfold Obligations.TransceiverTimesOut
  refine ⟨fun s b us hidle hreset hfin hserves => ?_, fun s us hidle hreset hfin hserves => ?_⟩
  · obtain ⟨a, p, c, bs, -, t, hexec, hbusy, hrsp, hlines, hdec⟩ :=
      exec_transceiver_timesOut (i := .sendByte b) (done := []) (post := []) rfl (List.append_nil _).symm hidle hreset
        hfin (by simp [State.serves_nil]) hserves
    refine ⟨t, hexec, hbusy, hrsp, by rw [hlines], by rw [hlines], hdec, fun hstill hclk => ?_⟩
    obtain ⟨u, hu, -, -, hstart, -⟩ := sendByte_timesOut_startBit b hidle hreset hfin hstill hclk
    obtain rfl : t = u := Host.Outcome.next.inj (hexec.symm.trans hu)
    rw [hstart]
    exact ⟨rfl, rfl⟩
  · obtain ⟨t, hexec, hbusy, hrsp, hlines, hdec⟩ := receiveByte_timesOut hidle hreset hfin hserves
    exact ⟨t, hexec, hbusy, hrsp, by rw [hlines], by rw [hlines], by rw [hlines], by rw [hlines], hdec⟩

end Sys2Proof.Machine
end

section
/-! The machine never stops: where `CUR` names a primitive, a step has a next state (R26, R101). -/

namespace Sys2Proof.Machine

theorem runCommand_isNext {i : Instr} {ps abortPs : List Prim} {s : State}
    (hne : (if s.seq.busy then s else s.accept i).seq.cur.remaining ps abortPs ≠ []) :
    ∃ t, runCommand i ps abortPs s = .next t := by
  obtain ⟨p, rest, hrem⟩ := List.exists_cons_of_ne_nil hne
  rw [runCommand_eq, hrem]
  exact ⟨_, rfl⟩

/-- A held command, at one of its waits, runs on. -/
theorem exec_isNext_of_held {s : State} (hseq : s.seqInv) (hbusy : s.seq.busy = true) :
    ∃ t, exec s.seq.cur.cmd s.newCycle = .next t := by
  obtain ⟨-, p, ps, hleft, -⟩ := hseq hbusy
  have hrem : s.seq.cur.remaining (primsOf s.seq.cur.cmd) (abortPrimsOf s.seq.cur.cmd) = p :: ps := hleft
  rw [exec_eq_runCommand]
  exact runCommand_isNext (by simp [hbusy, hrem])

/-- An idle block accepts a legal word and an illegal one. -/
theorem step_isNext_of_offer {s : State} {w : CmdWord} (hreset : s.env.schedule.head? ≠ some .reset)
    (hidle : s.seq.busy = false) (hoffer : s.port.cmd = some w) : ∃ t, step s = .next t := by
  cases hdecode : decode w with
  | ok i =>
    rw [step_of_command hreset hidle hoffer hdecode]
    exact ⟨_, exec_of_idle i hidle⟩
  | error e =>
    rw [step_of_illegal hreset hidle hoffer hdecode]
    exact ⟨_, runCommand_of_idle (s := s.newCycle.takeOffer) hidle ..⟩

/-- Settles O50, by the cases of a step: only a busy block could stop, and it is held at one of its waits. -/
theorem stepNeverStops : Obligations.StepNeverStops := by
  unfold Obligations.StepNeverStops
  rintro s ⟨-, hseq, -⟩
  by_cases hreset : s.env.schedule.head? = some .reset
  · obtain ⟨ts, hts⟩ := List.head?_eq_some_iff.1 hreset
    exact ⟨_, step_of_reset hts⟩
  cases hbusy : s.seq.busy with
  | true =>
    rw [step_of_busy hreset hbusy]
    exact exec_isNext_of_held hseq hbusy
  | false =>
    cases hoffer : s.port.cmd with
    | some w => exact step_isNext_of_offer hreset hbusy hoffer
    | none =>
      cases hsched : s.env.schedule with
      | cons turn ts => exact ⟨_, step_of_idle hbusy hoffer hsched (by simpa [hsched] using hreset)⟩
      | nil => exact ⟨_, step_of_quiet hbusy hoffer hsched⟩

end Sys2Proof.Machine
end

section
/-! How a command leaves a scheduled reset: it is cut off there, or it has answered before (R105, R117); and how long
its response lasts (R129). -/

namespace Sys2Proof.Machine

/-! ## A run up to the next reset (R117) -/

/-- A run goes as far as the next reset, which cuts it off, or it ends before, with the reset still to come; it is not
held, since its turns do not run out. -/
theorem TurnInvariant.runTurns_cutOff_or_ends {abortPs : List Prim} {P : List Prim → State → Prop}
    (hP : TurnInvariant abortPs P) {before : List Turn} (after : List Turn) (hbefore : Turn.reset ∉ before) :
    ∀ {ps : List Prim} {s : State}, P ps s →
      (∃ u : State, runTurns abortPs (before ++ .reset :: after) ps s = u.resetCycle.setSchedule after) ∨
        ∃ (u : State) (mid : List Turn), P [] u ∧
          runTurns abortPs (before ++ .reset :: after) ps s = u.setSchedule (mid ++ .reset :: after) := by
  induction before with
  | nil =>
    intro ps s h
    cases ps with
    | nil => exact .inr ⟨s, [], h, rfl⟩
    | cons p ps => exact .inl ⟨s, rfl⟩
  | cons turn ts ih =>
    have ih := @ih (fun hmem => hbefore (List.mem_cons_of_mem _ hmem))
    intro ps s h
    cases ps with
    | nil => exact .inr ⟨s, turn :: ts, h, rfl⟩
    | cons p ps =>
      rw [List.cons_append]
      cases turn with
      | device clk data => exact ih (hP.device clk data h)
      | caller offer => exact ih (hP.caller offer h)
      | reset => exact absurd List.mem_cons_self hbefore
      | host cycles =>
        unfold runTurns
        cases e : s.primTurn p (some cycles) with
        | done s' => exact ih (hP.done h e)
        | hold s' => exact ih (hP.hold h e)
        | timeout s' => exact ih (hP.timeout h e)

/-! ## A command's end is its answer (R26) -/

/-- In the course of the command `i`, which with no primitive left has answered. -/
structure AnswersInCourse (i : Instr) (ps abortPs qs : List Prim) (s : State) : Prop where
  course : InCourse i ps abortPs qs s
  answered : qs = [] → s.port.rsp.isSome = true

theorem AnswersInCourse.of_course {i : Instr} {ps abortPs qs : List Prim} {s : State}
    (h : InCourse i ps abortPs qs s) (hbusy : s.seq.busy = true) : AnswersInCourse i ps abortPs qs s :=
  ⟨h, fun hnil => absurd hnil (h.of_busy hbusy).1⟩

theorem CommandLists.answersInCourse {ps abortPs : List Prim} (hl : CommandLists ps abortPs) (i : Instr) :
    TurnInvariant abortPs (AnswersInCourse i ps abortPs) where
  done {p qs s s' turn} h e := by
    refine ⟨(hl.inCourse i).done h.course e, ?_⟩
    rintro rfl
    obtain ⟨-, -, -, hrem⟩ := h.course.running (List.cons_ne_nil _ _)
    have hlast : respondsLast [p] = true := hrem ▸ hl.respondsLast_remaining (by simp [hrem])
    obtain ⟨b, hblock⟩ := (TurnDone.of_eq e).effect
    exact (congrArg (·.rsp.isSome) hblock).trans (Block.effect_rsp_of_responds b hlast)
  hold h e := ⟨(hl.inCourse i).hold h.course e, nofun⟩
  timeout h e := by
    obtain ⟨hbusy, -⟩ := h.course.running (List.cons_ne_nil _ _)
    exact .of_course ((hl.inCourse i).timeout h.course e)
      ((congrArg Block.busy (TurnTimedOut.of_eq e).block).trans hbusy)
  device clk data h := ⟨(hl.inCourse i).device clk data h.course, h.answered⟩
  caller offer h := ⟨(hl.inCourse i).caller offer h.course, h.answered⟩
  schedule ts h := ⟨(hl.inCourse i).schedule ts h.course, h.answered⟩

/-! ## Cut off, or answered before (R105, R117) -/

/-- A command was cut off by the reset before the turns `after`, or it had answered, with that reset still to come. -/
def CutOffOrAnswered (after : List Turn) (t : State) : Prop :=
  (t.resetValues ∧ t.env.schedule = after) ∨
    (t.seq.busy = false ∧ t.port.rsp.isSome = true ∧ ∃ mid, t.env.schedule = mid ++ .reset :: after)

section

variable {s t : State} {before after : List Turn}

/-- What an idle block runs for a command or a refused word, with a reset scheduled. -/
theorem RunsList.cutOffOrAnswered {i : Instr} {ps abortPs : List Prim} (hlists : RunsList i ps abortPs)
    (hidle : s.seq.busy = false) (hsched : s.env.schedule = before ++ .reset :: after)
    (hbefore : Turn.reset ∉ before) (hrun : runCommand i ps abortPs s = .next t) : CutOffOrAnswered after t := by
  have hl := hlists.commandLists
  have hne : ps ≠ [] := fun hnil => by simpa [hnil, respondsLast] using hl.last
  have hstart : AnswersInCourse i ps abortPs ps (s.accept i) := .of_course (s.accept_inCourse i abortPs hne) rfl
  obtain ⟨p, rest, rfl⟩ := List.exists_cons_of_ne_nil hne
  rw [runCommand_of_idle hidle, hsched] at hrun
  obtain rfl := Host.Outcome.next.inj hrun
  rcases (hl.answersInCourse i).runTurns_cutOff_or_ends after hbefore hstart with
    ⟨u, e⟩ | ⟨u, mid, hu, e⟩ <;> rw [e]
  · exact .inl ⟨u.resetCycle_resetValues after, rfl⟩
  · exact .inr ⟨hu.course.ended rfl, hu.answered rfl, mid, rfl⟩

theorem exec_cutOffOrAnswered {i : Instr} (hidle : s.seq.busy = false)
    (hsched : s.env.schedule = before ++ .reset :: after) (hbefore : Turn.reset ∉ before)
    (hexec : exec i s = .next t) : CutOffOrAnswered after t :=
  RunsList.cutOffOrAnswered (.inl ⟨rfl, rfl⟩) hidle hsched hbefore (exec_eq_runCommand i s ▸ hexec)

/-- An idle block that is not being reset accepts an offered word, a legal or an illegal one. -/
theorem step_offer_cutOffOrAnswered {w : CmdWord} (hidle : s.seq.busy = false) (hoffer : s.port.cmd = some w)
    (hsched : s.env.schedule = before ++ .reset :: after) (hne : before ≠ []) (hbefore : Turn.reset ∉ before)
    (h : step s = .next t) : CutOffOrAnswered after t := by
  have hreset : s.env.schedule.head? ≠ some .reset := by
    rw [hsched, List.head?_append_of_ne_nil _ hne]
    exact fun hhead => hbefore (List.mem_of_head? hhead)
  cases hdecode : decode w with
  | ok i =>
    rw [step_of_command hreset hidle hoffer hdecode] at h
    exact exec_cutOffOrAnswered (s := s.newCycle.takeOffer) hidle hsched hbefore h
  | error e =>
    rw [step_of_illegal hreset hidle hoffer hdecode] at h
    exact RunsList.cutOffOrAnswered (s := s.newCycle.takeOffer) (.inr ⟨rfl, rfl⟩) hidle hsched hbefore h

end

/-- Settles O5: the turns of the schedule reach the reset unless the command ends before it, and it ends with its
answer. -/
theorem resetCutsARunningCommandOff : Obligations.ResetCutsARunningCommandOff := by
  unfold Obligations.ResetCutsARunningCommandOff
  refine ⟨fun i s t before after hidle hsched hbefore hexec => ?_,
    fun w s t before after hidle hoffer hsched hne hbefore h => ?_⟩
  · exact exec_cutOffOrAnswered hidle hsched hbefore hexec
  · exact step_offer_cutOffOrAnswered hidle hoffer hsched hne hbefore h

/-! ## One cycle of a response (R107, R129) -/

/-- The turns of an idle block present no response. -/
theorem State.idleTurn_rsp {s : State} (turn : Turn) (h : s.port.rsp = none) : (s.idleTurn turn).port.rsp = none := by
  cases turn with
  | reset => rfl
  | _ => exact h

theorem step_rsp_of_no_offer {s t : State} (hidle : s.seq.busy = false) (hoffer : s.port.cmd = none)
    (h : step s = .next t) : t.port.rsp = none := by
  cases hsched : s.env.schedule with
  | nil =>
    rw [step_of_quiet hidle hoffer hsched] at h
    obtain rfl := Host.Outcome.next.inj h
    rfl
  | cons turn ts =>
    by_cases hturn : turn = .reset
    · rw [step_of_reset (hturn ▸ hsched)] at h
      obtain rfl := Host.Outcome.next.inj h
      rfl
    · rw [step_of_idle hidle hoffer hsched hturn] at h
      obtain rfl := Host.Outcome.next.inj h
      exact State.idleTurn_rsp turn rfl

/-- A block that a step leaves busy is held at a wait, and presents no response. -/
theorem step_rsp_of_busy {s t : State} (h : step s = .next t) (hbusy : t.seq.busy = true) : t.port.rsp = none := by
  rcases step_endsIn (P := fun _ _ _ => True)
    (fun _ _ abortPs _ => blockInvariant_of_effect (C := fun _ => True) (fun _ _ _ _ => trivial) abortPs)
    (fun _ => trivial) (fun _ _ _ _ => trivial) h with
    ⟨i, qs, -, hheld⟩ | ⟨u, ts, -, rfl⟩ | ⟨-, turn, ts, rfl⟩ | ⟨-, rfl⟩
  · exact (hheld hbusy).rsp
  · rfl
  · exact State.idleTurn_rsp turn rfl
  · rfl

/-- Settles O6: only an accepted or a held command presents a response, and it is idle again when it does. -/
theorem responseLastsOneCycle : Obligations.ResponseLastsOneCycle := by
  unfold Obligations.ResponseLastsOneCycle
  refine ⟨fun s t => step_rsp_of_no_offer, fun s t h hrsp hreset => ?_⟩
  have hidle : t.seq.busy = false := by
    cases hbusy : t.seq.busy with
    | false => rfl
    | true => simp [step_rsp_of_busy h hbusy] at hrsp
  simp [State.cmdReadyO, State.rstI, hidle, hreset]

end Sys2Proof.Machine
end
